-- ==== Sys2Proof/Word.lean ====
section
/-! DEFINITION. The word types: a register, a status, a command or a buffer byte is 8 bits (10_state.md R20,
00_scope.md R11); the prescale divisor is 16 bits (R11, R21). Lengths, cursor, position, offsets and durations are
naturals and have no type of their own (41_clock_config.md R135). -/

namespace Sys2Proof

/-- One byte: the contents of every register and of every buffer cell (R20, R33). -/
abbrev Byte := BitVec 8

/-- The prescale divisor (R21). -/
abbrev Prescale := BitVec 16

end Sys2Proof
end

