-- ==== Sys2Proof/Config.lean ====
section
/-! DEFINITION. What an implementation fixes (the named parameters of 00_scope.md R9) and the free values: constants
with no body, so that nothing can be proved of their value. The defaults of the parameters stand in
Machine/Defaults.lean. -/

namespace Sys2Proof

/-- `CLOCK_CHECK_ARITH` (R9, R131, D7): the arithmetic of the tolerance check. -/
inductive ClockArith where
  | exact
  | truncating
  deriving DecidableEq, Repr

/-- The named parameters of R9 that a rule reads. R90: "A model should carry the parameters symbolically and use the
defaults only for tests." They are a field of State that no operation writes (log 8). `BLOCK_MAX` is fixed by the source. -/
structure Params where
  /-- `REG_PRELOW` (R91). -/
  regPrelow : Nat
  /-- `REG_PREHIGH` (R91). -/
  regPrehigh : Nat
  /-- `REG_CONTROL` (R91). -/
  regControl : Nat
  /-- `REG_DATA` (R91). -/
  regData : Nat
  /-- `REG_CMD` = `REG_STATUS` (R91). -/
  regCmd : Nat
  /-- `CTRL_EN`: the byte engine is enabled (R92). -/
  ctrlEn : Byte
  /-- `CTRL_IEN`: the completion signal is driven when the flag is set (R92). -/
  ctrlIen : Byte
  /-- `STAT_RXACK`: set means NACK (R94). -/
  statRxack : Byte
  /-- `STAT_BUSY` (R94). -/
  statBusy : Byte
  /-- `STAT_AL`: arbitration lost, latched (R94). -/
  statAl : Byte
  /-- `STAT_TIP`: a byte transfer is in progress (R94). -/
  statTip : Byte
  /-- `STAT_IF`: the pending-event flag (R94). -/
  statIf : Byte
  /-- `CMD_START` (R95). -/
  cmdStart : Byte
  /-- `CMD_WRITE` (R95). -/
  cmdWrite : Byte
  /-- `CMD_READ_ACK` (R95). -/
  cmdReadAck : Byte
  /-- `CMD_READ_NACK` (R95). -/
  cmdReadNack : Byte
  /-- `CMD_STOP` (R95). -/
  cmdStop : Byte
  /-- `CMD_IACK` (R95). -/
  cmdIack : Byte
  /-- `CMD_RECOVER` (R95). -/
  cmdRecover : Byte
  /-- `T_IRQ_WAIT` (R9, R241), in the unit of `now`. -/
  tIrqWait : Nat
  /-- `T_POLL_WAIT` (R9, R241). -/
  tPollWait : Nat
  /-- `T_RECOVERY_WAIT` (R9, R241). -/
  tRecoveryWait : Nat
  /-- `TICK`: the granularity of `now` (R9, R246, D21), in the unit of `now` (log 7). -/
  tick : Nat
  /-- `LEN_MAX`: the largest message length; `none` is unbounded (R9, D35; log 8). -/
  lenMax : Option Nat
  /-- `CLOCK_CHECK_ARITH` (R9, R131). -/
  clockArith : ClockArith
  /-- `IACK_CLEARS_AL` (R9, R146): read by the reference engine alone. -/
  iackClearsAl : Bool
  deriving DecidableEq, Repr

namespace Config

/-- `BLOCK_MAX` (R9): the largest legal block-read count byte; the source fixes it. -/
def blockMax : Nat := 32

/-- A FREE VALUE: the `n`-th byte that `draw` answers (R12, R71): what a register read answers when the oracle's list
is used up, and the value of a buffer byte that does not exist. No body: nothing is known of it (log 4, log 24). -/
opaque drawByte : Nat → Byte

/-- A FREE VALUE: how many ticks pass before a reading of the clock for which the input list says nothing (R240;
log 7). No body: nothing is known of it. -/
opaque drawElapsed : Nat → Nat

end Config

end Sys2Proof
end

