-- ==== Sys2Proof/Syntax.lean ====
section
/-! DEFINITION. The three instruction levels of 00_scope.md R8 as ONE inductive: seven commands (30_encoding.md R95), six
message kinds (R99) and fourteen host operations (R103), with the operands the spec gives them. -/

namespace Sys2Proof

/-- The five register ids (R91). A `getreg` of `cmd` reads STATUS (20_memory.md R70). -/
inductive RegId where
  | prelow
  | prehigh
  | control
  | data
  | cmd
  deriving DecidableEq, Repr

/-- The seven commands the block ever writes (R95). -/
inductive Command where
  | start
  | write
  | readAck
  | readNack
  | stop
  | iack
  | recover
  deriving DecidableEq, Repr

/-- The scheduling style (10_state.md R34). -/
inductive Mode where
  | interrupt
  | poll
  deriving DecidableEq, Repr

/-- The byte order of a 2 or 4 byte access (20_memory.md R66). -/
inductive Endian where
  | little
  | big
  deriving DecidableEq, Repr

/-- The seven fields of the configuration surface (00_scope.md R9), the operand of `configure`. -/
structure Surface where
  ipClockKHz : Nat
  busClockKHz : Nat
  registerWidth : Nat
  endianness : Endian
  interruptOrPoll : Mode
  registerShift : Nat
  baseOffset : Nat
  deriving DecidableEq, Repr

/-- A message of the list (10_state.md R33). `rd`: direction, true is read. `buf`: the byte array, `none` when absent; its
capacity is its length (log 21). `addr` is a natural because a list may name an address above 7 bits, which `validate`
refuses (R97). -/
structure Message where
  addr : Nat
  rd : Bool
  nostart : Bool
  recvlen : Bool
  len : Nat
  buf : Option (List Byte)
  deriving DecidableEq, Repr

/-- The operands of a message instruction (30_encoding.md R98): what its kind does not say. -/
structure MsgOperands where
  addr : Nat
  len : Nat
  buf : Option (List Byte)
  deriving DecidableEq, Repr

/-- A submitted list; `none` is the absent list of 44_adapters.md R201. -/
abbrev MsgList := Option (List Message)

/-- One constructor per row of spec/opcode_table.json. -/
inductive Instr where
  /-- `CMD_START` (42_commands.md R141). -/
  | cmdStart
  /-- `CMD_WRITE` (R142). -/
  | cmdWrite
  /-- `CMD_READ_ACK` (R143). -/
  | cmdReadAck
  /-- `CMD_READ_NACK` (R144). -/
  | cmdReadNack
  /-- `CMD_STOP` (R145). -/
  | cmdStop
  /-- `CMD_IACK` (R146). -/
  | cmdIack
  /-- `CMD_RECOVER` (R147). -/
  | cmdRecover
  /-- `MSG_WRITE` (43_sequencer.md R171), kinds 000 and 100: `l` is the ignored recvlen bit (R106). -/
  | msgWrite (l : Bool) (o : MsgOperands)
  /-- `MSG_READ` (R172), kind 001. -/
  | msgRead (o : MsgOperands)
  /-- `MSG_READ_RECVLEN` (R173), kind 101. -/
  | msgReadRecvlen (o : MsgOperands)
  /-- `MSG_WRITE_NOSTART` (R174), kinds 010 and 110: `l` is the ignored recvlen bit (R106). -/
  | msgWriteNostart (l : Bool) (o : MsgOperands)
  /-- `MSG_READ_NOSTART` (R175), kind 011. -/
  | msgReadNostart (o : MsgOperands)
  /-- `MSG_READ_RECVLEN_NOSTART` (R176), kind 111. -/
  | msgReadRecvlenNostart (o : MsgOperands)
  /-- `configure` (41_clock_config.md R133). -/
  | configure (cfg : Surface)
  /-- `submit` (44_adapters.md R200). -/
  | submit (msgs : MsgList)
  /-- `validate` (R201). -/
  | validate (msgs : MsgList)
  /-- `arm` (R202). -/
  | arm (msgs : MsgList)
  /-- `recover` (45_recovery.md R230). -/
  | recover
  /-- `step` (43_sequencer.md R191). -/
  | step
  /-- `irq_entry` (44_adapters.md R203). -/
  | irqEntry
  /-- `wait_irq` (R204). -/
  | waitIrq
  /-- `poll_loop` (R205). -/
  | pollLoop
  /-- `poll_wait` (R206): the STATUS mask awaited clear, and the bound. -/
  | pollWait (mask : Byte) (t : Nat)
  /-- `watchdog_abort` (46_watchdog.md R244). -/
  | watchdogAbort
  /-- `report` (44_adapters.md R207). -/
  | report
  /-- `getreg` (40_register_access.md R120). -/
  | getreg (id : RegId)
  /-- `setreg` (R121). -/
  | setreg (id : RegId) (value : Byte)
  deriving DecidableEq, Repr

end Sys2Proof
end

