-- ==== Sys2Proof/Decode.lean ====
section
/-! DEFINITION. The decoder of a call's bytes and the encoder after it. The first byte is the row's word as
spec/opcode_table.json gives it (30_encoding.md R95, R99, R103). The three formats share words (0x01 is CMD_IACK,
MSG_READ and submit), so the second byte names the format; 0 there is a bare word with no format named. The operands have
no bit layout in the spec (R98, R102, R103): their serialisation is the model's (log 2, DESIGN CHOICE). -/

namespace Sys2Proof

/-- Why bytes decode to no instruction. -/
inductive Reject where
  /-- The bytes end inside an instruction. -/
  | truncated
  /-- The format byte is none of 0 to 3. -/
  | unknownFormat
  /-- A command byte that is not one of the seven (R104). -/
  | unknownCommand
  /-- A message word above the 3 bit kind (R99). -/
  | unknownKind
  /-- Host ordinals 14 and 15 and above (R103). -/
  | unknownOperation
  /-- A register id byte above 4 (R91). -/
  | unknownRegister
  /-- An operand byte that stands for no value of its type. -/
  | badOperand
  deriving DecidableEq, Repr

/-- What reading a value off the front of the bytes answers: the value and the bytes after it. -/
abbrev Parsed (α : Type) := Except Reject (α × List Byte)

/-- The format byte of a bare word (log 2). -/
def fmtBare : Byte := 0
/-- The format byte of a command byte, CMD8 (R95). -/
def fmtCmd : Byte := 1
/-- The format byte of a message, MSG (R99). -/
def fmtMsg : Byte := 2
/-- The format byte of a host operation, HOSTOP (R103). -/
def fmtHost : Byte := 3

/-! ### Operands: the decoder's half -/

def takeByte : List Byte → Parsed Byte
  | [] => .error .truncated
  | b :: r => .ok (b, r)

/-- A natural, seven bits a byte, least significant first; bit 7 of a byte says that another follows. -/
def takeNat : List Byte → Parsed Nat
  | [] => .error .truncated
  | b :: r =>
    if b.toNat < 128 then .ok (b.toNat, r)
    else
      match takeNat r with
      | .error e => .error e
      | .ok (n, r') => .ok (b.toNat - 128 + 128 * n, r')

def takeBool (bs : List Byte) : Parsed Bool :=
  match takeByte bs with
  | .error e => .error e
  | .ok (b, r) => if b = 0 then .ok (false, r) else if b = 1 then .ok (true, r) else .error .badOperand

/-- `n` bytes. -/
def takeBytes : Nat → List Byte → Parsed (List Byte)
  | 0, bs => .ok ([], bs)
  | n + 1, bs =>
    match takeByte bs with
    | .error e => .error e
    | .ok (b, r) =>
      match takeBytes n r with
      | .error e => .error e
      | .ok (l, r') => .ok (b :: l, r')

/-- A buffer: a presence byte, then its capacity and its bytes. -/
def takeBuf (bs : List Byte) : Parsed (Option (List Byte)) :=
  match takeBool bs with
  | .error e => .error e
  | .ok (false, r) => .ok (none, r)
  | .ok (true, r) =>
    match takeNat r with
    | .error e => .error e
    | .ok (n, r') =>
      match takeBytes n r' with
      | .error e => .error e
      | .ok (l, r'') => .ok (some l, r'')

/-- The operands of a message: address, length, buffer (R98). -/
def takeOperands (bs : List Byte) : Parsed MsgOperands :=
  match takeNat bs with
  | .error e => .error e
  | .ok (addr, r) =>
    match takeNat r with
    | .error e => .error e
    | .ok (len, r') =>
      match takeBuf r' with
      | .error e => .error e
      | .ok (buf, r'') => .ok ({ addr := addr, len := len, buf := buf }, r'')

/-- The three flags of a kind, `kind[2:0] = {recvlen, nostart, rd}` (R99), with a message's operands. -/
def messageOfKind (kind : Nat) (o : MsgOperands) : Message :=
  { addr := o.addr, rd := kind.testBit 0, nostart := kind.testBit 1, recvlen := kind.testBit 2, len := o.len, buf := o.buf }

/-- One message of a list: its kind byte, then its operands. -/
def takeMessage (bs : List Byte) : Parsed Message :=
  match takeByte bs with
  | .error e => .error e
  | .ok (k, r) =>
    if k.toNat < 8 then
      match takeOperands r with
      | .error e => .error e
      | .ok (o, r') => .ok (messageOfKind k.toNat o, r')
    else .error .unknownKind

def takeMessages : Nat → List Byte → Parsed (List Message)
  | 0, bs => .ok ([], bs)
  | n + 1, bs =>
    match takeMessage bs with
    | .error e => .error e
    | .ok (m, r) =>
      match takeMessages n r with
      | .error e => .error e
      | .ok (l, r') => .ok (m :: l, r')

/-- A list: a presence byte, the number of messages, the messages. -/
def takeMsgList (bs : List Byte) : Parsed MsgList :=
  match takeBool bs with
  | .error e => .error e
  | .ok (false, r) => .ok (none, r)
  | .ok (true, r) =>
    match takeNat r with
    | .error e => .error e
    | .ok (n, r') =>
      match takeMessages n r' with
      | .error e => .error e
      | .ok (l, r'') => .ok (some l, r'')

/-- A register id (R91). -/
def takeReg (bs : List Byte) : Parsed RegId :=
  match takeByte bs with
  | .error e => .error e
  | .ok (b, r) =>
    match b.toNat with
    | 0 => .ok (.prelow, r)
    | 1 => .ok (.prehigh, r)
    | 2 => .ok (.control, r)
    | 3 => .ok (.data, r)
    | 4 => .ok (.cmd, r)
    | _ => .error .unknownRegister

/-- The seven fields of the surface, in R9's order; little and interrupt are 0. -/
def takeSurface (bs : List Byte) : Parsed Surface :=
  match takeNat bs with
  | .error e => .error e
  | .ok (ip, r1) =>
    match takeNat r1 with
    | .error e => .error e
    | .ok (bus, r2) =>
      match takeNat r2 with
      | .error e => .error e
      | .ok (w, r3) =>
        match takeBool r3 with
        | .error e => .error e
        | .ok (big, r4) =>
          match takeBool r4 with
          | .error e => .error e
          | .ok (poll, r5) =>
            match takeNat r5 with
            | .error e => .error e
            | .ok (shift, r6) =>
              match takeNat r6 with
              | .error e => .error e
              | .ok (base, r7) =>
                .ok ({ ipClockKHz := ip, busClockKHz := bus, registerWidth := w,
                       endianness := if big then .big else .little,
                       interruptOrPoll := if poll then .poll else .interrupt,
                       registerShift := shift, baseOffset := base }, r7)

/-- Keep the rest of the bytes, and turn the value into an instruction. -/
def parsedAs {α : Type} (f : α → Instr) : Parsed α → Parsed Instr
  | .error e => .error e
  | .ok (a, r) => .ok (f a, r)

/-! ### The three formats -/

/-- A command byte, compared whole with the seven values (R95, R108). -/
def decodeCommand (op : Nat) : Option Instr :=
  match op with
  | 0x91 => some .cmdStart
  | 0x11 => some .cmdWrite
  | 0x21 => some .cmdReadAck
  | 0x29 => some .cmdReadNack
  | 0x41 => some .cmdStop
  | 0x01 => some .cmdIack
  | 0x61 => some .cmdRecover
  | _ => none

/-- A message kind (R99); kinds 100 and 110 are writes with the ignored recvlen bit (R106). -/
def decodeKind (kind : Nat) (o : MsgOperands) : Option Instr :=
  match kind with
  | 0 => some (.msgWrite false o)
  | 1 => some (.msgRead o)
  | 2 => some (.msgWriteNostart false o)
  | 3 => some (.msgReadNostart o)
  | 4 => some (.msgWrite true o)
  | 5 => some (.msgReadRecvlen o)
  | 6 => some (.msgWriteNostart true o)
  | 7 => some (.msgReadRecvlenNostart o)
  | _ => none

def decodeMsg (op : Nat) (bs : List Byte) : Parsed Instr :=
  if op < 8 then
    match takeOperands bs with
    | .error e => .error e
    | .ok (o, r) =>
      match decodeKind op o with
      | some i => .ok (i, r)
      | none => .error .unknownKind
  else .error .unknownKind

/-- A host operation's ordinal (R103). -/
def decodeHost (op : Nat) (bs : List Byte) : Parsed Instr :=
  match op with
  | 0 => parsedAs Instr.configure (takeSurface bs)
  | 1 => parsedAs Instr.submit (takeMsgList bs)
  | 2 => parsedAs Instr.validate (takeMsgList bs)
  | 3 => parsedAs Instr.arm (takeMsgList bs)
  | 4 => .ok (.recover, bs)
  | 5 => .ok (.step, bs)
  | 6 => .ok (.irqEntry, bs)
  | 7 => .ok (.waitIrq, bs)
  | 8 => .ok (.pollLoop, bs)
  | 9 =>
    match takeByte bs with
    | .error e => .error e
    | .ok (mask, r) => parsedAs (Instr.pollWait mask) (takeNat r)
  | 10 => .ok (.watchdogAbort, bs)
  | 11 => .ok (.report, bs)
  | 12 => parsedAs Instr.getreg (takeReg bs)
  | 13 =>
    match takeReg bs with
    | .error e => .error e
    | .ok (id, r) => parsedAs (Instr.setreg id) (takeByte r)
  | _ => .error .unknownOperation

/-- One instruction off the front of a call's bytes. A bare word is read as a command byte where it is one of the seven, else
as a host ordinal (log 2). -/
def decode : List Byte → Parsed Instr
  | [] => .error .truncated
  | [_] => .error .truncated
  | op :: fmt :: rest =>
    if fmt = fmtCmd then
      match decodeCommand op.toNat with
      | some i => .ok (i, rest)
      | none => .error .unknownCommand
    else if fmt = fmtMsg then decodeMsg op.toNat rest
    else if fmt = fmtHost then decodeHost op.toNat rest
    else if fmt = fmtBare then
      match decodeCommand op.toNat with
      | some i => .ok (i, rest)
      | none => decodeHost op.toNat rest
    else .error .unknownFormat

/-! ### The encoder -/

/-- `putNat`'s loop; the fuel bounds the number of bytes. -/
def putNatFuel : Nat → Nat → List Byte
  | 0, n => [BitVec.ofNat 8 n]
  | fuel + 1, n => if n < 128 then [BitVec.ofNat 8 n] else BitVec.ofNat 8 (n % 128 + 128) :: putNatFuel fuel (n / 128)

def putNat (n : Nat) : List Byte := putNatFuel n n

def putBool (b : Bool) : List Byte := [if b then 1 else 0]

def putBuf : Option (List Byte) → List Byte
  | none => [0]
  | some l => 1 :: putNat l.length ++ l

def putOperands (o : MsgOperands) : List Byte := putNat o.addr ++ putNat o.len ++ putBuf o.buf

/-- `{recvlen, nostart, rd}` as a number (R99). -/
def kindOf (m : Message) : Nat :=
  (if m.recvlen then 4 else 0) + (if m.nostart then 2 else 0) + (if m.rd then 1 else 0)

def putMessage (m : Message) : List Byte :=
  BitVec.ofNat 8 (kindOf m) :: putOperands { addr := m.addr, len := m.len, buf := m.buf }

def putMsgList : MsgList → List Byte
  | none => [0]
  | some l => 1 :: putNat l.length ++ (l.map putMessage).flatten

def putReg : RegId → List Byte
  | .prelow => [0]
  | .prehigh => [1]
  | .control => [2]
  | .data => [3]
  | .cmd => [4]

def putSurface (c : Surface) : List Byte :=
  putNat c.ipClockKHz ++ putNat c.busClockKHz ++ putNat c.registerWidth ++ putBool (decide (c.endianness = .big))
    ++ putBool (decide (c.interruptOrPoll = .poll)) ++ putNat c.registerShift ++ putNat c.baseOffset

/-- The row's word (spec/opcode_table.json). -/
def opWord : Instr → Byte
  | .cmdStart => 0x91
  | .cmdWrite => 0x11
  | .cmdReadAck => 0x21
  | .cmdReadNack => 0x29
  | .cmdStop => 0x41
  | .cmdIack => 0x01
  | .cmdRecover => 0x61
  | .msgWrite l _ => if l then 4 else 0
  | .msgRead _ => 1
  | .msgReadRecvlen _ => 5
  | .msgWriteNostart l _ => if l then 6 else 2
  | .msgReadNostart _ => 3
  | .msgReadRecvlenNostart _ => 7
  | .configure _ => 0
  | .submit _ => 1
  | .validate _ => 2
  | .arm _ => 3
  | .recover => 4
  | .step => 5
  | .irqEntry => 6
  | .waitIrq => 7
  | .pollLoop => 8
  | .pollWait _ _ => 9
  | .watchdogAbort => 10
  | .report => 11
  | .getreg _ => 12
  | .setreg _ _ => 13

/-- The row's format. -/
def fmtOf : Instr → Byte
  | .cmdStart => fmtCmd
  | .cmdWrite => fmtCmd
  | .cmdReadAck => fmtCmd
  | .cmdReadNack => fmtCmd
  | .cmdStop => fmtCmd
  | .cmdIack => fmtCmd
  | .cmdRecover => fmtCmd
  | .msgWrite _ _ => fmtMsg
  | .msgRead _ => fmtMsg
  | .msgReadRecvlen _ => fmtMsg
  | .msgWriteNostart _ _ => fmtMsg
  | .msgReadNostart _ => fmtMsg
  | .msgReadRecvlenNostart _ => fmtMsg
  | .configure _ => fmtHost
  | .submit _ => fmtHost
  | .validate _ => fmtHost
  | .arm _ => fmtHost
  | .recover => fmtHost
  | .step => fmtHost
  | .irqEntry => fmtHost
  | .waitIrq => fmtHost
  | .pollLoop => fmtHost
  | .pollWait _ _ => fmtHost
  | .watchdogAbort => fmtHost
  | .report => fmtHost
  | .getreg _ => fmtHost
  | .setreg _ _ => fmtHost

/-- The operands' bytes. -/
def putArgs : Instr → List Byte
  | .cmdStart => []
  | .cmdWrite => []
  | .cmdReadAck => []
  | .cmdReadNack => []
  | .cmdStop => []
  | .cmdIack => []
  | .cmdRecover => []
  | .msgWrite _ o => putOperands o
  | .msgRead o => putOperands o
  | .msgReadRecvlen o => putOperands o
  | .msgWriteNostart _ o => putOperands o
  | .msgReadNostart o => putOperands o
  | .msgReadRecvlenNostart o => putOperands o
  | .configure cfg => putSurface cfg
  | .submit msgs => putMsgList msgs
  | .validate msgs => putMsgList msgs
  | .arm msgs => putMsgList msgs
  | .recover => []
  | .step => []
  | .irqEntry => []
  | .waitIrq => []
  | .pollLoop => []
  | .pollWait mask t => mask :: putNat t
  | .watchdogAbort => []
  | .report => []
  | .getreg id => putReg id
  | .setreg id value => putReg id ++ [value]

/-- The bytes of an instruction's call. -/
def encode (i : Instr) : List Byte := opWord i :: fmtOf i :: putArgs i

/-! ### The table's words -/

/-- The format byte that goes with a table word of `nbits` bits: the kind has 3 bits and the ordinal 4 (R99, R103); a byte
alone names no format (log 2). -/
def fmtOfBits (nbits : Nat) : Byte :=
  if nbits = 3 then fmtMsg else if nbits = 4 then fmtHost else fmtBare

/-- The bytes of a word as spec/opcode_table.json numbers it, its operands all zero bytes (the longest zero operand is the
configuration surface's seven). A word of more than 8 bits names its format in bits 15..8. -/
def tableBytes (nbits w : Nat) : List Byte :=
  BitVec.ofNat 8 w :: (if nbits ≤ 8 then fmtOfBits nbits else BitVec.ofNat 8 (w / 256)) ::
    List.replicate 16 0

/-- The instruction the decoder reads from a word numbered as the table numbers it. -/
def decodeTableWord (nbits w : Nat) : Option Instr :=
  match decode (tableBytes nbits w) with
  | .ok (i, _) => some i
  | .error _ => none

end Sys2Proof
end

