-- ==== Sys2Proof/Machine/Defaults.lean ====
section
/-! DEFINITION. The default values of the named parameters (00_scope.md R9). The register ids, the masks and the command
bytes are general knowledge of the OpenCores interface (93_implementation_defined.md G1 to G5; log 22, PRESUMED); no rule of
the sequencer depends on one (30_encoding.md R90). -/

namespace Sys2Proof

/-- R9's column "default". The unit of the three durations is the microsecond; `TICK` is open, and 1 here
(log 7); `LEN_MAX` is open, and unbounded (log 8). -/
def Params.default : Params where
  regPrelow := 0
  regPrehigh := 1
  regControl := 2
  regData := 3
  regCmd := 4
  ctrlEn := 0x80
  ctrlIen := 0x40
  statRxack := 0x80
  statBusy := 0x40
  statAl := 0x20
  statTip := 0x02
  statIf := 0x01
  cmdStart := 0x91
  cmdWrite := 0x11
  cmdReadAck := 0x21
  cmdReadNack := 0x29
  cmdStop := 0x41
  cmdIack := 0x01
  cmdRecover := 0x61
  tIrqWait := 1000000
  tPollWait := 100000
  tRecoveryWait := 1000
  tick := 1
  lenMax := none
  clockArith := .exact
  iackClearsAl := false

end Sys2Proof
end

