-- ==== Sys2Proof/Machine/State.lean ====
section
/-! DEFINITION. The state of one controller instance (10_state.md; R48: instances share nothing), the reasons a step can
stop, and the state after reset (R46, R290). -/

namespace Sys2Proof.Machine

/-! ### The block's own enumerations -/

/-- The source's "State" (R28, R100). DONE and ERROR are terminal. -/
inductive Phase where
  | done
  | start
  | write
  | read
  | error
  deriving DecidableEq, Repr

/-- The error classes of the `err` latch (R35, 60_exceptions.md R260), in the order of their codes. -/
inductive Err where
  | none
  | configuration
  | parameter
  | nack
  | arbitration
  | timeout
  | blockLength
  deriving DecidableEq, Repr

/-- The lock: free, or held by one of the two contexts (R37, 20_memory.md R76). -/
inductive Lock where
  | free
  | initiator
  | interrupt
  deriving DecidableEq, Repr

/-- Which transaction is not yet reported (44_adapters.md R200, R208): none, one that submit or arm started (its list is the
block's, 20_memory.md R80), or a program fed message by message (log 9, log 15). -/
inductive Claim where
  | free
  | submission
  | program
  deriving DecidableEq, Repr

/-- The mark a step returns (43_sequencer.md R179, R191): TERMINAL or CONTINUE. -/
inductive StepMark where
  | terminal
  | goesOn
  deriving DecidableEq, Repr

/-- The two results of irq_entry (30_encoding.md R101). -/
inductive IrqResult where
  | notMine
  | handled
  deriving DecidableEq, Repr

/-- What the initiator's last operation handed back (log 19). -/
inductive Ret where
  /-- An operation that returns nothing, or none yet. -/
  | nothing
  /-- configure: Success is the class None (R133). -/
  | configured (e : Err)
  /-- validate: whether the list passes (R201). -/
  | valid (ok : Bool)
  /-- step, and a message instruction (R191). -/
  | mark (m : StepMark)
  /-- poll_wait (R206). -/
  | waited (ok : Bool)
  /-- getreg (R120). -/
  | byte (v : Byte)
  /-- submit and report: the pair `{result, error}` (R39, R207). -/
  | result (msgs : MsgList) (e : Err)
  deriving DecidableEq, Repr

/-- The legal register widths, in bytes (20_memory.md R63). -/
inductive Width where
  | one
  | two
  | four
  deriving DecidableEq, Repr

/-- DeviceConfig (R40). -/
structure DeviceConfig where
  ipClockKHz : Nat
  busClockKHz : Nat
  prescale : Prescale
  registerWidth : Width
  endianness : Endian
  baseOffset : Nat
  registerShift : Nat
  interruptOrPoll : Mode
  deriving DecidableEq, Repr

/-- Who gets a poll_wait's answer: its direct caller, or poll_loop, which remembers whether State was terminal (R205). -/
inductive PollFor where
  | alone
  | loop (terminal : Bool)
  deriving DecidableEq, Repr

/-- Where the initiator stands inside an operation that has not returned: what it does at its next move (log 11, 12). -/
inductive Frame where
  /-- arm, at `acquire lock` (R202); `owner`: who holds the claim, a submission or a fed program. -/
  | armStart (owner : Claim) (msgs : MsgList)
  /-- recover, in the WAIT loop (45_recovery.md R235). -/
  | recoverWait
  /-- arm, after recover has returned (R202). -/
  | armTail (owner : Claim) (msgs : MsgList)
  /-- submit, after arm: wait_irq or poll_loop, by mode (R200). -/
  | launch
  /-- wait_irq, suspended (R204). -/
  | suspended
  /-- watchdog_abort, at `acquire lock` (46_watchdog.md R244). -/
  | abort
  /-- poll_loop, at the top of its loop (R205). -/
  | pollTop
  /-- poll_wait, in its loop (R206). -/
  | pollWaiting (mask : Byte) (t : Nat) (k : PollFor)
  /-- poll_loop, at `acquire lock` before its step (R205). -/
  | pollStep
  /-- terminal_wait_expired, at `acquire lock` (R216). -/
  | terminalExpired
  /-- submit, at `return report()` (R200). -/
  | report
  deriving DecidableEq, Repr

/-! ### The environment -/

/-- Which environment answers the register accesses (R14, D25). -/
inductive Level where
  /-- Trusted: any byte may be answered. -/
  | oracle
  /-- The reference engine of R150 to R163. -/
  | reference
  deriving DecidableEq, Repr

/-- One register access (R13, 40_register_access.md R123): the id, the offset and bytes of the one transport call, and the
byte value read or written. -/
inductive Event where
  | read (id : RegId) (off : Nat) (bytes : List Byte) (v : Byte)
  | write (id : RegId) (off : Nat) (bytes : List Byte) (v : Byte)
  deriving DecidableEq, Repr

/-- The byte engine (R20 to R25, R42, R150): the registers the block writes, and the state behind STATUS and DATA. -/
structure Engine where
  /-- PREHIGH, PRELOW (R21). -/
  prer : Prescale
  /-- CONTROL (R22). -/
  ctr : Byte
  /-- DATA, transmit side (R23). -/
  txr : Byte
  /-- DATA, receive side (R23). -/
  rxr : Byte
  rxack : Bool
  busy : Bool
  al : Bool
  tip : Bool
  ifl : Bool
  /-- The command in flight; never `iack`. -/
  inflight : Option Command
  /-- Another master, which won an arbitration, holds the bus (R154; log 17). -/
  otherMaster : Bool
  deriving DecidableEq, Repr

/-- The simulated target (R157). -/
structure Target where
  /-- Its 7 bit address. -/
  addr : Nat
  /-- How many data bytes it still acknowledges; `none` is every one. -/
  acksLeft : Option Nat
  /-- The bytes it sends. -/
  out : List Byte
  /-- Whether the last address byte named it (log 18). -/
  selected : Bool
  deriving DecidableEq, Repr

/-- A move of the reference environment, with the oracle's answers it takes (R150, R153, R154). -/
inductive EnvMove where
  /-- The command in flight completes (R153). -/
  | complete (ack : Bool) (rx : Byte)
  /-- It completes with the simulated target's answers (R157). -/
  | completeByTarget
  /-- Arbitration is lost (R154). -/
  | lose
  /-- The winning master frees the bus, at a moment of its choosing (R154; log 17). -/
  | busRelease
  deriving DecidableEq, Repr

/-- Who moves next, or what arrives from outside (00_scope.md R14; log 1, 3). -/
inductive Move where
  /-- A call's bytes: the machine's instruction fetch takes them. -/
  | call (bytes : List Byte)
  /-- The initiator goes on with its pending operation. -/
  | initiator
  /-- The interrupt context, blocked at `acquire lock`, tries again (R203). -/
  | interrupt
  /-- The host delivers the completion signal, if it is driven (42_commands.md R155, R149 item 8). -/
  | deliver
  /-- The environment moves, outside any register access (R74, R153, R154). -/
  | environment (m : EnvMove)
  deriving DecidableEq, Repr

/-- REFUSE of the reference engine: the run is outside what the simulator gives a meaning (R152). -/
inductive EngineRefusal where
  /-- A command byte outside the seven (R104, R152). -/
  | unknownCommand
  /-- An action command written while another is in flight (R152, U10). -/
  | commandInFlight
  /-- EN cleared while a command is in flight (R163). -/
  | disabledInFlight
  deriving DecidableEq, Repr

/-- Everything behind the register port and the clock (R7, R14, R42). -/
structure Env where
  level : Level
  /-- The oracle's transport bytes still to come (R71); used up, free bytes follow (log 4). -/
  answers : List Byte
  /-- The ticks that pass before each next reading of the clock; used up, a free number (log 7). -/
  elapse : List Nat
  /-- How many free values have been taken (log 24). -/
  draws : Nat
  /-- `now` (R240). -/
  now : Nat
  /-- The reference environment's moves before each next access (R74; log 17). -/
  moves : List (List EnvMove)
  eng : Engine
  target : Option Target
  /-- Every register access so far, oldest first (R13, R123). -/
  trace : List Event
  /-- The reference engine's mark on the run (R152). -/
  refusal : Option EngineRefusal
  deriving DecidableEq, Repr

/-! ### The machine -/

/-- Why a step stops with a fault. -/
inductive Fault where
  /-- Raised by the step when a call's bytes decode to no instruction (30_encoding.md R103: ordinals 14 and 15 are unused;
  R104). Safe: nothing is claimed of such a call. -/
  | undefinedCall (why : Reject)
  deriving DecidableEq, Repr

/-- Why an instruction is given no meaning. Every one is a REFUSE of the spec. Safe: nothing is claimed of such a run. -/
inductive Refusal where
  /-- exec's arm of an instruction that has no meaning yet. -/
  | notModelled (mnemonic : String)
  /-- submit before a successful configure, so always after a failed one (44_adapters.md R200, 41_clock_config.md R134, U17). -/
  | notConfigured
  /-- A configure after the first (70_reset_and_hazards.md R292, R294, U17; log 14). -/
  | secondConfigure
  /-- configure while a transaction is open: mode does not change during one, and a ConfigurationError cannot occur in one
  (10_state.md R34, 60_exceptions.md R261; log 6). -/
  | transactionOpen
  /-- arm or a message instruction after a failed configure, which leaves the block unusable (70_reset_and_hazards.md R292; log
  14). -/
  | unusable
  /-- submit or arm while a transaction is not yet reported, and a message that would arm there (R200, R208, R302). -/
  | submissionActive
  /-- A message fed while a submitted list is the block's (20_memory.md R80, U16). -/
  | listOwned
  /-- The reference engine refuses the run (42_commands.md R152, R163). -/
  | engine (why : EngineRefusal)
  deriving DecidableEq, Repr

/-- The state of the machine. -/
@[ext]
structure State where
  /-- The named parameters (00_scope.md R9). No operation writes them. -/
  params : Params
  /-- DeviceConfig (R40). -/
  dev : DeviceConfig
  /-- Bring-up succeeded (R47). -/
  configured : Bool
  /-- Bring-up failed, and the block is unusable (41_clock_config.md R134, 70_reset_and_hazards.md R292; log 14). -/
  configureFailed : Bool
  /-- The scheduling style (R34). -/
  mode : Mode
  /-- The bound message list; `none` is none bound (R33, R46). -/
  msgs : MsgList
  /-- R29. -/
  cursor : Nat
  /-- R30. -/
  position : Nat
  /-- The source's "State" (R28). -/
  phase : Phase
  /-- R35. -/
  err : Err
  /-- R36. -/
  completion : Bool
  /-- R37. -/
  lock : Lock
  /-- The transaction not yet reported (R200, R208). -/
  claim : Claim
  /-- The initiator's pending work, next first (log 11, 12). -/
  todo : List Frame
  /-- An irq_entry is blocked at `acquire lock` (R42, R203). -/
  irqWaiting : Bool
  /-- What the initiator's last operation returned (R39; log 19). -/
  ret : Ret
  /-- What the last irq_entry returned (R101; log 19). -/
  irqRet : Option IrqResult
  /-- The origin of the interrupt-mode wait (R38); `none`: not live. -/
  t0Irq : Option Nat
  /-- The origin of the polling wait (R38); `none`: not live. -/
  t0Poll : Option Nat
  /-- The origin of the recovery wait (R38); `none`: not live. -/
  t0Recovery : Option Nat
  /-- The moves still to come, next first (log 1, 3). -/
  schedule : List Move
  /-- What lies behind the register port, and the clock. -/
  env : Env
  deriving DecidableEq, Repr

/-- The byte engine before bring-up: the spec gives no value (R46); these are the OpenCores core's, R46's annotation and the
start value of R150 (log 5, PRESUMED). -/
def Engine.reset : Engine where
  prer := 0xFFFF
  ctr := 0
  txr := 0
  rxr := 0
  rxack := false
  busy := false
  al := false
  tip := false
  ifl := false
  inflight := none
  otherMaster := false

/-- The environment at reset: the trusted level, with no input given (log 4, 7, 17, 18). -/
def Env.reset : Env where
  level := .oracle
  answers := []
  elapse := []
  draws := 0
  now := 0
  moves := []
  eng := Engine.reset
  target := none
  trace := []
  refusal := none

/-- DeviceConfig before bring-up: unset in the spec (R46); the defaults of R9, and interrupt mode (log 6). -/
def DeviceConfig.reset : DeviceConfig where
  ipClockKHz := 0
  busClockKHz := 0
  prescale := 0
  registerWidth := .one
  endianness := .little
  baseOffset := 0
  registerShift := 0
  interruptOrPoll := .interrupt

/-- The machine right after reset (R46, R290). -/
def State.reset : State where
  params := Params.default
  dev := DeviceConfig.reset
  configured := false
  configureFailed := false
  mode := .interrupt
  msgs := none
  cursor := 0
  position := 0
  phase := .done
  err := .none
  completion := false
  lock := .free
  claim := .free
  todo := []
  irqWaiting := false
  ret := .nothing
  irqRet := none
  t0Irq := none
  t0Poll := none
  t0Recovery := none
  schedule := []
  env := Env.reset

end Sys2Proof.Machine
end

