-- ==== Sys2Proof/Machine/Operands.lean ====
section
/-! DEFINITION. The operand forms: register offsets and marshalling (20_memory.md R61 to R66), the prescale halves and the
address byte (30_encoding.md R96, R97), and the messages and buffer bytes a step names by cursor and position (R72). -/

namespace Sys2Proof

/-- The number of a register id (R91). -/
def Params.regNum (p : Params) : RegId → Nat
  | .prelow => p.regPrelow
  | .prehigh => p.regPrehigh
  | .control => p.regControl
  | .data => p.regData
  | .cmd => p.regCmd

/-- `prescale[7:0]` (R96). -/
def lowByte (p : Prescale) : Byte := p.extractLsb' 0 8

/-- `prescale[15:8]` (R96). -/
def highByte (p : Prescale) : Byte := p.extractLsb' 8 8

/-- The prescale whose halves are `hi` and `lo` (R96). -/
def joinBytes (hi lo : Byte) : Prescale := hi ++ lo

/-- `AddrByte(m) = {m.addr[6:0], m.rd}` (R97). -/
def addrByte (m : Message) : Byte := BitVec.ofNat 8 (m.addr % 128 * 2 + if m.rd then 1 else 0)

/-- The State a message's bytes move in: `m.rd ? READ : WRITE` (43_sequencer.md R182, R188). -/
def Message.dirPhase (m : Message) : Machine.Phase := if m.rd then .read else .write

/-- `m.cap`: the size of the byte array, 0 when it is absent (10_state.md R33; log 21). -/
def Message.cap (m : Message) : Nat := (m.buf.getD []).length

/-- `m.buf[i] <- b` (R72). A byte outside the buffer does not exist and is not stored (log 16). -/
def Message.storeByte (m : Message) (i : Nat) (b : Byte) : Message := { m with buf := m.buf.map fun l => l.set i b }

/-- `m.buf[i]`, where it exists (R72). -/
def Message.byteAt (m : Message) (i : Nat) : Option Byte := m.buf.bind fun l => l[i]?

namespace Machine

/-- Bytes per access (R63). -/
def Width.bytes : Width → Nat
  | .one => 1
  | .two => 2
  | .four => 4

/-- The widths the block accepts (41_clock_config.md R132). -/
def widthOf : Nat → Option Width
  | 1 => some .one
  | 2 => some .two
  | 4 => some .four
  | _ => none

/-- `RegOffset(id) = baseOffset + (id << registerShift)` on naturals (R61). -/
def regOffset (p : Params) (d : DeviceConfig) (id : RegId) : Nat := d.baseOffset + p.regNum id <<< d.registerShift

/-- A register's byte `v` and the bytes `upper` above it, in the byte order (R64, R65). -/
def place (v : Byte) (upper : List Byte) : Endian → List Byte
  | .little => v :: upper
  | .big => upper ++ [v]

/-- `Marshal(v, w, e)`: the byte zero-extended to the width, in the byte order (R64). -/
def marshal (v : Byte) (w : Width) (e : Endian) : List Byte := place v (List.replicate (w.bytes - 1) 0) e

/-- `Unmarshal(bytes, w, e)`: the low 8 bits of the number the bytes are (R65). -/
def unmarshal (bytes : List Byte) : Endian → Byte
  | .little => bytes.headD 0
  | .big => bytes.getLastD 0

/-- The bound list's messages, none when absent. -/
def State.list (s : State) : List Message := s.msgs.getD []

/-- `msgs[i]`, where it exists. -/
def State.msgAt (s : State) (i : Nat) : Option Message := s.list[i]?

/-- `msgs[cursor]` (R29). -/
def State.current (s : State) : Option Message := s.msgAt s.cursor

/-- `msgs[k].buf[i]`, where it exists (R72): the model's read of one byte of memory. -/
def State.bufByte (s : State) (k i : Nat) : Option Byte := (s.msgAt k).bind fun m => m.byteAt i

/-- Replace the current message. -/
def State.modifyCurrent (s : State) (f : Message → Message) : State :=
  { s with msgs := s.msgs.map fun l => l.modify s.cursor f }

/-- State is DONE or ERROR (00_scope.md R16: a terminal state). -/
def Phase.terminal : Phase → Bool
  | .done => true
  | .error => true
  | .start => false
  | .write => false
  | .read => false

end Machine

end Sys2Proof
end

