-- ==== Sys2Proof/Machine/Flags.lean ====
section
/-! DEFINITION. The bits of CONTROL, COMMAND and STATUS (30_encoding.md R92 to R95): every test and every update a rule
makes of them. Reserved bits: CONTROL's are kept, STATUS's are ignored (R105). -/

namespace Sys2Proof

/-- `b & mask != 0`. -/
def isSet (b mask : Byte) : Bool := b &&& mask != 0

/-! ### COMMAND -/

/-- The byte of a command (R95). -/
def Params.cmdByte (p : Params) : Command → Byte
  | .start => p.cmdStart
  | .write => p.cmdWrite
  | .readAck => p.cmdReadAck
  | .readNack => p.cmdReadNack
  | .stop => p.cmdStop
  | .iack => p.cmdIack
  | .recover => p.cmdRecover

/-- The command whose whole byte this is (R108). -/
def Params.commandOf (p : Params) (b : Byte) : Option Command :=
  [Command.start, .write, .readAck, .readNack, .stop, .iack, .recover].find? fun c => p.cmdByte c == b

/-- STA: a START before the byte (R93, R95). -/
def Command.sta : Command → Bool
  | .start => true
  | .write => false
  | .readAck => false
  | .readNack => false
  | .stop => false
  | .iack => false
  | .recover => false

/-- STO: a STOP after the byte, or at once (R93, R95). -/
def Command.sto : Command → Bool
  | .start => false
  | .write => false
  | .readAck => false
  | .readNack => false
  | .stop => true
  | .iack => false
  | .recover => true

/-- RD: one byte in (R93, R95). -/
def Command.rd : Command → Bool
  | .start => false
  | .write => false
  | .readAck => true
  | .readNack => true
  | .stop => false
  | .iack => false
  | .recover => true

/-- WR: the byte in DATA out (R93, R95). -/
def Command.wr : Command → Bool
  | .start => true
  | .write => true
  | .readAck => false
  | .readNack => false
  | .stop => false
  | .iack => false
  | .recover => false

/-- ACK: with RD, do not acknowledge the byte (R93, R95). -/
def Command.ack : Command → Bool
  | .start => false
  | .write => false
  | .readAck => false
  | .readNack => true
  | .stop => false
  | .iack => false
  | .recover => false

/-- The command starts an action: everything but the bare acknowledge-clear (R152). -/
def Command.action : Command → Bool
  | .start => true
  | .write => true
  | .readAck => true
  | .readNack => true
  | .stop => true
  | .iack => false
  | .recover => true

/-- The byte R93's layout composes for a command: its function bits and IACK, which every command carries (R95). -/
def Command.layoutByte (c : Command) : Byte :=
  (if c.sta then 0x80 else 0) ||| (if c.sto then 0x40 else 0) ||| (if c.rd then 0x20 else 0)
    ||| (if c.wr then 0x10 else 0) ||| (if c.ack then 0x08 else 0) ||| 0x01

/-! ### STATUS -/

/-- AL (R94). -/
def Params.al (p : Params) (stat : Byte) : Bool := isSet stat p.statAl

/-- RXACK set: NACK (R94). -/
def Params.nack (p : Params) (stat : Byte) : Bool := isSet stat p.statRxack

/-- IF: the pending-event flag (R94). -/
def Params.pending (p : Params) (stat : Byte) : Bool := isSet stat p.statIf

/-- The mask a polling wait awaits clear: BUSY once State is terminal, TIP before (44_adapters.md R205). -/
def Params.pollMask (p : Params) (terminal : Bool) : Byte := if terminal then p.statBusy else p.statTip

/-- The status byte of the reference engine, `{rxack, busy, al, 0, 0, 0, tip, ifl}` (42_commands.md R151). -/
def Machine.Engine.status (p : Params) (e : Machine.Engine) : Byte :=
  (if e.rxack then p.statRxack else 0) ||| (if e.busy then p.statBusy else 0) ||| (if e.al then p.statAl else 0)
    ||| (if e.tip then p.statTip else 0) ||| (if e.ifl then p.statIf else 0)

/-! ### CONTROL -/

/-- `ctrl & ~(CTRL_EN | CTRL_IEN)` (41_clock_config.md R133). -/
def Params.disabled (p : Params) (ctrl : Byte) : Byte := ctrl &&& ~~~(p.ctrlEn ||| p.ctrlIen)

/-- `ctrl | CTRL_EN` (R133). -/
def Params.enabled (p : Params) (ctrl : Byte) : Byte := ctrl ||| p.ctrlEn

/-- `ctrl & ~CTRL_IEN` (44_adapters.md R202, 45_recovery.md R233). -/
def Params.masked (p : Params) (ctrl : Byte) : Byte := ctrl &&& ~~~p.ctrlIen

/-- `ctrl | CTRL_IEN` (R202). -/
def Params.unmasked (p : Params) (ctrl : Byte) : Byte := ctrl ||| p.ctrlIen

/-- IEN "per mode": set in interrupt mode, cleared in poll mode (R202). -/
def Params.ctrlForMode (p : Params) (m : Mode) (ctrl : Byte) : Byte :=
  match m with
  | .interrupt => p.unmasked ctrl
  | .poll => p.masked ctrl

end Sys2Proof
end

