-- ==== Sys2Proof/Machine/Engine.lean ====
section
/-! DEFINITION. The environment behind the register port: the oracle (00_scope.md R14), the reference engine (42_commands.md
R150 to R156, R163) with its simulated target (R157), and the clock (46_watchdog.md R240). -/

namespace Sys2Proof.Machine

/-! ### The oracle -/

/-- `draw`: the next byte of the oracle; a free byte when its list is used up (R12, R14; log 4). -/
def Env.drawByte (e : Env) : Byte × Env :=
  match e.answers with
  | b :: r => (b, { e with answers := r })
  | [] => (Config.drawByte e.draws, { e with draws := e.draws + 1 })

/-- `n` bytes of the oracle, the byte at the lowest offset first. -/
def Env.drawBytes : Nat → Env → List Byte × Env
  | 0, e => ([], e)
  | n + 1, e => (e.drawByte.1 :: (Env.drawBytes n e.drawByte.2).1, (Env.drawBytes n e.drawByte.2).2)

/-- A reading of the clock: time passes first, in whole ticks (R240, R246; log 7). -/
def Env.clock (p : Params) (e : Env) : Nat × Env :=
  match e.elapse with
  | d :: r => (e.now + d * p.tick, { e with now := e.now + d * p.tick, elapse := r })
  | [] =>
    (e.now + Config.drawElapsed e.draws * p.tick,
      { e with now := e.now + Config.drawElapsed e.draws * p.tick, draws := e.draws + 1 })

/-! ### The simulated target (R157) -/

/-- `Ack(byte)` of an address byte, the byte after a START: only the target's own two address bytes are acknowledged. -/
def Target.addressed (t : Target) (b : Byte) : Target := { t with selected := b.toNat / 2 == t.addr }

/-- `Ack(byte)` of a data byte: yes, or no from a chosen byte on (R157). A target that is not selected gives none (the model's
choice, log 18). -/
def Target.dataAck (t : Target) : Bool :=
  t.selected && match t.acksLeft with
    | none => true
    | some n => decide (0 < n)

/-- The target has taken one data byte. -/
def Target.takeData (t : Target) : Target :=
  if t.dataAck then { t with acksLeft := t.acksLeft.map (· - 1) } else t

/-- Whether the bus acknowledges the byte `txr` of the command `c`, and the target after it (R157). -/
def targetAck (c : Command) (txr : Byte) : Option Target → Bool × Option Target
  | none => (false, none)
  | some t =>
    if c.sta then ((t.addressed txr).selected, some (t.addressed txr)) else (t.dataAck, some t.takeData)

/-- `RecvByte()`: the successive bytes of a selected target; 0xFF when none is selected (R157), and when its bytes are used
up (log 18). -/
def targetByte : Option Target → Byte × Option Target
  | none => (0xFF, none)
  | some t =>
    if t.selected then
      match t.out with
      | b :: r => (b, some { t with out := r })
      | [] => (0xFF, some t)
    else (0xFF, some t)

/-- A STOP ends the selection (log 18). -/
def targetStop : Option Target → Option Target := Option.map fun t => { t with selected := false }

/-! ### The reference engine -/

/-- The effect of the command `c` on its completion (R153); `ack` and `rx` are the oracle's answers. -/
def Engine.complete (c : Command) (ack : Bool) (rx : Byte) (e : Engine) : Engine :=
  let e1 : Engine :=
    match c with
    | .start => { e with rxack := !ack }
    | .write => { e with rxack := !ack }
    | .readAck => { e with rxr := rx, rxack := false }
    | .readNack => { e with rxr := rx, rxack := true }
    | .stop => { e with busy := false }
    | .iack => e
    | .recover => { e with rxr := rx, rxack := false, busy := false }
  { e1 with tip := false, ifl := true, inflight := none }

/-- Arbitration is lost during the command in flight; the winning master holds the bus (R154). -/
def Engine.lose (e : Engine) : Engine :=
  { e with al := true, tip := false, ifl := true, inflight := none, otherMaster := true }

/-- The winning master frees the bus (R154). -/
def Engine.release (e : Engine) : Engine := if e.otherMaster then { e with busy := false, otherMaster := false } else e

/-- One move of the reference environment; a move that is not enabled changes nothing. A loss of arbitration leaves the
simulated target's selection as it was (the model's choice, log 18). -/
def Env.applyMove (e : Env) : EnvMove → Env
  | .complete ack rx =>
    match e.eng.inflight with
    | some c => { e with eng := e.eng.complete c ack rx }
    | none => e
  | .completeByTarget =>
    match e.eng.inflight with
    | some c =>
      if c.wr then
        { e with eng := e.eng.complete c (targetAck c e.eng.txr e.target).1 0, target := (targetAck c e.eng.txr e.target).2 }
      else if c.rd then
        { e with eng := e.eng.complete c true (targetByte e.target).1,
                 target := if c.sto then targetStop (targetByte e.target).2 else (targetByte e.target).2 }
      else { e with eng := e.eng.complete c true 0, target := targetStop e.target }
    | none => e
  | .lose =>
    match e.eng.inflight with
    | some _ => { e with eng := e.eng.lose }
    | none => e
  | .busRelease => { e with eng := e.eng.release }

/-- The environment moves before a register access, inside a locked region too (20_memory.md R74), at the reference level by the
next batch of its input (log 17). Between the contexts' moves it moves by `Move.environment`. -/
def Env.advance (e : Env) : Env :=
  match e.level with
  | .oracle => e
  | .reference =>
    match e.moves with
    | [] => e
    | batch :: r => batch.foldl Env.applyMove { e with moves := r }

/-- The value a read of a register has in the reference engine (R151). -/
def Engine.read (p : Params) (e : Engine) : RegId → Byte
  | .prelow => lowByte e.prer
  | .prehigh => highByte e.prer
  | .control => e.ctr
  | .data => e.rxr
  | .cmd => e.status p

/-- The reaction of an enabled engine to a command (R152). The rule's bit tests of the byte are taken of
the command's name, whatever its value's bits are (the model's choice, log 31); for the defaults they agree (R108). A START or a
forced read+stop makes BUSY this master's again (log 17). -/
def Engine.accept (p : Params) (c : Command) (e : Engine) : Engine :=
  let e1 : Engine := { e with ifl := false, al := if p.iackClearsAl || c.sta then false else e.al }
  if c.action then
    { e1 with inflight := some c, tip := if c.rd || c.wr then true else e1.tip,
              busy := if c.sta || c == .recover then true else e1.busy,
              otherMaster := if c.sta || c == .recover then false else e1.otherMaster }
  else e1

/-- Mark the run as refused; the first mark stays. -/
def Env.refuse (e : Env) (why : EngineRefusal) : Env :=
  { e with refusal := match e.refusal with
      | some w => some w
      | none => some why }

/-- A write to COMMAND at the reference level (R152, R163). -/
def Env.command (p : Params) (b : Byte) (e : Env) : Env :=
  if isSet e.eng.ctr p.ctrlEn then
    match p.commandOf b with
    | none => e.refuse .unknownCommand
    | some c =>
      if c.action && e.eng.inflight.isSome then e.refuse .commandInFlight
      else { e with eng := e.eng.accept p c }
  else e

/-- A write to CONTROL (R152); the reference engine refuses one that clears EN while a command is in flight (R163). -/
def Env.writeControl (p : Params) (b : Byte) (e : Env) : Env :=
  let e1 : Env := { e with eng := { e.eng with ctr := b } }
  match e.level with
  | .oracle => e1
  | .reference =>
    if e.eng.inflight.isSome && isSet e.eng.ctr p.ctrlEn && !isSet b p.ctrlEn then e1.refuse .disabledInFlight else e1

/-- What the engine does with a byte written to a register (R152; R69: PRELOW, PREHIGH, CONTROL and DATA are plain stores).
At the trusted level a command has no effect but what the oracle answers afterwards (R14). -/
def Env.store (p : Params) (id : RegId) (b : Byte) (e : Env) : Env :=
  match id with
  | .prelow => { e with eng := { e.eng with prer := joinBytes (highByte e.eng.prer) b } }
  | .prehigh => { e with eng := { e.eng with prer := joinBytes b (lowByte e.eng.prer) } }
  | .control => e.writeControl p b
  | .data => { e with eng := { e.eng with txr := b } }
  | .cmd =>
    match e.level with
    | .oracle => e
    | .reference => e.command p b

/-! ### The two transport primitives (20_memory.md R60) -/

/-- `IoRead`: `n` bytes from the register (R60, R71). At the reference level R151 gives the register's byte alone; the bytes above
it in a wider access are free (log 29). -/
def Env.ioRead (p : Params) (d : DeviceConfig) (id : RegId) (e : Env) : List Byte × Env :=
  match e.level with
  | .oracle => Env.drawBytes d.registerWidth.bytes e
  | .reference =>
    let r := Env.drawBytes (d.registerWidth.bytes - 1) e
    (place (e.eng.read p id) r.1 d.endianness, r.2)

/-- Append an access to the history (R123). -/
def Env.record (ev : Event) (e : Env) : Env := { e with trace := e.trace ++ [ev] }

/-- One `getreg` at the port: the environment moves, one transport read, the value (R120). -/
def Env.read (p : Params) (d : DeviceConfig) (id : RegId) (e : Env) : Byte × Env :=
  let r := e.advance.ioRead p d id
  let v := unmarshal r.1 d.endianness
  (v, r.2.record (.read id (regOffset p d id) r.1 v))

/-- One `setreg` at the port: the environment moves, one transport write, the engine's reaction (R121). -/
def Env.write (p : Params) (d : DeviceConfig) (id : RegId) (v : Byte) (e : Env) : Env :=
  (e.advance.record (.write id (regOffset p d id) (marshal v d.registerWidth d.endianness) v)).store p id v

/-- The completion signal is driven (42_commands.md R155; at the trusted level IEN alone is known, R149 item 8; log 23). -/
def Env.signal (p : Params) (e : Env) : Bool :=
  isSet e.eng.ctr p.ctrlIen && match e.level with
    | .oracle => true
    | .reference => e.eng.ifl

end Sys2Proof.Machine
end

