-- ==== Sys2Proof/Machine/Ops.lean ====
section
/-! DEFINITION. The named operations every meaning is written over (00_scope.md R12): register access, the clock, the lock,
buffer bytes, a command, the error entry `fail` (60_exceptions.md R266) and the return from it (R275: only arm leaves a
terminal State). -/

namespace Sys2Proof.Machine

/-- What an operation answers: the new state, unless the reference engine has refused the run (42_commands.md R152). At the
trusted level nothing is refused (R14). -/
def conclude (s s' : State) : Host.Outcome State Fault Refusal :=
  match s.env.level with
  | .oracle => .next s'
  | .reference =>
    match s'.env.refusal with
    | none => .next s'
    | some why => .refused (.engine why)

/-- `getreg(id)`: the value and the state after (40_register_access.md R120). -/
def getreg (id : RegId) (s : State) : Byte × State :=
  ((s.env.read s.params s.dev id).1, { s with env := (s.env.read s.params s.dev id).2 })

/-- `setreg(id, v)` (R121). -/
def setreg (id : RegId) (v : Byte) (s : State) : State := { s with env := s.env.write s.params s.dev id v }

/-- `setreg(REG_CMD, c)` (30_encoding.md R95, R111). -/
def sendCmd (c : Command) (s : State) : State := setreg .cmd (s.params.cmdByte c) s

/-- `now` (R12, 46_watchdog.md R240). -/
def readClock (s : State) : Nat × State := ((s.env.clock s.params).1, { s with env := (s.env.clock s.params).2 })

/-- A byte of `draw` (R12). -/
def drawByte (s : State) : Byte × State := (s.env.drawByte.1, { s with env := s.env.drawByte.2 })

/-- `m.buf[i]` (20_memory.md R72); a byte that does not exist reads as a free byte (log 16). -/
def readBuf (m : Message) (i : Nat) (s : State) : Byte × State :=
  match m.byteAt i with
  | some b => (b, s)
  | none => drawByte s

/-- `release lock` (R76). -/
def release (s : State) : State := { s with lock := .free }

/-- `acquire lock`, of a free lock (R76). -/
def acquire (who : Lock) (s : State) : State := { s with lock := who }

/-- The initiator will go on with `f`. -/
def push (f : Frame) (s : State) : State := { s with todo := f :: s.todo }

/-- The initiator's operation returns `r` to its caller. -/
def State.returns (s : State) (r : Ret) : State := { s with ret := r }

/-- TAKING AN ERROR: `fail(e)`: State <- ERROR, err <- e, one STOP command, completion <- 1 (60_exceptions.md R266). The
return from it is the next arm's (R275). -/
def fail (e : Err) (s : State) : State :=
  { sendCmd .stop { s with phase := .error, err := e } with completion := true }

/-- The error entry of the watchdog: as `fail`, without the completion flag (R266, 46_watchdog.md R244). -/
def failSilently (e : Err) (s : State) : State := sendCmd .stop { s with phase := .error, err := e }

/-- "write first message's address and issue START" (44_adapters.md R202, 43_sequencer.md R187): DATA, then COMMAND
(42_commands.md R148). -/
def sendAddress (m : Message) (s : State) : State := sendCmd .start (setreg .data (addrByte m) s)

/-- A transaction starts on a list, at its first message `m` (44_adapters.md R202): bind it, cursor and position 0, err None,
completion 0, State START, the address byte and START. `nostart` of message 0 is ignored (R106). -/
def begin (m : Message) (rest : List Message) (s : State) : State :=
  sendAddress m
    { s with msgs := some (m :: rest), cursor := 0, position := 0, err := .none, completion := false, phase := .start }

end Sys2Proof.Machine
end

