-- ==== Sys2Proof/Machine/Access.lean ====
section
/-! DEFINITION. Register Access as host operations: `getreg` and `setreg` (40_register_access.md R120 to R123). Neither takes
the lock (R122). -/

namespace Sys2Proof.Machine

/-- `getreg(id) -> value` (R120). -/
def execGetreg (id : RegId) (s : State) : Host.Outcome State Fault Refusal :=
  conclude s ((getreg id s).2.returns (.byte (getreg id s).1))

/-- `setreg(id, value)` (R121). -/
def execSetreg (id : RegId) (value : Byte) (s : State) : Host.Outcome State Fault Refusal :=
  conclude s ((setreg id value s).returns .nothing)

end Sys2Proof.Machine
end

