-- ==== Sys2Proof/Machine/Commands.lean ====
section
/-! DEFINITION. The seven commands (42_commands.md R141 to R147): each is one write of its byte to COMMAND. What the byte
engine then does is the environment's (R149): anything at the trusted level, R152 at the reference level. -/

namespace Sys2Proof.Machine

/-- `CMD_START`: START and the byte in DATA (R141). -/
def execCmdStart (s : State) : Host.Outcome State Fault Refusal := conclude s (sendCmd .start s)

/-- `CMD_WRITE`: the byte in DATA (R142). -/
def execCmdWrite (s : State) : Host.Outcome State Fault Refusal := conclude s (sendCmd .write s)

/-- `CMD_READ_ACK`: one byte in, acknowledged (R143). -/
def execCmdReadAck (s : State) : Host.Outcome State Fault Refusal := conclude s (sendCmd .readAck s)

/-- `CMD_READ_NACK`: one byte in, not acknowledged (R144). -/
def execCmdReadNack (s : State) : Host.Outcome State Fault Refusal := conclude s (sendCmd .readNack s)

/-- `CMD_STOP` (R145). -/
def execCmdStop (s : State) : Host.Outcome State Fault Refusal := conclude s (sendCmd .stop s)

/-- `CMD_IACK`: acknowledge-clear (R146). -/
def execCmdIack (s : State) : Host.Outcome State Fault Refusal := conclude s (sendCmd .iack s)

/-- `CMD_RECOVER`: the forced read and stop (R147). -/
def execCmdRecover (s : State) : Host.Outcome State Fault Refusal := conclude s (sendCmd .recover s)

end Sys2Proof.Machine
end

