-- ==== Sys2Proof/Machine/Configurator.lean ====
section
/-! DEFINITION. The Clock/Prescale Configurator and bring-up (41_clock_config.md R130 to R136). -/

namespace Sys2Proof.Machine

/-- `clamp(x, lo, hi)` on integers (00_scope.md R11). -/
def clamp (x lo hi : Int) : Int := if x < lo then lo else if hi < x then hi else x

/-- `ComputePrescale`: `clamp(floor(ip / (5 * bus)) - 1, 0, 0xFFFF)`, the subtraction on integers (R130). -/
def computePrescale (ip bus : Nat) : Prescale :=
  BitVec.ofNat 16 (clamp (((ip / (5 * bus) : Nat) : Int) - 1) 0 0xFFFF).toNat

/-- The divisor `d = 5 * (prescale + 1)` of the achieved clock (R131, R136). -/
def clockDivisor (p : Prescale) : Nat := 5 * (p.toNat + 1)

/-- `| a - b |`. -/
def distance (a b : Nat) : Nat := ((a : Int) - (b : Int)).natAbs

/-- The tolerance check fails (R131): exactly, or truncating with `CLOCK_CHECK_ARITH` so set. The comparison is strict. -/
def toleranceFails (arith : ClockArith) (ip bus d : Nat) : Bool :=
  match arith with
  | .exact => decide (bus * d < 10 * distance ip (bus * d))
  | .truncating => decide (bus / 10 < distance (ip / d) bus)

/-- Why configure fails before any access, or the width and the prescale it takes (R130 to R132). -/
def configChoice (arith : ClockArith) (cfg : Surface) : Option (Width × Prescale) :=
  match widthOf cfg.registerWidth with
  | none => none
  | some w =>
    if cfg.busClockKHz = 0 then none
    else if toleranceFails arith cfg.ipClockKHz cfg.busClockKHz
        (clockDivisor (computePrescale cfg.ipClockKHz cfg.busClockKHz)) then none
    else some (w, computePrescale cfg.ipClockKHz cfg.busClockKHz)

/-- `DeviceConfig <- cfg with prescale = p` (R40, R133). -/
def deviceConfigOf (cfg : Surface) (w : Width) (p : Prescale) : DeviceConfig :=
  { ipClockKHz := cfg.ipClockKHz, busClockKHz := cfg.busClockKHz, prescale := p, registerWidth := w,
    endianness := cfg.endianness, baseOffset := cfg.baseOffset, registerShift := cfg.registerShift,
    interruptOrPoll := cfg.interruptOrPoll }

/-- The bring-up sequence of a configuration that passes (R133): disable, PRELOW, PREHIGH, acknowledge-clear, enable. -/
def bringUp (cfg : Surface) (w : Width) (p : Prescale) (s : State) : State :=
  let g := getreg .control { s with dev := deviceConfigOf cfg w p, mode := cfg.interruptOrPoll }
  let ctrl := s.params.disabled g.1
  let s1 := setreg .control ctrl g.2
  let s2 := setreg .prelow (lowByte p) s1
  let s3 := setreg .prehigh (highByte p) s2
  let s4 := setreg .control (s.params.enabled ctrl) (sendCmd .iack s3)
  { s4 with configured := true, ret := .configured .none }

/-- `configure(cfg)` (R133). A failing one accesses no register and returns ConfigurationError, which is fatal (R134):
no submit, arm or message runs after it (log 14). A configure
after the first, failed or not, is refused (70_reset_and_hazards.md R292, R294; log 14). One made while a transaction armed or fed
before bring-up is open is refused: mode does not change during a transaction (10_state.md R34), and this error cannot occur in one
(60_exceptions.md R261; log 6). -/
def execConfigure (cfg : Surface) (s : State) : Host.Outcome State Fault Refusal :=
  if s.configured || s.configureFailed then .refused .secondConfigure
  else if s.claim ≠ .free then .refused .transactionOpen
  else
    match configChoice s.params.clockArith cfg with
    | none => .next { s with configureFailed := true, ret := .configured .configuration }
    | some (w, p) => conclude s (bringUp cfg w p s)

end Sys2Proof.Machine
end

