-- ==== Sys2Proof/Machine/Recovery.lean ====
section
/-! DEFINITION. The Bus Recovery Supervisor (45_recovery.md R230): CHECK, MASK, FORCE, WAIT, CLEAR. An answer `(true, s)` says
that recover has returned, `(false, s)` that it is still in WAIT. -/

namespace Sys2Proof.Machine

/-- MASK: in interrupt mode IEN is cleared first (R233). -/
def recoverMask (s : State) : State :=
  match s.mode with
  | .interrupt => setreg .control (s.params.masked (getreg .control s).1) (getreg .control s).2
  | .poll => s

/-- CLEAR: unconditional acknowledge-clear (R236); the wait is over. -/
def recoverClear (s : State) : State := sendCmd .iack { s with t0Recovery := none }

/-- One pass of WAIT: BUSY clear ends it, so does the bound; a timeout is not fatal (R235). Without an origin, which only a nested
recovery wait can have taken, the bound is not reached (the model's choice, log 11). -/
def recoverPass (s : State) : Bool × State :=
  let g := getreg .cmd s
  if isSet g.1 s.params.statBusy then
    let c := readClock g.2
    if s.params.tRecoveryWait < c.1 - s.t0Recovery.getD c.1 then (true, recoverClear c.2) else (false, c.2)
  else (true, recoverClear g.2)

/-- MASK, FORCE, and the first pass of WAIT (R233 to R235). -/
def recoverForce (s : State) : Bool × State :=
  let c := readClock (sendCmd .recover (recoverMask s))
  recoverPass { c.2 with t0Recovery := some c.1 }

/-- `recover()`: CHECK; with AL clear it returns, no register written (R231). -/
def recover (s : State) : Bool × State :=
  let g := getreg .cmd s
  if s.params.al g.1 then recoverForce g.2 else (true, g.2)

/-- The `recoverWait` frame: another pass of WAIT. -/
def resumeRecover (s : State) : State :=
  let r := recoverPass s
  if r.1 then r.2.returns .nothing else push .recoverWait r.2

/-- `recover` as a host operation (R230). -/
def execRecover (s : State) : Host.Outcome State Fault Refusal :=
  let r := recover s
  conclude s (if r.1 then r.2.returns .nothing else push .recoverWait r.2)

end Sys2Proof.Machine
end

