-- ==== Sys2Proof/Machine/Sequencer.lean ====
section
/-! DEFINITION. The Transaction State Machine (43_sequencer.md): `process` as R191 has it, cut at its branches, and `step`. -/

namespace Sys2Proof.Machine

/-- Issue a read for byte `position` of the current message: read-nack for the last byte of a message, unless it is byte 0 of
a length-prefixed one (R189). `position = len - 1` is on integers. -/
def issueRead (m : Message) (s : State) : State :=
  if s.position + 1 = m.len ∧ ¬(m.recvlen = true ∧ s.position = 0) then sendCmd .readNack s else sendCmd .readAck s

/-- Write the next output byte and issue a WRITE command (R190). -/
def issueWrite (m : Message) (s : State) : State :=
  let r := readBuf m s.position s
  sendCmd .write { setreg .data r.1 r.2 with position := s.position + 1 }

/-- The last block of R191: by State (R189, R190). -/
def issue (m : Message) (s : State) : State :=
  if s.phase = .read then issueRead m s else issueWrite m s

/-- The step has advanced the cursor: the queue is exhausted (R186), the next message needs a START (R187), or it continues
without one and the same step goes on (R188). -/
def nextMessage (s : State) : State :=
  match s.current with
  | none => { sendCmd .stop { s with phase := .done } with completion := true }
  | some m =>
    if m.nostart then issue m { s with phase := m.dirPhase } else sendAddress m { s with phase := .start }

/-- The tail of a step: at the end of the message the cursor advances (R185), else the next byte is commanded. -/
def stepTail (s : State) : State :=
  match s.current with
  | none => s
  | some m =>
    if s.position = m.len then nextMessage { s with cursor := s.cursor + 1, position := 0 } else issue m s

/-- State START or WRITE: was the previous address or data byte acknowledged (R182)? -/
def acknowledge (m : Message) (stat : Byte) (s : State) : State :=
  if s.params.nack stat then fail .nack s else stepTail { s with phase := m.dirPhase }

/-- State READ, the byte read from DATA is `b`: store it, advance position (R183), and extend the length by byte 0 of a
length-prefixed message, if it is in [1,32] (R184). -/
def receive (m : Message) (b : Byte) (s : State) : State :=
  let s1 : State := { s.modifyCurrent (·.storeByte s.position b) with position := s.position + 1 }
  if m.recvlen ∧ s.position = 0 then
    if b.toNat < 1 ∨ Config.blockMax < b.toNat then fail .blockLength s1
    else stepTail (s1.modifyCurrent fun m => { m with len := m.len + b.toNat })
  else stepTail s1

/-- A step whose State is not terminal (R180 to R184). -/
def event (stat : Byte) (s : State) : State :=
  if s.params.al stat then fail .arbitration s
  else
    match s.current with
    | none => fail .parameter s
    | some m =>
      if m.buf = none then fail .parameter s
      else if s.phase = .read then receive m (getreg .data s).1 (getreg .data s).2
      else acknowledge m stat s

/-- `process(stat)` (R191). The terminal branch (R179) serves the STOP's own completion and any stray event. -/
def process (stat : Byte) (s : State) : StepMark × State :=
  if s.phase.terminal then (.terminal, { sendCmd .iack s with completion := true })
  else (.goesOn, event stat s)

/-- `step()` (the sequencer's; `Machine.step` is the machine's): one STATUS read, then `process` (R178, R191). -/
def seqStep (s : State) : StepMark × State := process (getreg .cmd s).1 (getreg .cmd s).2

end Sys2Proof.Machine
end

