-- ==== Sys2Proof/Machine/Watchdog.lean ====
section
/-! DEFINITION. The Timeout Watchdog (46_watchdog.md R244) and the expiry of a polling wait with State terminal
(44_adapters.md R216). -/

namespace Sys2Proof.Machine

/-- What watchdog_abort does under the lock: State is tested again; if it is not terminal, ERROR, TimeoutError and one STOP
(R244). -/
def abortLocked (s : State) : State := if s.phase.terminal then s else failSilently .timeout s

/-- `watchdog_abort()` (R244): it waits for the lock where it is held. -/
def watchdogAbort (s : State) : State :=
  if s.lock = .free then (release (abortLocked (acquire .initiator s))).returns .nothing else push .abort s

/-- What terminal_wait_expired does under the lock: a DONE that never went idle becomes a TimeoutError; the first error class
is kept (R216). No register is written. -/
def expireLocked (s : State) : State := if s.err = .none then { s with phase := .error, err := .timeout } else s

/-- `terminal_wait_expired()` (R216). -/
def terminalWaitExpired (s : State) : State :=
  if s.lock = .free then (release (expireLocked (acquire .initiator s))).returns .nothing else push .terminalExpired s

/-- `watchdog_abort` as a host operation: the pseudocode of R244, whether or not a deadline has elapsed (the model's choice,
log 30). -/
def execWatchdogAbort (s : State) : Host.Outcome State Fault Refusal := conclude s (watchdogAbort s)

end Sys2Proof.Machine
end

