-- ==== Sys2Proof/Machine/Adapters.lean ====
section
/-! DEFINITION. Submission, arm and the two Scheduling Adapters (44_adapters.md R200 to R217). An operation that waits goes as
far as one pass of its wait and leaves a frame; the initiator's next move goes on there (log 11, 12). -/

namespace Sys2Proof.Machine

/-! ### validate and arm -/

/-- `validate(msgs)` fails (R201), condition by condition as the rule lists them. -/
def validateFails : MsgList → Bool
  | none => true
  | some l =>
    l.isEmpty
      || l.any (fun m => m.buf.isNone)
      || l.any (fun m => decide (0x7F < m.addr))
      || l.any (fun m => decide (m.cap < m.len))
      || l.any (fun m => m.recvlen && m.rd && decide (m.cap < m.len + Config.blockMax))
      || l.tail.any (fun m => m.nostart && decide (m.len = 0))

/-- arm after recover has returned (R202): IEN per mode by read-modify-write, the start of the transaction, release. A list
with no first message starts nothing; only validated lists come here (log 10). -/
def armTail (owner : Claim) (msgs : MsgList) (s : State) : State :=
  let g := getreg .control s
  let s1 := setreg .control (s.params.ctrlForMode s.mode g.1) g.2
  match msgs with
  | some (m :: rest) => (release (begin m rest { s1 with claim := owner })).returns .nothing
  | some [] => (release s1).returns .nothing
  | none => (release s1).returns .nothing

/-- `arm(msgs)` (R202): it waits for the lock where it is held; recovery may leave it in its bounded wait. -/
def arm (owner : Claim) (msgs : MsgList) (s : State) : State :=
  if s.lock = .free then
    let r := recover (acquire .initiator s)
    if r.1 then armTail owner msgs r.2 else push .recoverWait (push (.armTail owner msgs) r.2)
  else push (.armStart owner msgs) s

/-- A transaction is claimed and armed. -/
def startTransaction (owner : Claim) (msgs : MsgList) (s : State) : State := arm owner msgs { s with claim := owner }

/-! ### The interrupt-driven adapter -/

/-- irq_entry with the lock free (R203): one locked region. -/
def irqLocked (s : State) : State :=
  let g := getreg .cmd (acquire .interrupt s)
  if s.params.pending g.1 then { release (process g.1 g.2).2 with irqRet := some .handled }
  else { release g.2 with irqRet := some .notMine }

/-- `irq_entry()` (R203): it waits for the lock where it is held; one delivery waits at a time (R212). One that finds the lock free
while another is blocked runs first, and both run (the model's choice, log 12). -/
def irqEntry (s : State) : State := if s.lock = .free then irqLocked s else { s with irqWaiting := true }

/-- The interrupt context tries its `acquire lock` again. -/
def resumeIrq (s : State) : State :=
  if s.irqWaiting = true ∧ s.lock = .free then irqLocked { s with irqWaiting := false } else s

/-- One look of the suspended initiator (R204): a terminal State wins, then the bound `now - t0 >= T_IRQ_WAIT`. Without an origin,
which only a nested wait of this kind can have taken, the bound is not reached (the model's choice, log 11). -/
def suspendedLook (s : State) : State :=
  if s.phase.terminal then { s with t0Irq := none, ret := .nothing }
  else
    let c := readClock s
    if s.params.tIrqWait ≤ c.1 - s.t0Irq.getD c.1 then push .abort { c.2 with t0Irq := none } else push .suspended c.2

/-- `wait_irq()` (R204). -/
def waitIrq (s : State) : State :=
  let c := readClock s
  suspendedLook { c.2 with t0Irq := some c.1 }

/-! ### The polling adapter -/

/-- poll_loop's locked step (R205); the loop ends after the step that found State terminal. -/
def pollStep (s : State) : State :=
  if s.lock = .free then
    let r := seqStep (acquire .initiator s)
    match r.1 with
    | .terminal => (release r.2).returns .nothing
    | .goesOn => push .pollTop (release r.2)
  else push .pollStep s

/-- A poll_wait has ended with the answer `ok` (R205, R206). -/
def waitEnds (ok : Bool) (k : PollFor) (s : State) : State :=
  let s1 : State := { s with t0Poll := none }
  match k with
  | .alone => s1.returns (.waited ok)
  | .loop terminal =>
    if ok then pollStep s1 else if terminal then push .terminalExpired s1 else push .abort s1

/-- One pass of poll_wait (R206): STATUS first, the bound after it. Without an origin, which only a nested wait of this kind can
have taken, the bound is not reached (the model's choice, log 11). -/
def pollPass (mask : Byte) (t : Nat) (k : PollFor) (s : State) : State :=
  let g := getreg .cmd s
  if isSet g.1 mask then
    let c := readClock g.2
    if t < c.1 - s.t0Poll.getD c.1 then waitEnds false k c.2 else push (.pollWaiting mask t k) c.2
  else waitEnds true k g.2

/-- `poll_wait(mask, T)` (R206). -/
def pollWait (mask : Byte) (t : Nat) (k : PollFor) (s : State) : State :=
  let c := readClock s
  pollPass mask t k { c.2 with t0Poll := some c.1 }

/-- The top of poll_loop (R205): TIP while State is not terminal, BUSY once it is. -/
def pollLoop (s : State) : State :=
  pollWait (s.params.pollMask s.phase.terminal) s.params.tPollWait (.loop s.phase.terminal) s

/-! ### submit and report -/

/-- submit after arm: wait_irq or poll_loop, by mode (R200). -/
def launch (s : State) : State :=
  match s.mode with
  | .interrupt => waitIrq s
  | .poll => pollLoop s

/-- The frame belongs to a submit, or to an arm, that has not returned: its transaction stays claimed (R208). -/
def Frame.unreturned : Frame → Bool
  | .report => true
  | .armStart _ _ => true
  | .armTail _ _ => true
  | .recoverWait => false
  | .launch => false
  | .suspended => false
  | .abort => false
  | .pollTop => false
  | .pollWaiting _ _ _ => false
  | .pollStep => false
  | .terminalExpired => false

/-- A submit or an arm of this instance has not returned (R208). -/
def State.unreturned (s : State) : Bool := s.todo.any Frame.unreturned

/-- `report()` (R207). A terminal result ends the transaction: the binding to the list is discarded (10_state.md R45), the
registers keep their values, a new submit is accepted (log 15). A direct report made while a submit or an arm has not returned
answers only: that transaction stays open until its own report (R208; that the call answers at all is the model's choice, log
15). -/
def report (s : State) : State :=
  let r : Ret := if s.phase = .done ∧ s.err = .none then .result s.msgs .none else .result none s.err
  if s.phase.terminal && !s.unreturned then { s with ret := r, msgs := none, claim := .free } else s.returns r

/-! ### The host operations -/

/-- `submit(messages)` (R200). It returns with the `report` frame; what arm leaves is the state after this step. While another
submit has not returned `claim` is not free (`Inv.claimHeld`), so it is refused (R208). -/
def execSubmit (msgs : MsgList) (s : State) : Host.Outcome State Fault Refusal :=
  if s.configured && !s.configureFailed then
    if s.claim = .free then
      if validateFails msgs then .next (s.returns (.result none .parameter))
      else conclude s (startTransaction .submission msgs (push .launch (push .report s)))
    else .refused .submissionActive
  else .refused .notConfigured

/-- `validate(msgs)` (R201): no register access, no state but the answer. -/
def execValidate (msgs : MsgList) (s : State) : Host.Outcome State Fault Refusal :=
  .next (s.returns (.valid (!validateFails msgs)))

/-- `arm(msgs)` as a host operation (R202). A malformed list is rejected before arming (R201; log 10); a transaction not yet
reported excludes another (R208); after a failed configure the block is unusable (70_reset_and_hazards.md R292; log 14). -/
def execArm (msgs : MsgList) (s : State) : Host.Outcome State Fault Refusal :=
  if s.configureFailed then .refused .unusable
  else if s.claim = .free then
    if validateFails msgs then .next (s.returns (.result none .parameter))
    else conclude s (startTransaction .submission msgs s)
  else .refused .submissionActive

/-- `step()` as a host operation (R191); its caller holds the lock (20_memory.md R77). -/
def execStep (s : State) : Host.Outcome State Fault Refusal :=
  conclude s ((seqStep s).2.returns (.mark (seqStep s).1))

/-- `irq_entry()` (R203), in poll mode too (the model's choice, log 13). -/
def execIrqEntry (s : State) : Host.Outcome State Fault Refusal := conclude s (irqEntry s)

/-- `wait_irq()` (R204), in poll mode too (the model's choice, log 13). -/
def execWaitIrq (s : State) : Host.Outcome State Fault Refusal := conclude s (waitIrq s)

/-- `poll_loop()` (R205), in interrupt mode too (the model's choice, log 13). -/
def execPollLoop (s : State) : Host.Outcome State Fault Refusal := conclude s (pollLoop s)

/-- `poll_wait(mask, T)` (R206). -/
def execPollWait (mask : Byte) (t : Nat) (s : State) : Host.Outcome State Fault Refusal :=
  conclude s (pollWait mask t .alone s)

/-- `report()` (R207). -/
def execReport (s : State) : Host.Outcome State Fault Refusal := .next (report s)

end Sys2Proof.Machine
end

