-- ==== Sys2Proof/Machine/Messages.lean ====
section
/-! DEFINITION. The message instructions (43_sequencer.md R170 to R176): a program fed to the sequencer message by message
(log 9). A terminal State is left only by arm (60_exceptions.md R275): there the message is message 0, and the program is armed
(R171; `nostart` is then ignored, R106). With a transaction under way the message follows those already there, in order
(R170), and the sequencer takes one protocol event: it is entered where that event ends the one before it (R187, R188). Every
later event is a `step`. -/

namespace Sys2Proof.Machine

/-- The message cannot stand where it would: R201's conditions for message 0, and for a later message. -/
def messageFails (later : Bool) (m : Message) : Bool :=
  validateFails (some [m]) || (later && m.nostart && decide (m.len = 0))

/-- The message is appended to the program, and one event is taken. -/
def feedMessage (m : Message) (s : State) : StepMark × State :=
  seqStep { s with msgs := some (s.list ++ [m]), claim := .program }

/-- A message instruction. A submitted list is the block's until its report (20_memory.md R80); a transaction that has ended must
be reported before another is armed (44_adapters.md R208). After a failed configure the block is unusable
(70_reset_and_hazards.md R292; log 14). -/
def runMessage (m : Message) (s : State) : Host.Outcome State Fault Refusal :=
  if s.configureFailed then .refused .unusable
  else if s.claim = .submission then .refused .listOwned
  else if s.phase.terminal ∧ s.claim ≠ .free then .refused .submissionActive
  else if messageFails (!s.phase.terminal) m then .next (s.returns (.result none .parameter))
  else if s.phase.terminal then conclude s (startTransaction .program (some [m]) s)
  else conclude s ((feedMessage m s).2.returns (.mark (feedMessage m s).1))

/-- `MSG_WRITE` (R171), kinds 000 and 100: the recvlen bit is ignored (R106). -/
def execMsgWrite (l : Bool) (o : MsgOperands) (s : State) : Host.Outcome State Fault Refusal :=
  runMessage { addr := o.addr, rd := false, nostart := false, recvlen := l, len := o.len, buf := o.buf } s

/-- `MSG_READ` (R172). -/
def execMsgRead (o : MsgOperands) (s : State) : Host.Outcome State Fault Refusal :=
  runMessage { addr := o.addr, rd := true, nostart := false, recvlen := false, len := o.len, buf := o.buf } s

/-- `MSG_READ_RECVLEN` (R173). -/
def execMsgReadRecvlen (o : MsgOperands) (s : State) : Host.Outcome State Fault Refusal :=
  runMessage { addr := o.addr, rd := true, nostart := false, recvlen := true, len := o.len, buf := o.buf } s

/-- `MSG_WRITE_NOSTART` (R174), kinds 010 and 110. -/
def execMsgWriteNostart (l : Bool) (o : MsgOperands) (s : State) : Host.Outcome State Fault Refusal :=
  runMessage { addr := o.addr, rd := false, nostart := true, recvlen := l, len := o.len, buf := o.buf } s

/-- `MSG_READ_NOSTART` (R175). -/
def execMsgReadNostart (o : MsgOperands) (s : State) : Host.Outcome State Fault Refusal :=
  runMessage { addr := o.addr, rd := true, nostart := true, recvlen := false, len := o.len, buf := o.buf } s

/-- `MSG_READ_RECVLEN_NOSTART` (R176). -/
def execMsgReadRecvlenNostart (o : MsgOperands) (s : State) : Host.Outcome State Fault Refusal :=
  runMessage { addr := o.addr, rd := true, nostart := true, recvlen := true, len := o.len, buf := o.buf } s

end Sys2Proof.Machine
end

