-- ==== Sys2Proof/Machine/Scheduler.lean ====
section
/-! DEFINITION. Who moves next (44_adapters.md R211, 60_exceptions.md R274; log 3): the initiator going on inside an
operation that has not returned, the interrupt context blocked on the lock, the delivery of the completion signal. -/

namespace Sys2Proof.Machine

/-- The initiator goes on at a frame that has been taken off `todo`. -/
def resumeFrame (f : Frame) (s : State) : State :=
  match f with
  | .armStart owner msgs => arm owner msgs s
  | .recoverWait => resumeRecover s
  | .armTail owner msgs => armTail owner msgs s
  | .launch => launch s
  | .suspended => suspendedLook s
  | .abort => watchdogAbort s
  | .pollTop => pollLoop s
  | .pollWaiting mask t k => pollPass mask t k s
  | .pollStep => pollStep s
  | .terminalExpired => terminalWaitExpired s
  | .report => report s

/-- The initiator's move: its next frame, or nothing to do. -/
def resumeInitiator (s : State) : State :=
  match s.todo with
  | [] => s
  | f :: rest => resumeFrame f { s with todo := rest }

/-- The environment moves at a moment of its own (20_memory.md R74; 42_commands.md R153, R154). The oracle has no state to move
(00_scope.md R14). -/
def environment (m : EnvMove) (s : State) : State :=
  match s.env.level with
  | .oracle => s
  | .reference => { s with env := s.env.applyMove m }

/-- The host delivers the completion signal, if it is driven: one irq_entry (42_commands.md R155, 44_adapters.md R212; while one is
blocked, log 12). -/
def deliver (s : State) : State := if s.env.signal s.params then irqEntry s else s

/-- With no move scheduled the initiator goes on; with nothing pending there, the blocked interrupt context (log 3). -/
def idleMove (s : State) : State :=
  match s.todo with
  | [] => resumeIrq s
  | f :: rest => resumeFrame f { s with todo := rest }

end Sys2Proof.Machine
end

