-- ==== Sys2Proof/Machine/Dispatch.lean ====
section
/-! DEFINITION. One arm per constructor of Instr: each calls its instruction's own meaning. -/

namespace Sys2Proof.Machine

def exec (i : Instr) (s : State) : Host.Outcome State Fault Refusal :=
  match i with
  | .cmdStart => Sys2Proof.Machine.execCmdStart s
  | .cmdWrite => Sys2Proof.Machine.execCmdWrite s
  | .cmdReadAck => Sys2Proof.Machine.execCmdReadAck s
  | .cmdReadNack => Sys2Proof.Machine.execCmdReadNack s
  | .cmdStop => Sys2Proof.Machine.execCmdStop s
  | .cmdIack => Sys2Proof.Machine.execCmdIack s
  | .cmdRecover => Sys2Proof.Machine.execCmdRecover s
  | .msgWrite l o => Sys2Proof.Machine.execMsgWrite l o s
  | .msgRead o => Sys2Proof.Machine.execMsgRead o s
  | .msgReadRecvlen o => Sys2Proof.Machine.execMsgReadRecvlen o s
  | .msgWriteNostart l o => Sys2Proof.Machine.execMsgWriteNostart l o s
  | .msgReadNostart o => Sys2Proof.Machine.execMsgReadNostart o s
  | .msgReadRecvlenNostart o => Sys2Proof.Machine.execMsgReadRecvlenNostart o s
  | .configure cfg => Sys2Proof.Machine.execConfigure cfg s
  | .submit msgs => Sys2Proof.Machine.execSubmit msgs s
  | .validate msgs => Sys2Proof.Machine.execValidate msgs s
  | .arm msgs => Sys2Proof.Machine.execArm msgs s
  | .recover => Sys2Proof.Machine.execRecover s
  | .step => Sys2Proof.Machine.execStep s
  | .irqEntry => Sys2Proof.Machine.execIrqEntry s
  | .waitIrq => Sys2Proof.Machine.execWaitIrq s
  | .pollLoop => Sys2Proof.Machine.execPollLoop s
  | .pollWait mask t => Sys2Proof.Machine.execPollWait mask t s
  | .watchdogAbort => Sys2Proof.Machine.execWatchdogAbort s
  | .report => Sys2Proof.Machine.execReport s
  | .getreg id => Sys2Proof.Machine.execGetreg id s
  | .setreg id value => Sys2Proof.Machine.execSetreg id value s

end Sys2Proof.Machine
end

