-- ==== Sys2Proof/Machine/Step.lean ====
section
/-! DEFINITION. One step of the machine: the next move of the schedule, a call being fetched, decoded and executed (log 1). -/

namespace Sys2Proof.Machine

/-- A call's bytes arrive: the instruction they decode to is executed. -/
def runCall (bytes : List Byte) (s : State) : Host.Outcome State Fault Refusal :=
  match decode bytes with
  | .ok (i, _) => exec i s
  | .error why => .fault (.undefinedCall why)

/-- One step. -/
def step (s : State) : Host.Outcome State Fault Refusal :=
  match s.schedule with
  | [] => conclude s (idleMove s)
  | .call bytes :: rest => runCall bytes { s with schedule := rest }
  | .initiator :: rest => conclude s (resumeInitiator { s with schedule := rest })
  | .interrupt :: rest => conclude s (resumeIrq { s with schedule := rest })
  | .deliver :: rest => conclude s (deliver { s with schedule := rest })
  | .environment m :: rest => conclude s (environment m { s with schedule := rest })

/-- The word of an opcode-table row, its operands zero, as the next call (log 1, 2). -/
def State.withFetchWord (s : State) (nbits w : Nat) : State :=
  { s with schedule := .call (tableBytes nbits w) :: s.schedule }

end Sys2Proof.Machine
end

