-- ==== Sys2Proof/WellFormed.lean ====
section
/-! DEFINITION. Which instructions have operands of the legal values the spec gives them, and which parameter sets are
instantiations the spec allows. The machine gives ill-formed operands a meaning too (a ParameterError, a
ConfigurationError); these checks say what a well-behaved host writes. -/

namespace Sys2Proof

/-- The capacity of a buffer: its number of bytes, 0 when absent (10_state.md R33; log 21). -/
def capOf : Option (List Byte) → Nat
  | some b => b.length
  | none => 0

/-- A message is legal at a place of a list (44_adapters.md R201's conditions, stated positively; `later` says that it
is not the first of its list). -/
def Message.legal (later : Bool) (m : Message) : Bool :=
  m.buf.isSome && decide (m.addr ≤ 0x7F) && decide (m.len ≤ capOf m.buf)
    && (!(m.recvlen && m.rd) || decide (m.len + Config.blockMax ≤ capOf m.buf))
    && (!(later && m.nostart) || decide (m.len ≠ 0))

/-- A list is legal: bound, not empty, and every message legal at its place (R201). -/
def listLegal : MsgList → Bool
  | some (m :: rest) => m.legal false && rest.all (Message.legal true)
  | _ => false

/-- The operands of a message instruction are those of a legal message of its kind. The no-start kinds need one byte
(R174, R175, R176: "`len >= 1`"). -/
def MsgOperands.legal (recvlen nostart : Bool) (o : MsgOperands) : Bool :=
  o.buf.isSome && decide (o.addr ≤ 0x7F) && decide (o.len ≤ capOf o.buf)
    && (!recvlen || decide (o.len + Config.blockMax ≤ capOf o.buf))
    && (!nostart || decide (o.len ≠ 0))

/-- The configuration surface's legal values (00_scope.md R9). -/
def Surface.legal (c : Surface) : Bool :=
  decide (c.busClockKHz ≠ 0)
    && (decide (c.registerWidth = 1) || decide (c.registerWidth = 2) || decide (c.registerWidth = 4))

/-- The operands of an instruction have legal values. -/
def Instr.wf : Instr → Bool
  | .cmdStart => true
  | .cmdWrite => true
  | .cmdReadAck => true
  | .cmdReadNack => true
  | .cmdStop => true
  | .cmdIack => true
  | .cmdRecover => true
  | .msgWrite _ o => o.legal false false
  | .msgRead o => o.legal false false
  | .msgReadRecvlen o => o.legal true false
  | .msgWriteNostart _ o => o.legal false true
  | .msgReadNostart o => o.legal false true
  | .msgReadRecvlenNostart o => o.legal true true
  | .configure cfg => cfg.legal
  | .submit _ => true
  | .validate _ => true
  | .arm msgs => listLegal msgs
  | .recover => true
  | .step => true
  | .irqEntry => true
  | .waitIrq => true
  | .pollLoop => true
  | .pollWait mask t => decide (mask ≠ 0) && decide (0 < t)
  | .watchdogAbort => true
  | .report => true
  | .getreg _ => true
  | .setreg _ _ => true

/-- A mask of exactly one bit (D2). -/
def oneBit (m : Byte) : Bool :=
  (List.range 8).any fun i => m == (1#8 <<< i)

/-- What any instantiation of the parameters must satisfy: five distinct ids (D1), distinct one-bit masks in one register
(D2), seven distinct command values (D3), positive durations (R9). -/
def Params.legal (p : Params) : Bool :=
  decide ([p.regPrelow, p.regPrehigh, p.regControl, p.regData, p.regCmd].Nodup)
    && [p.ctrlEn, p.ctrlIen].all oneBit && decide ([p.ctrlEn, p.ctrlIen].Nodup)
    && [p.statRxack, p.statBusy, p.statAl, p.statTip, p.statIf].all oneBit
    && decide ([p.statRxack, p.statBusy, p.statAl, p.statTip, p.statIf].Nodup)
    && decide ([p.cmdStart, p.cmdWrite, p.cmdReadAck, p.cmdReadNack, p.cmdStop, p.cmdIack, p.cmdRecover].Nodup)
    && decide (0 < p.tIrqWait) && decide (0 < p.tPollWait) && decide (0 < p.tRecoveryWait) && decide (0 < p.tick)

/-- No message of the list is longer than `LEN_MAX` (R9, D35). No rule of the block tests it: it says what a host submits. -/
def Params.admits (p : Params) (msgs : MsgList) : Bool :=
  match p.lenMax with
  | none => true
  | some n => (msgs.getD []).all fun m => decide (m.len ≤ n)

end Sys2Proof
end

