-- ==== Sys2Proof/Safety.lean ====
section
/-! DEFINITION. What claims are stated in: the run an outcome is given for, the events of the access history, the machine's
invariant, and the launch premise CleanEntry (70_reset_and_hazards.md R304). -/

namespace Sys2Proof

open Machine

/-- The run has a meaning: the trusted level, or a reference engine that has not refused it (42_commands.md R152). -/
def Accepted (s t : State) : Prop := s.env.level = .oracle ∨ t.env.refusal = none

/-! ### Events -/

/-- The event of `W reg v` in a state's configuration (00_scope.md R13). -/
def wEvent (s : State) (id : RegId) (v : Byte) : Event :=
  .write id (regOffset s.params s.dev id) (marshal v s.dev.registerWidth s.dev.endianness) v

/-- The event of `W CMD c`. -/
def cEvent (s : State) (c : Command) : Event := wEvent s .cmd (s.params.cmdByte c)

/-- The events of "address + START" (30_encoding.md R111). -/
def addressEvents (s : State) (m : Message) : List Event := [wEvent s .data (addrByte m), cEvent s .start]

/-- `R reg -> v` in a state's configuration: one transport call of the configured width whose bytes read as `v`, whatever
those bytes are (R13, 40_register_access.md R120). -/
def Machine.Event.readOf (s : State) (id : RegId) (v : Byte) (ev : Event) : Prop :=
  ∃ bytes, ev = .read id (regOffset s.params s.dev id) bytes v ∧ bytes.length = s.dev.registerWidth.bytes
    ∧ unmarshal bytes s.dev.endianness = v

/-- A read of the register. -/
def Machine.Event.reads (id : RegId) : Event → Bool
  | .read i _ _ _ => i == id
  | .write _ _ _ _ => false

/-- A write to the register. -/
def Machine.Event.writes (id : RegId) : Event → Bool
  | .read _ _ _ _ => false
  | .write i _ _ _ => i == id

/-- The id and value of a write, as the trace line `W reg v` has them. -/
def Machine.Event.written : Event → Option (RegId × Byte)
  | .read _ _ _ _ => none
  | .write i _ _ v => some (i, v)

/-- The accesses made between `s` and a later `t`. -/
def eventsSince (s t : State) : List Event := t.env.trace.drop s.env.trace.length

/-- The writes made between `s` and `t`, as trace lines `W reg v`. -/
def writesSince (s t : State) : List (RegId × Byte) := (eventsSince s t).filterMap Event.written

/-- The transport's answers in which the registers read, in order, as `vs` (20_memory.md R64, R65). -/
def answersOf (d : DeviceConfig) (vs : List Byte) : List Byte :=
  (vs.map fun v => marshal v d.registerWidth d.endianness).flatten

/-- The unsigned number that bytes are in a byte order (R64, R65). -/
def numberOf : Endian → List Byte → Nat
  | .little, bytes => bytes.foldr (fun b n => b.toNat + 256 * n) 0
  | .big, bytes => bytes.foldl (fun n b => 256 * n + b.toNat) 0

/-- What an access leaves in the registers that are plain stores (R69); a command stores nothing (R70). -/
def Machine.Engine.stored (e : Engine) : Event → Engine
  | .read _ _ _ _ => e
  | .write .prelow _ _ v => { e with prer := joinBytes (highByte e.prer) v }
  | .write .prehigh _ _ v => { e with prer := joinBytes v (lowByte e.prer) }
  | .write .control _ _ v => { e with ctr := v }
  | .write .data _ _ v => { e with txr := v }
  | .write .cmd _ _ _ => e

/-- From `s` to `t` exactly the accesses `evs` were made, in that order, and nothing else happened behind the register port
of the trusted level: no time passed, the registers hold what the writes stored, only oracle answers were used up. -/
def Accessed (s t : State) (evs : List Event) : Prop :=
  t.env = { s.env with answers := t.env.answers, draws := t.env.draws, trace := s.env.trace ++ evs,
                       eng := evs.foldl Engine.stored s.env.eng }

/-- As `Accessed`, with time passing as well (46_watchdog.md R240). -/
def AccessedInTime (s t : State) (evs : List Event) : Prop :=
  s.env.now ≤ t.env.now ∧
    t.env = { s.env with answers := t.env.answers, draws := t.env.draws, trace := s.env.trace ++ evs,
                         eng := evs.foldl Engine.stored s.env.eng, elapse := t.env.elapse, now := t.env.now }

/-! ### Whose move it is -/

/-- The next move is the initiator's, and `rest` stays of the schedule (44_adapters.md R211; log 3). -/
def InitiatorTurn (s : State) (rest : List Move) : Prop :=
  s.schedule = [] ∧ rest = [] ∨ s.schedule = .initiator :: rest

/-! ### Steps of the sequencer -/

/-- The call of a command (30_encoding.md R95). -/
def Command.instr : Command → Instr
  | .start => .cmdStart
  | .write => .cmdWrite
  | .readAck => .cmdReadAck
  | .readNack => .cmdReadNack
  | .stop => .cmdStop
  | .iack => .cmdIack
  | .recover => .cmdRecover

/-- The message instruction of a message (R99). -/
def Message.instr (m : Message) : Instr :=
  match m.rd, m.nostart, m.recvlen with
  | false, false, l => .msgWrite l { addr := m.addr, len := m.len, buf := m.buf }
  | false, true, l => .msgWriteNostart l { addr := m.addr, len := m.len, buf := m.buf }
  | true, false, false => .msgRead { addr := m.addr, len := m.len, buf := m.buf }
  | true, false, true => .msgReadRecvlen { addr := m.addr, len := m.len, buf := m.buf }
  | true, true, false => .msgReadNostart { addr := m.addr, len := m.len, buf := m.buf }
  | true, true, true => .msgReadRecvlenNostart { addr := m.addr, len := m.len, buf := m.buf }

/-- The STATUS byte that a step reads. -/
def statusRead (s : State) : Byte := (getreg .cmd s).1

/-- The DATA byte that a step in State READ reads after STATUS. -/
def dataRead (s : State) : Byte := (getreg .data (getreg .cmd s).2).1

/-- The step's event on message `m` passes every test, and `u` is the block after it, before the tail of the step: the
previous byte was acknowledged (43_sequencer.md R182), or a byte was stored and position advanced (R183) and the length of a
length-prefixed message extended by its byte 0 (R184). Of the environment `u` has had the reads. -/
def Taken (s : State) (m : Message) (u : State) : Prop :=
  s.phase.terminal = false ∧ s.params.al (statusRead s) = false ∧ s.current = some m ∧ m.buf ≠ none ∧
    (s.phase ≠ .read ∧ s.params.nack (statusRead s) = false
        ∧ u = { (getreg .cmd s).2 with phase := if m.rd then .read else .write }
      ∨ s.phase = .read
        ∧ (m.recvlen = true → s.position = 0 → 1 ≤ (dataRead s).toNat ∧ (dataRead s).toNat ≤ 32)
        ∧ u = { (getreg .data (getreg .cmd s).2).2 with
                position := s.position + 1
                msgs := some (s.list.set s.cursor
                  { m with
                    buf := m.buf.map fun b => b.set s.position (dataRead s)
                    len := if m.recvlen ∧ s.position = 0 then m.len + (dataRead s).toNat else m.len }) })

/-- The read command for byte `position` (R189). -/
def readCommand (m : Message) (position : Nat) : Command :=
  if (position : Int) = (m.len : Int) - 1 ∧ ¬(m.recvlen = true ∧ position = 0) then .readNack else .readAck

/-- The instructions one after another, stopping at the first that answers no next state. -/
def runAll : List Instr → State → Host.Outcome State Fault Refusal
  | [], s => .next s
  | i :: rest, s =>
    match exec i s with
    | .next t => runAll rest t
    | .fault r => .fault r
    | .refused r => .refused r

/-! ### The invariant -/

/-- The message at place `i` may still be extended by its byte 0 (43_sequencer.md R184). -/
def mayExtend (s : State) (i : Nat) : Prop :=
  s.cursor < i ∨ (s.cursor = i ∧ (s.phase = .start ∨ (s.phase = .read ∧ s.position = 0)))

/-- The message at place `i` of a running list: what validate asked of it (44_adapters.md R201), as far as it is still to
be used. -/
def messageOk (s : State) (i : Nat) (m : Message) : Prop :=
  m.buf.isSome = true ∧ m.addr ≤ 0x7F ∧ m.len ≤ m.cap ∧ (0 < i → m.nostart = true → m.len ≠ 0)
    ∧ (m.recvlen = true → m.rd = true → mayExtend s i → m.len + Config.blockMax ≤ m.cap)

/-- What State says of position and direction (10_state.md R28, R30, R43 c). -/
def positionOk (s : State) (m : Message) : Prop :=
  match s.phase with
  | .start => s.position = 0
  | .write => m.rd = false ∧ s.position ≤ m.len
  | .read => m.rd = true ∧ s.position < m.len
  | .done => True
  | .error => True

/-- A transaction is under way: its list is sound, cursor names a message of it (R44 a), position lies in it (R43 c). -/
def seqOk (s : State) : Prop :=
  (∀ i m, s.msgAt i = some m → messageOk s i m) ∧ ∃ m, s.current = some m ∧ positionOk s m

/-- The lists an unfinished operation will arm are validated ones, and someone's. -/
def frameOk : Frame → Prop
  | .armStart owner l => owner ≠ .free ∧ validateFails l = false
  | .armTail owner l => owner ≠ .free ∧ validateFails l = false
  | .recoverWait => True
  | .launch => True
  | .suspended => True
  | .abort => True
  | .pollTop => True
  | .pollWaiting _ _ _ => True
  | .pollStep => True
  | .terminalExpired => True
  | .report => True

/-- The frame is the rest of an arm that holds the lock (20_memory.md R77, 45_recovery.md R238). -/
def Machine.Frame.isArmTail : Frame → Bool
  | .armTail _ _ => true
  | .armStart _ _ => false
  | .recoverWait => false
  | .launch => false
  | .suspended => false
  | .abort => false
  | .pollTop => false
  | .pollWaiting _ _ _ => false
  | .pollStep => false
  | .terminalExpired => false
  | .report => false

/-- The frame is a poll_wait's loop. -/
def Machine.Frame.isPollWaiting : Frame → Bool
  | .pollWaiting _ _ _ => true
  | .armTail _ _ => false
  | .armStart _ _ => false
  | .recoverWait => false
  | .launch => false
  | .suspended => false
  | .abort => false
  | .pollTop => false
  | .pollStep => false
  | .terminalExpired => false
  | .report => false

/-- THE INVARIANT (10_state.md R38, R43, R44; 20_memory.md R77, R78): every step keeps it, and reset has it. -/
structure Inv (s : State) : Prop where
  /-- R43 c, R44 a. -/
  running : s.phase.terminal = false → seqOk s
  /-- R44 b. -/
  doneAtEnd : s.phase = .done → ∀ l, s.msgs = some l → s.cursor = l.length ∧ s.position = 0
  /-- R44 c. -/
  errLatch : s.err = .none ↔ s.phase ≠ .error
  /-- R44 e. -/
  completionTerminal : s.completion = true → s.phase.terminal = true
  /-- A transaction under way is not yet reported (R208). -/
  claimed : s.claim = .free → s.phase.terminal = true
  /-- Only validated lists are armed (R201). -/
  frames : ∀ f ∈ s.todo, frameOk f
  /-- The lock is held between two steps only by an arm in its recovery wait (R78). -/
  locked : s.lock ≠ .interrupt ∧ (s.lock = .initiator ↔ s.todo.any Frame.isArmTail = true)
  /-- At most one arm holds it (R76). -/
  oneArm : (s.todo.filter Frame.isArmTail).length ≤ 1
  /-- A wait's origin is live only during that wait (R38). -/
  origins : (s.t0Irq.isSome = true → Frame.suspended ∈ s.todo) ∧ (s.t0Poll.isSome = true → s.todo.any Frame.isPollWaiting = true)
    ∧ (s.t0Recovery.isSome = true → Frame.recoverWait ∈ s.todo)
  /-- mode is DeviceConfig's (R34). -/
  modeOfDevice : s.mode = s.dev.interruptOrPoll
  /-- While a submit or an arm has not returned, its transaction is not yet reported (R208). -/
  claimHeld : s.unreturned = true → s.claim ≠ .free

/-! ### CleanEntry -/

/-- A STATUS byte with BUSY and TIP clear. -/
def Params.showsIdle (p : Params) (stat : Byte) : Bool := !isSet stat p.statBusy && !isSet stat p.statTip

/-- What the access history, newest event first, says of the byte engine: since the last command but a bare acknowledge-clear a
STATUS read has been made, and the latest one showed BUSY and TIP clear (42_commands.md R149, promises 4 and 5). -/
def seenIdle (p : Params) : List Event → Bool
  | [] => false
  | .read .cmd _ _ v :: _ => p.showsIdle v
  | .write .cmd _ _ v :: older => v == p.cmdIack && seenIdle p older
  | _ :: older => seenIdle p older

/-- No command in flight, BUSY and TIP clear: in the reference engine, or as far as the block has seen at the trusted level,
where the oracle has no engine to look at (log 32). -/
def Machine.Env.idle (p : Params) (e : Env) : Bool :=
  match e.level with
  | .oracle => seenIdle p e.trace.reverse
  | .reference => e.eng.inflight.isNone && !e.eng.busy && !e.eng.tip

/-- What the access history, newest event first, says of the pending-event flag: the latest STATUS read showed the engine idle and
the flag clear, or showed it idle and an acknowledge-clear came after (42_commands.md R149, promise 6). -/
def seenFlagClear (p : Params) : List Event → Bool
  | [] => false
  | .read .cmd _ _ v :: _ => !p.pending v && p.showsIdle v
  | .write .cmd _ _ v :: older => v == p.cmdIack && seenIdle p older
  | _ :: older => seenFlagClear p older

/-- The pending-event flag is clear: in the reference engine, or as far as the block has seen at the trusted level (log 32). -/
def Machine.Env.flagClear (p : Params) (e : Env) : Bool :=
  match e.level with
  | .oracle => seenFlagClear p e.trace.reverse
  | .reference => !e.eng.ifl

/-- CleanEntry (R304): nothing in flight, BUSY and TIP clear, the flag or IEN clear (so no delivery is pending), no irq_entry
running or waiting, the lock free, State terminal, no submission active (at the trusted level: log 32). -/
def CleanEntry (s : State) : Prop :=
  s.env.idle s.params = true ∧ (s.env.flagClear s.params = true ∨ isSet s.env.eng.ctr s.params.ctrlIen = false)
    ∧ s.irqWaiting = false ∧ s.lock = .free ∧ s.phase.terminal = true ∧ s.claim = .free ∧ s.todo = []

end Sys2Proof
end

