-- ==== Sys2Proof/Certificates/Slice0/Obligations.lean ====
section
/-! DEFINITION. The statements for the provers. "Trusted level" is `s.env.level = .oracle` (00_scope.md R14: claims are stated
against the unconstrained oracle, 42_commands.md before R141); every value a read answers there is whatever it is
(`statusRead`, `dataRead`, or a `readOf` event). `t = { s with … }` says an instruction's effect and its frame at once, and
`Accessed` does so for what lies behind the register port. -/

open Sys2Proof Sys2Proof.Machine

/-! ### Encodings -/

/-- R95, R99, R103: the table's words decode to their rows, with all operands zero (log 2: a 3 bit word names a message, a 4
bit word a host operation, a byte a command). -/
def Obligations.TableWordsDecode : Prop :=
  (decodeTableWord 8 0x91 = some .cmdStart ∧ decodeTableWord 8 0x11 = some .cmdWrite
    ∧ decodeTableWord 8 0x21 = some .cmdReadAck ∧ decodeTableWord 8 0x29 = some .cmdReadNack
    ∧ decodeTableWord 8 0x41 = some .cmdStop ∧ decodeTableWord 8 0x01 = some .cmdIack
    ∧ decodeTableWord 8 0x61 = some .cmdRecover)
  ∧ (decodeTableWord 3 0 = some (.msgWrite false ⟨0, 0, none⟩) ∧ decodeTableWord 3 1 = some (.msgRead ⟨0, 0, none⟩)
    ∧ decodeTableWord 3 2 = some (.msgWriteNostart false ⟨0, 0, none⟩)
    ∧ decodeTableWord 3 3 = some (.msgReadNostart ⟨0, 0, none⟩)
    ∧ decodeTableWord 3 4 = some (.msgWrite true ⟨0, 0, none⟩)
    ∧ decodeTableWord 3 5 = some (.msgReadRecvlen ⟨0, 0, none⟩)
    ∧ decodeTableWord 3 6 = some (.msgWriteNostart true ⟨0, 0, none⟩)
    ∧ decodeTableWord 3 7 = some (.msgReadRecvlenNostart ⟨0, 0, none⟩))
  ∧ (decodeTableWord 4 0 = some (.configure ⟨0, 0, 0, .little, .interrupt, 0, 0⟩)
    ∧ decodeTableWord 4 1 = some (.submit none) ∧ decodeTableWord 4 2 = some (.validate none)
    ∧ decodeTableWord 4 3 = some (.arm none) ∧ decodeTableWord 4 4 = some .recover
    ∧ decodeTableWord 4 5 = some .step ∧ decodeTableWord 4 6 = some .irqEntry ∧ decodeTableWord 4 7 = some .waitIrq
    ∧ decodeTableWord 4 8 = some .pollLoop ∧ decodeTableWord 4 9 = some (.pollWait 0 0)
    ∧ decodeTableWord 4 10 = some .watchdogAbort ∧ decodeTableWord 4 11 = some .report
    ∧ decodeTableWord 4 12 = some (.getreg .prelow) ∧ decodeTableWord 4 13 = some (.setreg .prelow 0)
    ∧ decodeTableWord 4 14 = none ∧ decodeTableWord 4 15 = none)

/-- Decoding an encoded instruction gives it back, with every operand at every value, and the bytes after it (log 2). -/
def Obligations.DecodeEncodeRoundTrip : Prop :=
  ∀ (i : Instr) (rest : List Byte), decode (encode i ++ rest) = .ok (i, rest)

/-- A call whose bytes decode to no instruction stops the machine by name (log 27). They are (log 2): bytes that end early, a
command byte that is none of the seven (R104), a kind of more than three bits (R99), ordinals 14 and above (R103), a bare word that
is neither of the seven nor an ordinal, an unknown format, a register id byte above 4 (R91), an operand byte that stands for no
value. -/
def Obligations.UndecodableCallsFault : Prop :=
  (∀ (s : State) (bytes : List Byte) (why : Reject) (moves : List Move), s.schedule = .call bytes :: moves →
    decode bytes = .error why → step s = .fault (.undefinedCall why))
  ∧ (decode [] = .error .truncated ∧ (∀ op : Byte, decode [op] = .error .truncated)
    ∧ ∀ (r b : Byte) (more : List Byte),
        decode [12, 3] = .error .truncated ∧ decode [13, 3] = .error .truncated
        ∧ (5 ≤ r.toNat → decode (12 :: 3 :: r :: more) = .error .unknownRegister
            ∧ decode (13 :: 3 :: r :: more) = .error .unknownRegister)
        ∧ (2 ≤ b.toNat → decode (1 :: 3 :: b :: more) = .error .badOperand
            ∧ decode (2 :: 3 :: b :: more) = .error .badOperand ∧ decode (3 :: 3 :: b :: more) = .error .badOperand))
  ∧ ∀ (s : State) (op fmt : Byte) (rest : List Byte) (moves : List Move), s.schedule = .call (op :: fmt :: rest) :: moves →
    (fmt = 0 → op ∉ [0x91, 0x11, 0x21, 0x29, 0x41, 0x01, 0x61] → 14 ≤ op.toNat →
        step s = .fault (.undefinedCall .unknownOperation))
    ∧ (fmt = 1 → op ∉ [0x91, 0x11, 0x21, 0x29, 0x41, 0x01, 0x61] →
        step s = .fault (.undefinedCall .unknownCommand))
    ∧ (fmt = 2 → 8 ≤ op.toNat → step s = .fault (.undefinedCall .unknownKind))
    ∧ (fmt = 3 → 14 ≤ op.toNat → step s = .fault (.undefinedCall .unknownOperation))
    ∧ (4 ≤ fmt.toNat → step s = .fault (.undefinedCall .unknownFormat))

/-- R95: the seven default values, each composed of its bits by R93's layout, each with the IACK bit. -/
def Obligations.CommandBytesFollowTheLayout : Prop :=
  (Params.default.cmdByte .start = 0x91 ∧ Params.default.cmdByte .write = 0x11
    ∧ Params.default.cmdByte .readAck = 0x21 ∧ Params.default.cmdByte .readNack = 0x29
    ∧ Params.default.cmdByte .stop = 0x41 ∧ Params.default.cmdByte .iack = 0x01
    ∧ Params.default.cmdByte .recover = 0x61)
  ∧ ∀ c : Command, Params.default.cmdByte c = c.layoutByte ∧ isSet (Params.default.cmdByte c) 0x01 = true

/-- R108: under every legal parameter set a command byte is compared whole with the seven values; and for the default values
the bit-wise reading of STA, STO, RD, WR and ACK gives the same command. -/
def Obligations.CommandBytesAreComparedWhole : Prop :=
  (∀ p : Params, p.legal = true → ∀ (b : Byte) (c : Command), p.commandOf b = some c ↔ b = p.cmdByte c)
  ∧ ∀ c : Command, c.sta = isSet (Params.default.cmdByte c) 0x80 ∧ c.sto = isSet (Params.default.cmdByte c) 0x40
      ∧ c.rd = isSet (Params.default.cmdByte c) 0x20 ∧ c.wr = isSet (Params.default.cmdByte c) 0x10
      ∧ c.ack = isSet (Params.default.cmdByte c) 0x08

/-- R94, R151: the reference engine's STATUS byte has its five bits at the masks' places, under every legal parameter set;
for the defaults it is `{rxack, busy, al, 0, 0, 0, tip, ifl}`. -/
def Obligations.StatusByteHasItsBits : Prop :=
  (∀ (p : Params) (e : Engine), p.legal = true →
    p.nack (e.status p) = e.rxack ∧ isSet (e.status p) p.statBusy = e.busy ∧ p.al (e.status p) = e.al
      ∧ isSet (e.status p) p.statTip = e.tip ∧ p.pending (e.status p) = e.ifl)
  ∧ ∀ e : Engine, (e.status Params.default).toNat
      = 128 * e.rxack.toNat + 64 * e.busy.toNat + 32 * e.al.toNat + 2 * e.tip.toNat + e.ifl.toNat

/-- R97: the address byte is `(addr << 1) | rd`; a longer address is refused before arming, by submit (R201) and, which is the
model's choice (log 10), by a direct arm. -/
def Obligations.AddressByteIsAddressAndDirection : Prop :=
  (∀ m : Message, m.addr ≤ 0x7F → (addrByte m).toNat = (m.addr <<< 1) ||| m.rd.toNat)
  ∧ ∀ (l : List Message) (m : Message) (s : State), m ∈ l → 0x7F < m.addr → s.claim = .free →
      s.configureFailed = false →
      (s.configured = true → exec (.submit (some l)) s = .next { s with ret := .result none .parameter })
        ∧ exec (.arm (some l)) s = .next { s with ret := .result none .parameter }

/-! ### Register access -/

/-- R64, R65: a write carries the byte as the unsigned number in the configured order, a read takes the low 8 bits of the
number its bytes are. -/
def Obligations.MarshallingIsTheByteOrder : Prop :=
  (∀ (v : Byte) (w : Width) (e : Endian), (marshal v w e).length = w.bytes ∧ numberOf e (marshal v w e) = v.toNat)
  ∧ (∀ v : Byte, marshal v .one .little = [v] ∧ marshal v .one .big = [v] ∧ marshal v .two .little = [v, 0]
      ∧ marshal v .four .little = [v, 0, 0, 0] ∧ marshal v .two .big = [0, v] ∧ marshal v .four .big = [0, 0, 0, v])
  ∧ ∀ (bytes : List Byte) (w : Width) (e : Endian), bytes.length = w.bytes →
      (unmarshal bytes e).toNat = numberOf e bytes % 256

/-- R120: getreg is one read of the register, of the configured width, and hands back the low byte; the oracle's bytes are
taken in order. It writes nothing. -/
def Obligations.GetregIsOneRead : Prop :=
  ∀ (s : State) (id : RegId), s.env.level = .oracle →
    ∃ t v ev, exec (.getreg id) s = .next t ∧ ev.readOf s id v ∧ Accessed s t [ev]
      ∧ t = { s with ret := .byte v, env := t.env }
      ∧ ∀ bytes more, s.env.answers = bytes ++ more → bytes.length = s.dev.registerWidth.bytes →
          v = unmarshal bytes s.dev.endianness ∧ t.env.answers = more

/-- R121, R61: setreg is one write of the marshalled byte at `baseOffset + (id << registerShift)`. -/
def Obligations.SetregIsOneWrite : Prop :=
  ∀ (s : State) (id : RegId) (v : Byte), s.env.level = .oracle →
    ∃ t, exec (.setreg id v) s = .next t ∧ t = { s with ret := .nothing, env := t.env }
      ∧ Accessed s t [.write id (s.dev.baseOffset + s.params.regNum id * 2 ^ s.dev.registerShift)
          (marshal v s.dev.registerWidth s.dev.endianness) v]

/-- R95, R111, R141 to R147: each of the seven command calls (cmdStart, cmdWrite, cmdReadAck, cmdReadNack, cmdStop, cmdIack,
cmdRecover) writes its byte to COMMAND, and nothing else. -/
def Obligations.CommandsWriteTheirByte : Prop :=
  ∀ (s : State) (c : Command), s.env.level = .oracle →
    ∃ t, exec c.instr s = .next t ∧ Accessed s t [wEvent s .cmd (s.params.cmdByte c)] ∧ t = { s with env := t.env }

/-! ### The reference engine -/

/-- R151: what a read of each register answers in the reference engine, and that no read changes the engine. The bytes above the
register's in a wider access are not said (log 29). -/
def Obligations.ReferenceReads : Prop :=
  ∀ (s : State) (id : RegId), s.env.level = .reference → s.env.refusal = none → s.env.moves = [] →
    ∃ t, exec (.getreg id) s = .next t ∧ t.env.eng = s.env.eng
      ∧ t.ret = .byte (match id with
        | .prelow => s.env.eng.prer.extractLsb' 0 8
        | .prehigh => s.env.eng.prer.extractLsb' 8 8
        | .control => s.env.eng.ctr
        | .data => s.env.eng.rxr
        | .cmd => s.env.eng.status s.params)

/-- R152, R163: what a write does in the reference engine: the plain stores; a disabled engine ignores a command; a byte that
is no command and an action over a command in flight are refused; else the command is accepted. Clearing EN while a command
is in flight is refused. The model's choices: that a START or the forced read+stop ends another master's hold of BUSY (log 17), and
that R152's bit tests go by the command's name where the command values are not the defaults (log 31). -/
def Obligations.ReferenceWrites : Prop :=
  ∀ s : State, s.env.level = .reference → s.env.refusal = none → s.env.moves = [] → s.params.legal = true →
    (∀ v, ∃ t, exec (.setreg .prelow v) s = .next t ∧ t.env.eng = { s.env.eng with prer := s.env.eng.prer.extractLsb' 8 8 ++ v })
    ∧ (∀ v, ∃ t, exec (.setreg .prehigh v) s = .next t
        ∧ t.env.eng = { s.env.eng with prer := v ++ s.env.eng.prer.extractLsb' 0 8 })
    ∧ (∀ v, ∃ t, exec (.setreg .data v) s = .next t ∧ t.env.eng = { s.env.eng with txr := v })
    ∧ (∀ v, if s.env.eng.inflight ≠ none ∧ isSet s.env.eng.ctr s.params.ctrlEn = true ∧ isSet v s.params.ctrlEn = false
        then exec (.setreg .control v) s = .refused (.engine .disabledInFlight)
        else ∃ t, exec (.setreg .control v) s = .next t ∧ t.env.eng = { s.env.eng with ctr := v })
    ∧ (isSet s.env.eng.ctr s.params.ctrlEn = false →
        ∀ b, ∃ t, exec (.setreg .cmd b) s = .next t ∧ t.env.eng = s.env.eng)
    ∧ (isSet s.env.eng.ctr s.params.ctrlEn = true →
        (∀ b, (∀ c, b ≠ s.params.cmdByte c) → exec (.setreg .cmd b) s = .refused (.engine .unknownCommand))
        ∧ ∀ c : Command, if c ≠ .iack ∧ s.env.eng.inflight ≠ none
            then exec c.instr s = .refused (.engine .commandInFlight)
            else ∃ t, exec c.instr s = .next t ∧ t.env.eng = { s.env.eng with
              ifl := false
              al := if s.params.iackClearsAl = true ∨ c = .start then false else s.env.eng.al
              inflight := if c = .iack then s.env.eng.inflight else some c
              tip := if c = .stop ∨ c = .iack then s.env.eng.tip else true
              busy := if c = .start ∨ c = .recover then true else s.env.eng.busy
              otherMaster := if c = .start ∨ c = .recover then false else s.env.eng.otherMaster })

/-- R153, R154: what the completion of the command in flight, the loss of arbitration during it, and the winner's release of
the bus, at any moment after a loss, do in the reference engine, seen by the next access (log 17). -/
def Obligations.ReferenceEnvironmentMoves : Prop :=
  ∀ (s : State) (rest : List (List EnvMove)), s.env.level = .reference → s.env.refusal = none →
    (∀ c ack rx, s.env.eng.inflight = some c → s.env.moves = [.complete ack rx] :: rest →
      ∃ t, exec (.getreg .cmd) s = .next t ∧ t.env.eng = { s.env.eng with
        rxack := (match c with
          | .start => !ack | .write => !ack | .readAck => false | .readNack => true | .recover => false
          | .stop => s.env.eng.rxack | .iack => s.env.eng.rxack)
        rxr := if c = .readAck ∨ c = .readNack ∨ c = .recover then rx else s.env.eng.rxr
        busy := if c = .stop ∨ c = .recover then false else s.env.eng.busy
        tip := false
        ifl := true
        inflight := none })
    ∧ (s.env.eng.inflight ≠ none → s.env.moves = [.lose] :: rest →
      ∃ t, exec (.getreg .cmd) s = .next t
        ∧ t.env.eng = { s.env.eng with al := true, tip := false, ifl := true, inflight := none,
                                               otherMaster := true })
    ∧ (s.env.eng.otherMaster = true → s.env.moves = [.busRelease] :: rest →
      ∃ t, exec (.getreg .cmd) s = .next t ∧ t.env.eng = { s.env.eng with busy := false, otherMaster := false })

/-- R157: with the simulated target, an address byte is acknowledged exactly when it is one of the target's two; a data byte
when the target is selected and still acknowledges, and, which is the model's (log 18), never when none is selected; a read with
no target selected returns 0xFF. -/
def Obligations.SimulatedTargetAnswers : Prop :=
  ∀ (s : State) (rest : List (List EnvMove)), s.env.level = .reference → s.env.refusal = none →
    s.env.moves = [.completeByTarget] :: rest →
    (s.env.eng.inflight = some .start →
      ∃ t, exec (.getreg .cmd) s = .next t
        ∧ (t.env.eng.rxack = false ↔ ∃ tg, s.env.target = some tg
            ∧ (s.env.eng.txr.toNat = 2 * tg.addr ∨ s.env.eng.txr.toNat = 2 * tg.addr + 1)))
    ∧ (s.env.eng.inflight = some .write →
      ∃ t, exec (.getreg .cmd) s = .next t
        ∧ (t.env.eng.rxack = false ↔ ∃ tg, s.env.target = some tg ∧ tg.selected = true ∧ tg.acksLeft ≠ some 0))
    ∧ (s.env.eng.inflight = some .readAck ∨ s.env.eng.inflight = some .readNack →
      ∃ t, exec (.getreg .cmd) s = .next t
        ∧ ((∀ tg, s.env.target = some tg → tg.selected = false) → t.env.eng.rxr = 0xFF)
        ∧ ∀ tg b out, s.env.target = some tg → tg.selected = true → tg.out = b :: out →
            t.env.eng.rxr = b ∧ t.env.target = some { tg with out := out })

/-! ### Bring-up -/

/-- R130: `prescale = clamp(floor(ip / (5 * bus)) - 1, 0, 0xFFFF)`, on integers. -/
def Obligations.PrescaleIsTheClampedQuotient : Prop :=
  ∀ ip bus : Nat, 0 < bus →
    ((computePrescale ip bus).toNat : Int) = max 0 (min (((ip / (5 * bus) : Nat) : Int) - 1) 0xFFFF)

/-- R131: the exact test is "achieved clock off by more than a tenth of the target" on rational numbers, strictly; the
truncating one is the same on truncated naturals. -/
def Obligations.ToleranceIsATenthOfTheTarget : Prop :=
  ∀ (ip bus : Nat) (p : Prescale),
    (toleranceFails .exact ip bus (clockDivisor p) = true
      ↔ |(ip : ℚ) / (5 * ((p.toNat : ℚ) + 1)) - bus| > (bus : ℚ) / 10)
    ∧ (toleranceFails .truncating ip bus (clockDivisor p) = true
      ↔ |((ip / (5 * (p.toNat + 1)) : Nat) : ℤ) - bus| > ((bus / 10 : Nat) : ℤ))

/-- R133, R132, R47, R134: configure. A configuration with a zero bus clock, a width not 1, 2 or 4, or an unattainable bus clock
returns ConfigurationError with no register access, and is fatal: no later submit is accepted, and no later configure, which
R134 alone does not say (log 14). Any other runs the bring-up sequence, in this order. No transaction is open (over one opened
before bring-up it is refused, RefusedByTheSpec). -/
def Obligations.ConfigureBringsUp : Prop :=
  ∀ (s : State) (cfg : Surface), s.configured = false → s.configureFailed = false → s.claim = .free →
    (cfg.busClockKHz = 0 ∨ cfg.registerWidth ∉ [1, 2, 4]
        ∨ toleranceFails s.params.clockArith cfg.ipClockKHz cfg.busClockKHz
            (clockDivisor (computePrescale cfg.ipClockKHz cfg.busClockKHz)) = true →
      exec (.configure cfg) s = .next { s with configureFailed := true, ret := .configured .configuration }
        ∧ ∀ cfg' l, exec (.configure cfg') { s with configureFailed := true, ret := .configured .configuration }
              = .refused .secondConfigure
            ∧ exec (.submit l) { s with configureFailed := true, ret := .configured .configuration }
              = .refused .notConfigured)
    ∧ ∀ w : Width, s.env.level = .oracle → cfg.busClockKHz ≠ 0 → w.bytes = cfg.registerWidth →
        toleranceFails s.params.clockArith cfg.ipClockKHz cfg.busClockKHz
            (clockDivisor (computePrescale cfg.ipClockKHz cfg.busClockKHz)) = false →
        ∃ t ev ctrl, exec (.configure cfg) s = .next t ∧ ev.readOf t .control ctrl
          ∧ t = { s with
              dev := { ipClockKHz := cfg.ipClockKHz, busClockKHz := cfg.busClockKHz,
                       prescale := computePrescale cfg.ipClockKHz cfg.busClockKHz, registerWidth := w,
                       endianness := cfg.endianness, baseOffset := cfg.baseOffset,
                       registerShift := cfg.registerShift, interruptOrPoll := cfg.interruptOrPoll }
              configured := true
              mode := cfg.interruptOrPoll
              ret := .configured .none
              env := t.env }
          ∧ Accessed s t [ev, wEvent t .control (ctrl &&& ~~~(s.params.ctrlEn ||| s.params.ctrlIen)),
              wEvent t .prelow ((computePrescale cfg.ipClockKHz cfg.busClockKHz).extractLsb' 0 8),
              wEvent t .prehigh ((computePrescale cfg.ipClockKHz cfg.busClockKHz).extractLsb' 8 8),
              wEvent t .cmd s.params.cmdIack,
              wEvent t .control ((ctrl &&& ~~~(s.params.ctrlEn ||| s.params.ctrlIen)) ||| s.params.ctrlEn)]
          ∧ t.env.eng.prer = computePrescale cfg.ipClockKHz cfg.busClockKHz

/-- What the machine gives no meaning (R200, R208, R292, R294, 20_memory.md R80; log 6, log 9, log 14, log 15): a configure after
the first, and one over an open transaction (R34, R261); submit before a successful configure or after a failed one; arm or a
message after a failed one; submit or arm over a transaction not yet reported; submit while another submit has not returned
(`report` is its last frame), in every state the invariant allows; a message over a submitted list; a message that would arm over
a fed program not yet reported. -/
def Obligations.RefusedByTheSpec : Prop :=
  ∀ s : State,
    (∀ cfg, s.configured = true ∨ s.configureFailed = true → exec (.configure cfg) s = .refused .secondConfigure)
    ∧ (∀ cfg, s.configured = false → s.configureFailed = false → s.claim ≠ .free →
        exec (.configure cfg) s = .refused .transactionOpen)
    ∧ (∀ l, s.configured = false ∨ s.configureFailed = true → exec (.submit l) s = .refused .notConfigured)
    ∧ (s.configureFailed = true → (∀ l, exec (.arm l) s = .refused .unusable)
        ∧ ∀ m : Message, exec m.instr s = .refused .unusable)
    ∧ (s.configureFailed = false →
      (∀ l, s.configured = true → s.claim ≠ .free → exec (.submit l) s = .refused .submissionActive)
      ∧ (∀ l, s.claim ≠ .free → exec (.arm l) s = .refused .submissionActive)
      ∧ (Inv s → Frame.report ∈ s.todo → ∀ l, (s.configured = true → exec (.submit l) s = .refused .submissionActive)
          ∧ exec (.arm l) s = .refused .submissionActive)
      ∧ (∀ m : Message, s.claim = .submission → exec m.instr s = .refused .listOwned)
      ∧ ∀ m : Message, s.claim = .program → s.phase.terminal = true → exec m.instr s = .refused .submissionActive)

/-! ### The sequencer's step -/

/-- R179: with State DONE or ERROR a step issues acknowledge-clear and signals completion, whatever STATUS is. -/
def Obligations.StepInTerminalState : Prop :=
  ∀ s : State, s.env.level = .oracle → s.phase = .done ∨ s.phase = .error →
    ∃ t ev, exec .step s = .next t ∧ ev.readOf s .cmd (statusRead s) ∧ Accessed s t [ev, cEvent s .iack]
      ∧ t = { s with completion := true, ret := .mark .terminal, env := t.env }

/-- R180: arbitration lost: ERROR, one STOP, completion; nothing else, DATA not read. -/
def Obligations.StepSeesArbitrationLost : Prop :=
  ∀ s : State, s.env.level = .oracle → s.phase ≠ .done → s.phase ≠ .error → s.params.al (statusRead s) = true →
    ∃ t ev, exec .step s = .next t ∧ ev.readOf s .cmd (statusRead s) ∧ Accessed s t [ev, cEvent s .stop]
      ∧ t = { s with phase := .error, err := .arbitration, completion := true, ret := .mark .goesOn, env := t.env }

/-- R181: the list or the current message's buffer is absent: ERROR with ParameterError, one STOP. -/
def Obligations.StepFindsTheListMalformed : Prop :=
  ∀ s : State, s.env.level = .oracle → s.phase ≠ .done → s.phase ≠ .error → s.params.al (statusRead s) = false →
    s.msgs = none ∨ (∃ m, s.current = some m ∧ m.buf = none) →
    ∃ t ev, exec .step s = .next t ∧ ev.readOf s .cmd (statusRead s) ∧ Accessed s t [ev, cEvent s .stop]
      ∧ t = { s with phase := .error, err := .parameter, completion := true, ret := .mark .goesOn, env := t.env }

/-- R182, R263: in State START or WRITE a NACK is NackError, one STOP. -/
def Obligations.StepIsNotAcknowledged : Prop :=
  ∀ (s : State) (m : Message), s.env.level = .oracle → s.phase = .start ∨ s.phase = .write →
    s.params.al (statusRead s) = false → s.current = some m → m.buf ≠ none → s.params.nack (statusRead s) = true →
    ∃ t ev, exec .step s = .next t ∧ ev.readOf s .cmd (statusRead s) ∧ Accessed s t [ev, cEvent s .stop]
      ∧ t = { s with phase := .error, err := .nack, completion := true, ret := .mark .goesOn, env := t.env }

/-- R184, R266: byte 0 of a length-prefixed message outside [1,32]: the byte is stored and position advanced, then ERROR with
BlockLengthError, one STOP; the length is not touched and no further byte is asked for. -/
def Obligations.StepRefusesABlockLength : Prop :=
  ∀ (s : State) (m : Message), s.env.level = .oracle → s.phase = .read → s.params.al (statusRead s) = false →
    s.current = some m → m.buf ≠ none → m.recvlen = true → s.position = 0 →
    (dataRead s).toNat < 1 ∨ 32 < (dataRead s).toNat →
    ∃ t e1 e2, exec .step s = .next t ∧ e1.readOf s .cmd (statusRead s) ∧ e2.readOf s .data (dataRead s)
      ∧ Accessed s t [e1, e2, cEvent s .stop]
      ∧ t = { s with
          msgs := some (s.list.set s.cursor { m with buf := m.buf.map fun b => b.set 0 (dataRead s) })
          position := 1
          phase := .error
          err := .blockLength
          completion := true
          ret := .mark .goesOn
          env := t.env }

/-- R186: the event was taken (`Taken`), the message is at its end and it was the last: DONE, one STOP, completion. -/
def Obligations.StepEndsTheList : Prop :=
  ∀ (s : State) (m : Message) (u : State) (m' : Message), s.env.level = .oracle → Taken s m u → u.current = some m' →
    u.position = m'.len → u.msgAt (u.cursor + 1) = none →
    ∃ t, exec .step s = .next t ∧ Accessed u t [cEvent s .stop]
      ∧ t = { u with cursor := u.cursor + 1, position := 0, phase := .done, completion := true,
                     ret := .mark .goesOn, env := t.env }

/-- R185, R187: the message is at its end and the next lacks no-start: cursor advances, position 0, START, the next message's
address byte and START. -/
def Obligations.StepStartsTheNextMessage : Prop :=
  ∀ (s : State) (m : Message) (u : State) (m' next : Message), s.env.level = .oracle → Taken s m u →
    u.current = some m' → u.position = m'.len → u.msgAt (u.cursor + 1) = some next → next.nostart = false →
    ∃ t, exec .step s = .next t ∧ Accessed u t [wEvent s .data (addrByte next), cEvent s .start]
      ∧ t = { u with cursor := u.cursor + 1, position := 0, phase := .start, ret := .mark .goesOn, env := t.env }

/-- R188: the next message has no-start: State by its direction, and the same step goes on for its byte 0: a read command, or
the byte (a byte outside the buffer is a free value, log 16) and WRITE. -/
def Obligations.StepContinuesWithoutStart : Prop :=
  ∀ (s : State) (m : Message) (u : State) (m' next : Message), s.env.level = .oracle → Taken s m u →
    u.current = some m' → u.position = m'.len → u.msgAt (u.cursor + 1) = some next → next.nostart = true →
    (next.rd = true → ∃ t, exec .step s = .next t ∧ Accessed u t [cEvent s (readCommand next 0)]
      ∧ t = { u with cursor := u.cursor + 1, position := 0, phase := .read, ret := .mark .goesOn, env := t.env })
    ∧ (next.rd = false → ∃ t b, exec .step s = .next t ∧ (∀ b', next.byteAt 0 = some b' → b = b')
      ∧ Accessed u t [wEvent s .data b, cEvent s .write]
      ∧ t = { u with cursor := u.cursor + 1, position := 1, phase := .write, ret := .mark .goesOn, env := t.env })

/-- R189: a read in progress: read-nack for the last byte of a message unless it is byte 0 of a length-prefixed one, else
read-ack. -/
def Obligations.StepAsksForTheNextByte : Prop :=
  ∀ (s : State) (m : Message) (u : State) (m' : Message), s.env.level = .oracle → Taken s m u → u.current = some m' →
    u.position ≠ m'.len → u.phase = .read →
    ∃ t, exec .step s = .next t ∧ t = { u with ret := .mark .goesOn, env := t.env }
      ∧ Accessed u t [cEvent s (if (u.position : Int) = (m'.len : Int) - 1 ∧ ¬(m'.recvlen = true ∧ u.position = 0)
          then .readNack else .readAck)]

/-- R190: a write in progress: the next byte to DATA, then WRITE; position advances (a byte outside the buffer is a free value,
log 16). -/
def Obligations.StepSendsTheNextByte : Prop :=
  ∀ (s : State) (m : Message) (u : State) (m' : Message), s.env.level = .oracle → Taken s m u → u.current = some m' →
    u.position ≠ m'.len → u.phase = .write →
    ∃ t b, exec .step s = .next t ∧ (∀ b', m'.byteAt u.position = some b' → b = b')
      ∧ Accessed u t [wEvent s .data b, cEvent s .write]
      ∧ t = { u with position := u.position + 1, ret := .mark .goesOn, env := t.env }

/-- R178, R183, R74: the reads of a step come first: STATUS, then DATA exactly when State is READ, AL clear and the buffer present;
what follows is writes only. In particular the state `u` of `Taken` has had the reads and nothing else. -/
def Obligations.StepReadsBeforeItWrites : Prop :=
  (∀ s : State, s.env.level = .oracle →
    ∃ t e1 after, exec .step s = .next t ∧ t.env.trace = s.env.trace ++ e1 :: after ∧ e1.readOf s .cmd (statusRead s)
      ∧ ((s.phase = .read ∧ s.params.al (statusRead s) = false ∧ ∃ m, s.current = some m ∧ m.buf ≠ none) →
          ∃ e2 ws, after = e2 :: ws ∧ e2.readOf s .data (dataRead s) ∧ ∀ ev ∈ ws, ev.written.isSome = true)
      ∧ (¬(s.phase = .read ∧ s.params.al (statusRead s) = false ∧ ∃ m, s.current = some m ∧ m.buf ≠ none) →
          ∀ ev ∈ after, ev.written.isSome = true))
  ∧ ∀ (s : State) (m : Message) (u : State), s.env.level = .oracle → Taken s m u →
    (s.phase ≠ .read → ∃ e1, e1.readOf s .cmd (statusRead s) ∧ Accessed s u [e1])
    ∧ (s.phase = .read → ∃ e1 e2, e1.readOf s .cmd (statusRead s) ∧ e2.readOf s .data (dataRead s)
        ∧ Accessed s u [e1, e2])

/-- R193, at both levels: a step completes (at the trusted level always), reads STATUS once, DATA at most once and only in State
READ with AL clear and the buffer present, writes DATA at most once and COMMAND once, last, and no other register; from a
State that is not terminal it leaves with a byte-moving command outstanding and State not terminal, or with a STOP
outstanding and State terminal. -/
def Obligations.StepCountsItsAccesses : Prop :=
  ∀ s : State,
    (s.env.level = .oracle → ∃ t, exec .step s = .next t)
    ∧ ∀ t, exec .step s = .next t →
      (eventsSince s t).countP (Event.reads .cmd) = 1
      ∧ (eventsSince s t).countP (Event.reads .data) ≤ 1
      ∧ ((eventsSince s t).countP (Event.reads .data) = 1 →
          s.phase = .read ∧ s.params.al (statusRead s) = false ∧ ∃ m, s.current = some m ∧ m.buf ≠ none)
      ∧ (eventsSince s t).countP (Event.writes .data) ≤ 1
      ∧ (eventsSince s t).countP (Event.writes .cmd) = 1
      ∧ (∀ ev ∈ eventsSince s t, ev.writes .prelow = false ∧ ev.writes .prehigh = false ∧ ev.writes .control = false)
      ∧ t.env.now = s.env.now
      ∧ (s.phase.terminal = false → ∃ c, (eventsSince s t).getLast? = some (cEvent s c)
          ∧ (t.phase.terminal = true ∧ c = .stop
            ∨ t.phase.terminal = false ∧ c ∈ [.start, .write, .readAck, .readNack]))

/-- R72, R44 f, R43 d, and the frame of a step, at both levels: of all the buffers only byte `position` of the current message
may change, and only in State READ; of all the lengths only that of a current length-prefixed message, by byte 0, in State
READ at position 0, at most by 32; nothing of a message else. DeviceConfig, mode, lock, claim, the waits and the pending work
stay. -/
def Obligations.StepTouchesOneByte : Prop :=
  ∀ s t : State, exec .step s = .next t →
    (∀ k i, ¬(s.phase = .read ∧ k = s.cursor ∧ i = s.position) → t.bufByte k i = s.bufByte k i)
    ∧ (∀ k m, s.msgAt k = some m → ∃ m', t.msgAt k = some m'
        ∧ m'.addr = m.addr ∧ m'.rd = m.rd ∧ m'.nostart = m.nostart ∧ m'.recvlen = m.recvlen ∧ m'.cap = m.cap
        ∧ (m'.len = m.len ∨ m.recvlen = true ∧ s.phase = .read ∧ k = s.cursor ∧ s.position = 0
            ∧ 1 ≤ (dataRead s).toNat ∧ (dataRead s).toNat ≤ 32 ∧ m'.len = m.len + (dataRead s).toNat))
    ∧ (∀ k, s.msgAt k = none → t.msgAt k = none)
    ∧ t = { s with msgs := t.msgs, cursor := t.cursor, position := t.position, phase := t.phase, err := t.err,
                   completion := t.completion, ret := t.ret, env := t.env }

/-! ### Messages -/

/-- R171 to R173, R106, R275 (log 9): with State terminal a message instruction (msgWrite, msgRead, msgReadRecvlen,
msgWriteNostart, msgReadNostart, msgReadRecvlenNostart: `m.instr` for every `m`) arms a program of this one message, no-start
ignored. The common case (lock free, no arbitration lost) has arm's accesses, the address byte and START last; in the others it
goes as far as arm does (log 12). -/
def Obligations.MessageStartsAProgram : Prop :=
  ∀ (s : State) (m : Message), s.env.level = .oracle → s.phase = .done ∨ s.phase = .error → s.claim = .free →
    s.configureFailed = false → m.legal false = true →
    (s.lock = .free → s.params.al (statusRead s) = false →
      ∃ t e1 e2 ctrl, exec m.instr s = .next t ∧ e1.readOf s .cmd (statusRead s) ∧ e2.readOf s .control ctrl
        ∧ Accessed s t [e1, e2,
            wEvent s .control (if s.mode = .interrupt then ctrl ||| s.params.ctrlIen else ctrl &&& ~~~s.params.ctrlIen),
            wEvent s .data (addrByte m), cEvent s .start]
        ∧ t = { s with msgs := some [m], cursor := 0, position := 0, phase := .start, err := .none, completion := false,
                       claim := .program, ret := .nothing, env := t.env })
    ∧ (s.lock = .free → ∃ a, exec (.arm (some [m])) s = .next a
      ∧ (a.todo = s.todo → exec m.instr s = .next { a with claim := .program })
      ∧ (a.todo ≠ s.todo → exec m.instr s = .next { a with
          todo := .recoverWait :: .armTail .program (some [m]) :: s.todo, claim := .program }))
    ∧ (s.lock ≠ .free → exec m.instr s
        = .next { s with todo := .armStart .program (some [m]) :: s.todo, claim := .program })

/-- R170 (log 9): with a program under way a message instruction appends its message and runs one step; at the trusted level it
completes. An illegal message changes nothing and is a ParameterError (R201). -/
def Obligations.MessageFollowsInOrder : Prop :=
  ∀ (s : State) (m : Message), s.claim ≠ .submission → s.configureFailed = false →
    (s.phase.terminal = false → m.legal true = true →
      exec m.instr s = exec .step { s with msgs := some (s.list ++ [m]), claim := .program }
      ∧ (s.env.level = .oracle → ∃ t, exec m.instr s = .next t))
    ∧ (s.phase.terminal = false ∨ s.claim = .free → m.legal (!s.phase.terminal) = false →
      exec m.instr s = .next { s with ret := .result none .parameter })

/-- R174, R175, R176 (log 9): a no-start message entered where the step's event ends the one before it: no START and no address
byte; a write sends byte 0 (State WRITE), a read asks for byte 0 (State READ), with read-nack only for a single byte that
is not length-prefixed. -/
def Obligations.NostartMessageContinues : Prop :=
  ∀ (s : State) (m before : Message) (u : State) (before' : Message), s.env.level = .oracle → s.claim ≠ .submission →
    s.configureFailed = false → m.nostart = true → m.legal true = true → s.cursor + 1 = s.list.length →
    Taken { s with msgs := some (s.list ++ [m]), claim := .program } before u → u.current = some before' →
    u.position = before'.len →
    (m.rd = false → ∃ t b, exec m.instr s = .next t ∧ m.byteAt 0 = some b
      ∧ Accessed u t [wEvent s .data b, cEvent s .write]
      ∧ t = { u with cursor := u.cursor + 1, position := 1, phase := .write, ret := .mark .goesOn, env := t.env })
    ∧ (m.rd = true → ∃ t, exec m.instr s = .next t
      ∧ Accessed u t [cEvent s (if m.len = 1 ∧ m.recvlen = false then .readNack else .readAck)]
      ∧ t = { u with cursor := u.cursor + 1, position := 0, phase := .read, ret := .mark .goesOn, env := t.env })

/-- R171 with P1: a write of n bytes that is acknowledged throughout writes exactly, after arm's update of CONTROL: address and
START, then (DATA, WRITE) per byte, then STOP; it ends in DONE with no error. The message is fed by its instruction (log 9) and
n + 1 steps follow; arm reads STATUS and CONTROL first. -/
def Obligations.WriteMessageRunsToDone : Prop :=
  ∀ (s : State) (l : Bool) (o : MsgOperands) (bytes spare : List Byte) (stat ctrl : Byte) (stats more : List Byte),
    s.env.level = .oracle → s.phase.terminal = true → s.claim = .free → s.configureFailed = false → s.lock = .free →
    o.addr ≤ 0x7F →
    o.buf = some (bytes ++ spare) → o.len = bytes.length → s.params.al stat = false → stats.length = bytes.length + 1 →
    (∀ v ∈ stats, s.params.al v = false ∧ s.params.nack v = false) →
    s.env.answers = answersOf s.dev (stat :: ctrl :: stats) ++ more →
    ∃ t, runAll (.msgWrite l o :: List.replicate (bytes.length + 1) .step) s = .next t
      ∧ t.phase = .done ∧ t.err = .none ∧ t.completion = true
      ∧ writesSince s t = (.control, s.params.ctrlForMode s.mode ctrl)
          :: [(.data, BitVec.ofNat 8 (2 * o.addr)), (.cmd, s.params.cmdStart)]
          ++ bytes.flatMap (fun b => [(.data, b), (.cmd, s.params.cmdWrite)]) ++ [(.cmd, s.params.cmdStop)]

/-- R172 with P2: a read of n bytes whose address is acknowledged writes exactly, after arm's update of CONTROL: address and
START, read-ack for bytes 0 to n - 2, read-nack for byte n - 1, STOP; the buffer holds the bytes read, in order. The message is
fed by its instruction (log 9) and n + 1 steps follow; arm reads STATUS and CONTROL first. -/
def Obligations.ReadMessageRunsToDone : Prop :=
  ∀ (s : State) (o : MsgOperands) (old : List Byte) (stat ctrl stat0 : Byte) (pairs : List (Byte × Byte))
    (more : List Byte),
    s.env.level = .oracle → s.phase.terminal = true → s.claim = .free → s.configureFailed = false → s.lock = .free →
    o.addr ≤ 0x7F →
    o.buf = some old → o.len = pairs.length → pairs.length ≤ old.length → s.params.al stat = false →
    s.params.al stat0 = false → s.params.nack stat0 = false → (∀ vb ∈ pairs, s.params.al vb.1 = false) →
    s.env.answers = answersOf s.dev (stat :: ctrl :: stat0 :: pairs.flatMap fun vb => [vb.1, vb.2]) ++ more →
    ∃ t, runAll (.msgRead o :: List.replicate (pairs.length + 1) .step) s = .next t
      ∧ t.phase = .done ∧ t.err = .none ∧ t.completion = true
      ∧ t.msgs = some [{ addr := o.addr, rd := true, nostart := false, recvlen := false, len := o.len,
                         buf := some (pairs.map (·.2) ++ old.drop pairs.length) }]
      ∧ writesSince s t = (.control, s.params.ctrlForMode s.mode ctrl)
          :: [(.data, BitVec.ofNat 8 (2 * o.addr + 1)), (.cmd, s.params.cmdStart)]
          ++ (List.range pairs.length).map (fun i =>
              (.cmd, if i + 1 = pairs.length then s.params.cmdReadNack else s.params.cmdReadAck))
          ++ [(.cmd, s.params.cmdStop)]

/-! ### Submission, arm, recovery -/

/-- R201: validate touches no state but its answer, and fails exactly on the rule's conditions. -/
def Obligations.ValidateChecksTheList : Prop :=
  ∀ (s : State) (msgs : MsgList), ∃ ok : Bool, exec (.validate msgs) s = .next { s with ret := .valid ok }
    ∧ (ok = false ↔ match msgs with
        | none => True
        | some l => l.length = 0 ∨ (∃ m ∈ l, m.buf = none) ∨ (∃ m ∈ l, 0x7F < m.addr) ∨ (∃ m ∈ l, m.cap < m.len)
            ∨ (∃ m ∈ l, m.recvlen = true ∧ m.rd = true ∧ m.cap < m.len + 32)
            ∨ ∃ i m, 1 ≤ i ∧ l[i]? = some m ∧ m.nostart = true ∧ m.len = 0)

/-- R201 "rejected pre-arm": a list that validate refuses leaves everything as it was, of submit and (log 10) of arm, and the
caller gets ParameterError. -/
def Obligations.MalformedListsAreNotArmed : Prop :=
  ∀ (s : State) (msgs : MsgList), s.claim = .free → s.configureFailed = false → listLegal msgs = false →
    (s.configured = true → exec (.submit msgs) s = .next { s with ret := .result none .parameter })
    ∧ exec (.arm msgs) s = .next { s with ret := .result none .parameter }

/-- R202, the common case (lock free, no arbitration lost): STATUS, CONTROL, IEN per mode, DATA and START, in this order, and the
transaction's state. -/
def Obligations.ArmStartsTheTransaction : Prop :=
  ∀ (s : State) (m : Message) (l : List Message), s.env.level = .oracle → s.claim = .free →
    s.configureFailed = false → listLegal (some (m :: l)) = true → s.lock = .free → s.params.al (statusRead s) = false →
    ∃ t e1 e2 ctrl, exec (.arm (some (m :: l))) s = .next t ∧ e1.readOf s .cmd (statusRead s)
      ∧ e2.readOf s .control ctrl
      ∧ Accessed s t [e1, e2,
          wEvent s .control (if s.mode = .interrupt then ctrl ||| s.params.ctrlIen else ctrl &&& ~~~s.params.ctrlIen),
          wEvent s .data (addrByte m), cEvent s .start]
      ∧ t = { s with msgs := some (m :: l), cursor := 0, position := 0, phase := .start, err := .none,
                     completion := false, claim := .submission, ret := .nothing, env := t.env }

/-- R202 with R230: arbitration lost at arm. Recovery runs first, with its own accesses; when it is over the rest of arm follows
at once, and while it is still waiting the lock is kept (log 12). A held lock makes arm wait (R76). -/
def Obligations.ArmRecoversFirst : Prop :=
  ∀ (s : State) (m : Message) (l : List Message), s.env.level = .oracle → s.claim = .free →
    s.configureFailed = false → listLegal (some (m :: l)) = true →
    (∀ r, s.lock = .free → s.params.al (statusRead s) = true → exec .recover s = .next r →
      (r.todo = s.todo → ∃ t ev ctrl, exec (.arm (some (m :: l))) s = .next t ∧ ev.readOf s .control ctrl
        ∧ Accessed r t [ev,
            wEvent s .control (if s.mode = .interrupt then ctrl ||| s.params.ctrlIen else ctrl &&& ~~~s.params.ctrlIen),
            wEvent s .data (addrByte m), cEvent s .start]
        ∧ t = { r with msgs := some (m :: l), cursor := 0, position := 0, phase := .start, err := .none,
                       completion := false, claim := .submission, ret := .nothing, env := t.env })
      ∧ (r.todo ≠ s.todo → exec (.arm (some (m :: l))) s = .next { r with
          todo := .recoverWait :: .armTail .submission (some (m :: l)) :: s.todo, lock := .initiator, claim := .submission }))
    ∧ (s.lock ≠ .free → exec (.arm (some (m :: l))) s
        = .next { s with todo := .armStart .submission (some (m :: l)) :: s.todo, claim := .submission })

/-- R200: a submit that passes its checks is arm, with the wait and the report still to come; it completes at the trusted level
(the state after it is the one arm leaves). -/
def Obligations.SubmitArmsThenWaits : Prop :=
  ∀ (s : State) (msgs : MsgList), s.env.level = .oracle → s.configured = true → s.configureFailed = false →
    s.claim = .free → listLegal msgs = true →
    ∃ t, exec (.submit msgs) s = .next t
      ∧ exec (.arm msgs) { s with todo := .launch :: .report :: s.todo } = .next t
      ∧ t.claim = .submission ∧ (∃ w, t.todo = w ++ .launch :: .report :: s.todo)

/-- R231: recover with arbitration lost clear is exactly one STATUS read. -/
def Obligations.RecoverWritesNothingWhenNotLost : Prop :=
  ∀ s : State, s.env.level = .oracle → s.params.al (statusRead s) = false →
    ∃ t ev, exec .recover s = .next t ∧ ev.readOf s .cmd (statusRead s) ∧ Accessed s t [ev]
      ∧ t = { s with ret := .nothing, env := t.env }

/-- R230, R233 to R236: recover with arbitration lost set: IEN cleared in interrupt mode, the forced command, then a first pass
of the wait: BUSY clear or the bound exceeded ends it with acknowledge-clear; else the wait stays open (log 12) and every
later pass does the same. State, cursor, position, err and completion are untouched. -/
def Obligations.RecoverForcesAndWaits : Prop :=
  (∀ s : State, s.env.level = .oracle → s.params.al (statusRead s) = true →
    ∃ t e1 mask e2 v t0, exec .recover s = .next t ∧ e1.readOf s .cmd (statusRead s) ∧ e2.readOf s .cmd v
      ∧ (s.mode = .poll → mask = [])
      ∧ (s.mode = .interrupt → ∃ ev ctrl, ev.readOf s .control ctrl
          ∧ mask = [ev, wEvent s .control (ctrl &&& ~~~s.params.ctrlIen)])
      ∧ s.env.now ≤ t0 ∧ t0 ≤ t.env.now
      ∧ if isSet v s.params.statBusy = true ∧ t.env.now - t0 ≤ s.params.tRecoveryWait
        then AccessedInTime s t (e1 :: mask ++ [cEvent s .recover, e2])
          ∧ t = { s with todo := .recoverWait :: s.todo, t0Recovery := some t0, env := t.env }
        else AccessedInTime s t (e1 :: mask ++ [cEvent s .recover, e2, cEvent s .iack])
          ∧ t = { s with t0Recovery := none, ret := .nothing, env := t.env })
  ∧ ∀ (s : State) (moves : List Move) (rest : List Frame) (t0 : Nat), s.env.level = .oracle → InitiatorTurn s moves →
      s.todo = .recoverWait :: rest → s.t0Recovery = some t0 →
      ∃ t ev v, step s = .next t ∧ ev.readOf s .cmd v
        ∧ if isSet v s.params.statBusy = true ∧ t.env.now - t0 ≤ s.params.tRecoveryWait
          then AccessedInTime s t [ev] ∧ t = { s with schedule := moves, env := t.env }
          else AccessedInTime s t [ev, cEvent s .iack]
            ∧ t = { s with schedule := moves, todo := rest, t0Recovery := none, ret := .nothing, env := t.env }

/-! ### The scheduling adapters -/

/-- R203, R272: irq_entry: not-mine with the pending-event flag clear (no state change, no register write); with it set one step
of the sequencer; it waits for a held lock (log 12). In poll mode, where the spec never invokes it, that it does the same is the
model's choice (log 13). -/
def Obligations.IrqEntryTestsItsFlag : Prop :=
  ∀ s : State, s.env.level = .oracle →
    (s.lock = .free → s.params.pending (statusRead s) = false →
      ∃ t ev, exec .irqEntry s = .next t ∧ ev.readOf s .cmd (statusRead s) ∧ Accessed s t [ev]
        ∧ t = { s with irqRet := some .notMine, env := t.env })
    ∧ (s.lock = .free → s.params.pending (statusRead s) = true →
      ∃ u, exec .step s = .next u ∧ exec .irqEntry s = .next { u with irqRet := some .handled, ret := s.ret })
    ∧ (s.lock ≠ .free → exec .irqEntry s = .next { s with irqWaiting := true })

/-- R212: the flag that caused a delivery is down when irq_entry returns handled: every branch of the step writes a command,
and every command carries the acknowledge-clear (reference engine, enabled, nothing else happening meanwhile). That it does so
whatever bit 0 of its value is, where the command values are not the defaults, is the model's choice (log 31). -/
def Obligations.HandledMeansTheFlagIsDown : Prop :=
  ∀ s t : State, s.env.level = .reference → s.env.moves = [] → s.params.legal = true → s.lock = .free →
    isSet s.env.eng.ctr s.params.ctrlEn = true → s.env.eng.ifl = true → exec .irqEntry s = .next t →
    t.irqRet = some .handled ∧ t.env.eng.ifl = false

/-- R204: wait_irq: a terminal State ends it; else the bound `T_IRQ_WAIT` leads to the watchdog's abort; else the initiator is
suspended (log 12) and every later look does the same. No register is accessed. In poll mode, where the spec's submit does not
call it, that it does the same is the model's choice (log 13). -/
def Obligations.WaitIrqLooksAtStateThenTime : Prop :=
  (∀ s : State, s.env.level = .oracle →
    ∃ t t0, exec .waitIrq s = .next t ∧ s.env.now ≤ t0 ∧ t0 ≤ t.env.now ∧ AccessedInTime s t []
      ∧ t = if s.phase.terminal = true then { s with t0Irq := none, ret := .nothing, env := t.env }
            else if s.params.tIrqWait ≤ t.env.now - t0
            then { s with todo := .abort :: s.todo, t0Irq := none, env := t.env }
            else { s with todo := .suspended :: s.todo, t0Irq := some t0, env := t.env })
  ∧ ∀ (s : State) (moves : List Move) (rest : List Frame) (t0 : Nat), s.env.level = .oracle → InitiatorTurn s moves →
      s.todo = .suspended :: rest → s.t0Irq = some t0 →
      ∃ t, step s = .next t ∧ AccessedInTime s t []
        ∧ t = if s.phase.terminal = true
              then { s with schedule := moves, todo := rest, t0Irq := none, ret := .nothing, env := t.env }
              else if s.params.tIrqWait ≤ t.env.now - t0
              then { s with schedule := moves, todo := .abort :: rest, t0Irq := none, env := t.env }
              else { s with schedule := moves, env := t.env }

/-- R206: poll_wait: STATUS first: the awaited bit clear is true; then the bound: exceeded is false; else it goes on (log 12),
and every later pass does the same. It writes no register. -/
def Obligations.PollWaitReadsStatusFirst : Prop :=
  (∀ (s : State) (mask : Byte) (bound : Nat), s.env.level = .oracle →
    ∃ t t0 ev v, exec (.pollWait mask bound) s = .next t ∧ ev.readOf s .cmd v ∧ s.env.now ≤ t0 ∧ t0 ≤ t.env.now
      ∧ AccessedInTime s t [ev]
      ∧ t = if v &&& mask = 0 then { s with t0Poll := none, ret := .waited true, env := t.env }
            else if bound < t.env.now - t0 then { s with t0Poll := none, ret := .waited false, env := t.env }
            else { s with todo := .pollWaiting mask bound .alone :: s.todo, t0Poll := some t0, env := t.env })
  ∧ ∀ (s : State) (moves : List Move) (mask : Byte) (bound : Nat) (rest : List Frame) (t0 : Nat),
      s.env.level = .oracle → InitiatorTurn s moves → s.todo = .pollWaiting mask bound .alone :: rest →
      s.t0Poll = some t0 →
      ∃ t ev v, step s = .next t ∧ ev.readOf s .cmd v ∧ AccessedInTime s t [ev]
        ∧ t = if v &&& mask = 0
              then { s with schedule := moves, todo := rest, t0Poll := none, ret := .waited true, env := t.env }
              else if bound < t.env.now - t0
              then { s with schedule := moves, todo := rest, t0Poll := none, ret := .waited false, env := t.env }
              else { s with schedule := moves, env := t.env }

/-- R205, R215, R306: poll_loop: poll_wait on TIP, or on BUSY once State is terminal; then, and only then, one step under the
lock; the loop ends after the step that found State terminal. A wait that expires leads to the watchdog's abort, or to
terminal_wait_expired once State is terminal (log 12, 26). The first clause is the pass the call makes, the second every later
pass of its wait, which goes as poll_wait's own does. In interrupt mode, where the spec's submit does not call it, that it does
the same is the model's choice (log 13). -/
def Obligations.PollLoopStepsAtABoundary : Prop :=
  (∀ s : State, s.env.level = .oracle →
    ∃ w t, exec (.pollWait (if s.phase.terminal then s.params.statBusy else s.params.statTip) s.params.tPollWait) s = .next w
      ∧ exec .pollLoop s = .next t
      ∧ if w.todo ≠ s.todo then
          t = { w with
            todo := Frame.pollWaiting (if s.phase.terminal then s.params.statBusy else s.params.statTip)
              s.params.tPollWait (.loop s.phase.terminal) :: s.todo }
        else if w.ret ≠ .waited true then
          t = { w with todo := (if s.phase.terminal then .terminalExpired else .abort) :: s.todo, ret := s.ret }
        else if s.lock ≠ .free then t = { w with todo := .pollStep :: s.todo, ret := s.ret }
        else ∃ u, exec .step w = .next u
          ∧ t = if s.phase.terminal = true then { u with ret := .nothing }
                else { u with todo := .pollTop :: s.todo, ret := s.ret })
  ∧ ∀ (s : State) (moves : List Move) (mask : Byte) (bound : Nat) (terminal : Bool) (rest : List Frame) (t0 : Nat),
      s.env.level = .oracle → InitiatorTurn s moves → s.todo = .pollWaiting mask bound (.loop terminal) :: rest →
      s.t0Poll = some t0 →
      ∃ w t, step { s with todo := .pollWaiting mask bound .alone :: rest } = .next w ∧ step s = .next t
        ∧ if w.todo ≠ rest then t = { w with todo := .pollWaiting mask bound (.loop terminal) :: rest }
          else if w.ret ≠ .waited true then
            t = { w with todo := (if terminal then .terminalExpired else .abort) :: rest, ret := s.ret }
          else if s.lock ≠ .free then t = { w with todo := .pollStep :: rest, ret := s.ret }
          else ∃ u, exec .step w = .next u
            ∧ t = if s.phase.terminal = true then { u with ret := .nothing }
                  else { u with todo := .pollTop :: rest, ret := s.ret }

/-- R244: watchdog_abort: under the lock, State not terminal becomes ERROR with TimeoutError and one STOP, completion untouched;
a terminal State is left alone, with no register access. It waits for a held lock (log 26), and a direct call does so whether or
not a deadline has elapsed (log 30). -/
def Obligations.WatchdogAbortsOnlyARunningTransaction : Prop :=
  ∀ s : State, s.env.level = .oracle →
    (s.lock = .free → s.phase.terminal = false →
      ∃ t, exec .watchdogAbort s = .next t ∧ Accessed s t [cEvent s .stop]
        ∧ t = { s with phase := .error, err := .timeout, ret := .nothing, env := t.env })
    ∧ (s.lock = .free → s.phase.terminal = true → exec .watchdogAbort s = .next { s with ret := .nothing })
    ∧ (s.lock ≠ .free → exec .watchdogAbort s = .next { s with todo := .abort :: s.todo })

/-- R216: terminal_wait_expired, the initiator's pending work after such a wait: an error class None becomes TimeoutError with
State ERROR, a class already latched is kept; no register is accessed. It waits for a held lock (log 12). -/
def Obligations.TerminalWaitExpiryKeepsTheFirstError : Prop :=
  ∀ (s : State) (moves : List Move) (rest : List Frame), s.env.level = .oracle → InitiatorTurn s moves →
    s.todo = .terminalExpired :: rest →
    (s.lock = .free → s.err = .none →
      step s = .next { s with schedule := moves, todo := rest, phase := .error, err := .timeout, ret := .nothing })
    ∧ (s.lock = .free → s.err ≠ .none → step s = .next { s with schedule := moves, todo := rest, ret := .nothing })
    ∧ (s.lock ≠ .free → step s = .next { s with schedule := moves })

/-- R207, R45: report: the messages on success, else the error class; a terminal result ends the transaction: the list is
unbound, a new submit is accepted, State, cursor, position, err and completion keep their values. Before that nothing but
the answer changes (log 15). A direct call made while a submit or an arm has not returned ends nothing either (R208): nothing but
the answer changes. -/
def Obligations.ReportHandsBackTheResult : Prop :=
  ∀ s : State,
    (s.unreturned = false →
      (s.phase = .done → s.err = .none →
        exec .report s = .next { s with ret := .result s.msgs .none, msgs := none, claim := .free })
      ∧ (s.phase = .error ∨ s.phase = .done ∧ s.err ≠ .none →
        exec .report s = .next { s with ret := .result none s.err, msgs := none, claim := .free }))
    ∧ (s.phase.terminal = false → exec .report s = .next { s with ret := .result none s.err })
    ∧ ((∃ f ∈ s.todo, f = .report ∨ ∃ owner l, f = .armStart owner l ∨ f = .armTail owner l) →
      exec .report s = .next { s with ret := .result (if s.phase = .done ∧ s.err = .none then s.msgs else none) s.err })

/-! ### The machine -/

/-- A step runs the decoded instruction: a call's bytes are taken off the schedule and executed; nothing is added around it
(log 1). A table word placed by `withFetchWord` is such a call. -/
def Obligations.StepRunsTheDecodedCall : Prop :=
  (∀ (s : State) (bytes more : List Byte) (rest : List Move) (i : Instr), s.schedule = .call bytes :: rest →
    decode bytes = .ok (i, more) → step s = exec i { s with schedule := rest })
  ∧ ∀ (s : State) (nbits w : Nat) (i : Instr), decodeTableWord nbits w = some i →
      step (s.withFetchWord nbits w) = exec i s

/-- With no call at hand a step is the next pending work of the initiator, of the blocked interrupt context, the delivery of a
driven completion signal, or a move of the environment (R74, R153 to R155, R200, R202, R205, R211; log 1, 3, 11, 12, 23, 26). The
initiator's frames not named here: `recoverWait` is in RecoverForcesAndWaits, `suspended` in WaitIrqLooksAtStateThenTime,
`pollWaiting` in PollWaitReadsStatusFirst and PollLoopStepsAtABoundary, `terminalExpired` in
TerminalWaitExpiryKeepsTheFirstError. A pending arm goes on whether or not a configure has failed (the model's choice, log 14; no
configure runs while it is pending, log 6). -/
def Obligations.StepGoesOnWithPendingWork : Prop :=
  (∀ (s : State) (moves : List Move) (rest : List Frame), InitiatorTurn s moves →
    (s.todo = .launch :: rest → s.mode = .interrupt →
      step s = exec .waitIrq { s with schedule := moves, todo := rest })
    ∧ (s.todo = .launch :: rest → s.mode = .poll → step s = exec .pollLoop { s with schedule := moves, todo := rest })
    ∧ (s.todo = .pollTop :: rest → step s = exec .pollLoop { s with schedule := moves, todo := rest })
    ∧ (s.todo = .abort :: rest → step s = exec .watchdogAbort { s with schedule := moves, todo := rest })
    ∧ (s.todo = .report :: rest → s.env.level = .oracle →
      step s = exec .report { s with schedule := moves, todo := rest })
    ∧ (∀ l, s.todo = .armStart .submission l :: rest → s.claim = .submission → listLegal l = true →
      (s.configureFailed = false → step s = exec (.arm l) { s with schedule := moves, todo := rest, claim := .free })
      ∧ (s.env.level = .oracle →
        ∃ t, exec (.arm l) { s with schedule := moves, todo := rest, claim := .free, configureFailed := false } = .next t
          ∧ step s = .next { t with configureFailed := s.configureFailed }))
    ∧ (∀ m : Message, s.todo = .armStart .program (some [m]) :: rest → s.claim = .program → s.phase.terminal = true →
      m.legal false = true →
      (s.configureFailed = false → step s = exec m.instr { s with schedule := moves, todo := rest, claim := .free })
      ∧ (s.env.level = .oracle →
        ∃ t, exec m.instr { s with schedule := moves, todo := rest, claim := .free, configureFailed := false } = .next t
          ∧ step s = .next { t with configureFailed := s.configureFailed }))
    ∧ (∀ owner m l, s.todo = .armTail owner (some (m :: l)) :: rest → s.env.level = .oracle →
      ∃ t ev ctrl, step s = .next t ∧ ev.readOf s .control ctrl
        ∧ Accessed s t [ev,
            wEvent s .control (if s.mode = .interrupt then ctrl ||| s.params.ctrlIen else ctrl &&& ~~~s.params.ctrlIen),
            wEvent s .data (addrByte m), cEvent s .start]
        ∧ t = { s with schedule := moves, todo := rest, msgs := some (m :: l), cursor := 0, position := 0, phase := .start,
                       err := .none, completion := false, claim := owner, lock := .free, ret := .nothing, env := t.env })
    ∧ (s.todo = .pollStep :: rest → s.env.level = .oracle → s.lock = .free →
      ∃ u, exec .step { s with schedule := moves, todo := rest } = .next u
        ∧ step s = .next (if s.phase.terminal = true then { u with ret := .nothing }
            else { u with todo := .pollTop :: rest, ret := s.ret }))
    ∧ (s.todo = .pollStep :: rest → s.env.level = .oracle → s.lock ≠ .free → step s = .next { s with schedule := moves }))
  ∧ (∀ (s : State) (moves : List Move), s.schedule = [] ∧ s.todo = [] ∧ moves = [] ∨ s.schedule = .interrupt :: moves →
      (s.irqWaiting = true → s.lock = .free →
        step s = exec .irqEntry { s with schedule := moves, irqWaiting := false })
      ∧ (s.irqWaiting = false ∨ s.lock ≠ .free → s.env.level = .oracle → step s = .next { s with schedule := moves }))
  ∧ (∀ (s : State) (moves : List Move), s.schedule = .initiator :: moves → s.todo = [] → s.env.level = .oracle →
      step s = .next { s with schedule := moves })
  ∧ (∀ (s : State) (moves : List Move), s.schedule = .deliver :: moves →
      (s.env.level = .oracle ∨ s.env.eng.ifl = true → isSet s.env.eng.ctr s.params.ctrlIen = true →
        step s = exec .irqEntry { s with schedule := moves })
      ∧ (s.env.level = .oracle → isSet s.env.eng.ctr s.params.ctrlIen = false → step s = .next { s with schedule := moves })
      ∧ (s.env.level = .reference → s.env.refusal = none →
          s.env.eng.ifl = false ∨ isSet s.env.eng.ctr s.params.ctrlIen = false →
        step s = .next { s with schedule := moves }))
  ∧ ∀ (s : State) (mv : EnvMove) (moves : List Move), s.schedule = .environment mv :: moves →
      (s.env.level = .oracle → step s = .next { s with schedule := moves })
      ∧ (s.env.level = .reference → s.env.refusal = none →
        ∃ t u, step s = .next t ∧ t = { s with schedule := moves, env := t.env }
          ∧ t.env = { s.env with eng := t.env.eng, target := t.env.target }
          ∧ exec (.getreg .cmd) { s with env := { s.env with moves := [[mv]] } } = .next u
          ∧ t.env.eng = u.env.eng ∧ t.env.target = u.env.target)

/-- R46, R290: the values the spec gives for reset (what it leaves unspecified is the model's choice, log 5, 6, and not stated
here). The last clause is no value of those rules: that the parameters, carried in State, stand at R9's defaults is the model's
choice (log 8; `TICK` and `LEN_MAX`, which R9 leaves open, log 7, 8). -/
def Obligations.ResetHasTheSpecsValues : Prop :=
  State.reset.phase = .done ∧ State.reset.cursor = 0 ∧ State.reset.position = 0 ∧ State.reset.err = .none
    ∧ State.reset.completion = false ∧ State.reset.lock = .free ∧ State.reset.msgs = none
    ∧ State.reset.configured = false ∧ State.reset.t0Irq = none ∧ State.reset.t0Poll = none
    ∧ State.reset.t0Recovery = none ∧ State.reset.params = Params.default

/-- The invariant `Inv` (R34, R38, R43, R44, R77, R78, R208) holds after reset. -/
def Obligations.InvAtReset : Prop := Inv State.reset

/-- Every step of the machine keeps `Inv`, at both levels, from every state that has it. -/
def Obligations.StepKeepsInv : Prop := ∀ s t : State, Inv s → step s = .next t → Inv t

/-- R40, R34, R134, R13, R240, at both levels: no step undoes the configuration or its failure, changes the parameters, the history so
far, or turns time back. R34: while a transaction is open mode, and with it DeviceConfig, does not change. -/
def Obligations.NoStepUndoesThePast : Prop :=
  ∀ s t : State, step s = .next t →
    t.params = s.params ∧ (∃ evs, t.env.trace = s.env.trace ++ evs) ∧ s.env.now ≤ t.env.now
      ∧ (s.configured = true ∨ s.configureFailed = true →
          t.configured = s.configured ∧ t.configureFailed = s.configureFailed ∧ t.dev = s.dev ∧ t.mode = s.mode)
      ∧ (s.claim ≠ .free ∨ Inv s ∧ s.phase.terminal = false → t.mode = s.mode ∧ t.dev = s.dev)

/-- R104, R140, at both levels: every byte the block writes to COMMAND is one of the seven; only a direct setreg can write
another. -/
def Obligations.OnlyTheSevenCommandsAreWritten : Prop :=
  ∀ s t : State, step s = .next t →
    (∀ bytes rest more id v, s.schedule = .call bytes :: rest → decode bytes ≠ .ok (.setreg id v, more)) →
    ∀ ev ∈ eventsSince s t, ev.writes .cmd = true → ∃ c : Command, ev = cEvent t c

/-- R35, R275, R276, at both levels: once ERROR with a class is latched, every step keeps both, until the next arm (a
first message arms too, log 9) sets START and clears the class. -/
def Obligations.TheFirstErrorStays : Prop :=
  ∀ s t : State, step s = .next t → s.phase = .error → s.err ≠ .none →
    t.phase = .error ∧ t.err = s.err ∨ t.phase = .start ∧ t.err = .none
end

