-- ==== Sys2Proof/Laws/Decode.lean ====
section
/-! SUPPORT. Each operand's reader gives back what its writer wrote, and leaves the bytes after it. -/

namespace Sys2Proof

theorem takeNat_putNat (n : Nat) (r : List Byte) : takeNat (putNat n ++ r) = .ok (n, r) := by
  have key : ∀ fuel n, n ≤ fuel → takeNat (putNatFuel fuel n ++ r) = .ok (n, r) := by
    intro fuel
    induction fuel with
    | zero => intro n h; have : n = 0 := by omega
              subst this; simp [putNatFuel, takeNat]
    | succ f ih =>
      intro n h
      simp only [putNatFuel]
      split
      · simp [takeNat]
        have : n % 256 = n := by omega
        rw [this, if_pos (by assumption)]
      · simp only [List.cons_append, takeNat]
        have e : (BitVec.ofNat 8 (n % 128 + 128)).toNat = n % 128 + 128 := by simp; omega
        rw [e, if_neg (by omega), ih (n/128) (by omega)]
        simp; omega
  exact key n n (le_refl n)

theorem takeBool_putBool (b : Bool) (r : List Byte) : takeBool (putBool b ++ r) = .ok (b, r) := by
  cases b <;> simp [takeBool, putBool, takeByte]

theorem takeBytes_append (l r : List Byte) : takeBytes l.length (l ++ r) = .ok (l, r) := by
  induction l with
  | nil => rfl
  | cons a l ih => simp [takeBytes, takeByte, ih]

theorem takeBuf_putBuf (b : Option (List Byte)) (r : List Byte) : takeBuf (putBuf b ++ r) = .ok (b, r) := by
  cases b with
  | none => simp [takeBuf, putBuf, takeBool, takeByte]
  | some l => simp [takeBuf, putBuf, takeBool, takeByte, takeNat_putNat, takeBytes_append]

theorem takeOperands_putOperands (o : MsgOperands) (r : List Byte) : takeOperands (putOperands o ++ r) = .ok (o, r) := by
  simp [takeOperands, putOperands, takeNat_putNat, takeBuf_putBuf]

theorem takeMessage_putMessage (m : Message) (r : List Byte) : takeMessage (putMessage m ++ r) = .ok (m, r) := by
  obtain ⟨a, rd, ns, rl, len, buf⟩ := m
  simp only [takeMessage, putMessage, List.cons_append, takeByte]
  cases rd <;> cases ns <;> cases rl <;> simp [kindOf, takeOperands_putOperands, messageOfKind] <;> decide

theorem takeMessages_flatten (l : List Message) (r : List Byte) : takeMessages l.length ((l.map putMessage).flatten ++ r) = .ok (l, r) := by
  induction l with
  | nil => rfl
  | cons a l ih => simp [takeMessages, takeMessage_putMessage, ih]

theorem takeMsgList_putMsgList (l : MsgList) (r : List Byte) : takeMsgList (putMsgList l ++ r) = .ok (l, r) := by
  cases l with
  | none => simp [takeMsgList, putMsgList, takeBool, takeByte]
  | some l => simp [takeMsgList, putMsgList, takeBool, takeByte, takeNat_putNat, takeMessages_flatten]

theorem takeReg_putReg (i : RegId) (r : List Byte) : takeReg (putReg i ++ r) = .ok (i, r) := by cases i <;> rfl

theorem takeSurface_putSurface (c : Surface) (r : List Byte) : takeSurface (putSurface c ++ r) = .ok (c, r) := by
  obtain ⟨a,b,w,e,m,sh,ba⟩ := c
  cases e <;> cases m <;> simp [takeSurface, putSurface, takeNat_putNat, takeBool_putBool]

end Sys2Proof
end

