-- ==== Sys2Proof/Laws/State.lean ====
section
/-! SUPPORT. One lemma per field per named update of the state, true by unfolding: register accesses, commands, the clock and
buffer reads change `env` alone; the other updates change the field they name. -/

namespace Sys2Proof.Machine

@[simp] theorem setreg_params (id : RegId) (v : Byte) (s : State) : (setreg id v s).params = s.params := rfl
@[simp] theorem setreg_dev (id : RegId) (v : Byte) (s : State) : (setreg id v s).dev = s.dev := rfl
@[simp] theorem setreg_configured (id : RegId) (v : Byte) (s : State) : (setreg id v s).configured = s.configured := rfl
@[simp] theorem setreg_configureFailed (id : RegId) (v : Byte) (s : State) : (setreg id v s).configureFailed
    = s.configureFailed := rfl
@[simp] theorem setreg_mode (id : RegId) (v : Byte) (s : State) : (setreg id v s).mode = s.mode := rfl
@[simp] theorem setreg_msgs (id : RegId) (v : Byte) (s : State) : (setreg id v s).msgs = s.msgs := rfl
@[simp] theorem setreg_cursor (id : RegId) (v : Byte) (s : State) : (setreg id v s).cursor = s.cursor := rfl
@[simp] theorem setreg_position (id : RegId) (v : Byte) (s : State) : (setreg id v s).position = s.position := rfl
@[simp] theorem setreg_phase (id : RegId) (v : Byte) (s : State) : (setreg id v s).phase = s.phase := rfl
@[simp] theorem setreg_err (id : RegId) (v : Byte) (s : State) : (setreg id v s).err = s.err := rfl
@[simp] theorem setreg_completion (id : RegId) (v : Byte) (s : State) : (setreg id v s).completion = s.completion := rfl
@[simp] theorem setreg_lock (id : RegId) (v : Byte) (s : State) : (setreg id v s).lock = s.lock := rfl
@[simp] theorem setreg_claim (id : RegId) (v : Byte) (s : State) : (setreg id v s).claim = s.claim := rfl
@[simp] theorem setreg_todo (id : RegId) (v : Byte) (s : State) : (setreg id v s).todo = s.todo := rfl
@[simp] theorem setreg_irqWaiting (id : RegId) (v : Byte) (s : State) : (setreg id v s).irqWaiting = s.irqWaiting := rfl
@[simp] theorem setreg_ret (id : RegId) (v : Byte) (s : State) : (setreg id v s).ret = s.ret := rfl
@[simp] theorem setreg_irqRet (id : RegId) (v : Byte) (s : State) : (setreg id v s).irqRet = s.irqRet := rfl
@[simp] theorem setreg_t0Irq (id : RegId) (v : Byte) (s : State) : (setreg id v s).t0Irq = s.t0Irq := rfl
@[simp] theorem setreg_t0Poll (id : RegId) (v : Byte) (s : State) : (setreg id v s).t0Poll = s.t0Poll := rfl
@[simp] theorem setreg_t0Recovery (id : RegId) (v : Byte) (s : State) : (setreg id v s).t0Recovery = s.t0Recovery := rfl
@[simp] theorem setreg_schedule (id : RegId) (v : Byte) (s : State) : (setreg id v s).schedule = s.schedule := rfl

@[simp] theorem getreg_params (id : RegId) (s : State) : (getreg id s).2.params = s.params := rfl
@[simp] theorem getreg_dev (id : RegId) (s : State) : (getreg id s).2.dev = s.dev := rfl
@[simp] theorem getreg_configured (id : RegId) (s : State) : (getreg id s).2.configured = s.configured := rfl
@[simp] theorem getreg_configureFailed (id : RegId) (s : State) : (getreg id s).2.configureFailed = s.configureFailed := rfl
@[simp] theorem getreg_mode (id : RegId) (s : State) : (getreg id s).2.mode = s.mode := rfl
@[simp] theorem getreg_msgs (id : RegId) (s : State) : (getreg id s).2.msgs = s.msgs := rfl
@[simp] theorem getreg_cursor (id : RegId) (s : State) : (getreg id s).2.cursor = s.cursor := rfl
@[simp] theorem getreg_position (id : RegId) (s : State) : (getreg id s).2.position = s.position := rfl
@[simp] theorem getreg_phase (id : RegId) (s : State) : (getreg id s).2.phase = s.phase := rfl
@[simp] theorem getreg_err (id : RegId) (s : State) : (getreg id s).2.err = s.err := rfl
@[simp] theorem getreg_completion (id : RegId) (s : State) : (getreg id s).2.completion = s.completion := rfl
@[simp] theorem getreg_lock (id : RegId) (s : State) : (getreg id s).2.lock = s.lock := rfl
@[simp] theorem getreg_claim (id : RegId) (s : State) : (getreg id s).2.claim = s.claim := rfl
@[simp] theorem getreg_todo (id : RegId) (s : State) : (getreg id s).2.todo = s.todo := rfl
@[simp] theorem getreg_irqWaiting (id : RegId) (s : State) : (getreg id s).2.irqWaiting = s.irqWaiting := rfl
@[simp] theorem getreg_ret (id : RegId) (s : State) : (getreg id s).2.ret = s.ret := rfl
@[simp] theorem getreg_irqRet (id : RegId) (s : State) : (getreg id s).2.irqRet = s.irqRet := rfl
@[simp] theorem getreg_t0Irq (id : RegId) (s : State) : (getreg id s).2.t0Irq = s.t0Irq := rfl
@[simp] theorem getreg_t0Poll (id : RegId) (s : State) : (getreg id s).2.t0Poll = s.t0Poll := rfl
@[simp] theorem getreg_t0Recovery (id : RegId) (s : State) : (getreg id s).2.t0Recovery = s.t0Recovery := rfl
@[simp] theorem getreg_schedule (id : RegId) (s : State) : (getreg id s).2.schedule = s.schedule := rfl

@[simp] theorem sendCmd_params (c : Command) (s : State) : (sendCmd c s).params = s.params := rfl
@[simp] theorem sendCmd_dev (c : Command) (s : State) : (sendCmd c s).dev = s.dev := rfl
@[simp] theorem sendCmd_configured (c : Command) (s : State) : (sendCmd c s).configured = s.configured := rfl
@[simp] theorem sendCmd_configureFailed (c : Command) (s : State) : (sendCmd c s).configureFailed = s.configureFailed := rfl
@[simp] theorem sendCmd_mode (c : Command) (s : State) : (sendCmd c s).mode = s.mode := rfl
@[simp] theorem sendCmd_msgs (c : Command) (s : State) : (sendCmd c s).msgs = s.msgs := rfl
@[simp] theorem sendCmd_cursor (c : Command) (s : State) : (sendCmd c s).cursor = s.cursor := rfl
@[simp] theorem sendCmd_position (c : Command) (s : State) : (sendCmd c s).position = s.position := rfl
@[simp] theorem sendCmd_phase (c : Command) (s : State) : (sendCmd c s).phase = s.phase := rfl
@[simp] theorem sendCmd_err (c : Command) (s : State) : (sendCmd c s).err = s.err := rfl
@[simp] theorem sendCmd_completion (c : Command) (s : State) : (sendCmd c s).completion = s.completion := rfl
@[simp] theorem sendCmd_lock (c : Command) (s : State) : (sendCmd c s).lock = s.lock := rfl
@[simp] theorem sendCmd_claim (c : Command) (s : State) : (sendCmd c s).claim = s.claim := rfl
@[simp] theorem sendCmd_todo (c : Command) (s : State) : (sendCmd c s).todo = s.todo := rfl
@[simp] theorem sendCmd_irqWaiting (c : Command) (s : State) : (sendCmd c s).irqWaiting = s.irqWaiting := rfl
@[simp] theorem sendCmd_ret (c : Command) (s : State) : (sendCmd c s).ret = s.ret := rfl
@[simp] theorem sendCmd_irqRet (c : Command) (s : State) : (sendCmd c s).irqRet = s.irqRet := rfl
@[simp] theorem sendCmd_t0Irq (c : Command) (s : State) : (sendCmd c s).t0Irq = s.t0Irq := rfl
@[simp] theorem sendCmd_t0Poll (c : Command) (s : State) : (sendCmd c s).t0Poll = s.t0Poll := rfl
@[simp] theorem sendCmd_t0Recovery (c : Command) (s : State) : (sendCmd c s).t0Recovery = s.t0Recovery := rfl
@[simp] theorem sendCmd_schedule (c : Command) (s : State) : (sendCmd c s).schedule = s.schedule := rfl

@[simp] theorem readClock_params (s : State) : (readClock s).2.params = s.params := rfl
@[simp] theorem readClock_dev (s : State) : (readClock s).2.dev = s.dev := rfl
@[simp] theorem readClock_configured (s : State) : (readClock s).2.configured = s.configured := rfl
@[simp] theorem readClock_configureFailed (s : State) : (readClock s).2.configureFailed = s.configureFailed := rfl
@[simp] theorem readClock_mode (s : State) : (readClock s).2.mode = s.mode := rfl
@[simp] theorem readClock_msgs (s : State) : (readClock s).2.msgs = s.msgs := rfl
@[simp] theorem readClock_cursor (s : State) : (readClock s).2.cursor = s.cursor := rfl
@[simp] theorem readClock_position (s : State) : (readClock s).2.position = s.position := rfl
@[simp] theorem readClock_phase (s : State) : (readClock s).2.phase = s.phase := rfl
@[simp] theorem readClock_err (s : State) : (readClock s).2.err = s.err := rfl
@[simp] theorem readClock_completion (s : State) : (readClock s).2.completion = s.completion := rfl
@[simp] theorem readClock_lock (s : State) : (readClock s).2.lock = s.lock := rfl
@[simp] theorem readClock_claim (s : State) : (readClock s).2.claim = s.claim := rfl
@[simp] theorem readClock_todo (s : State) : (readClock s).2.todo = s.todo := rfl
@[simp] theorem readClock_irqWaiting (s : State) : (readClock s).2.irqWaiting = s.irqWaiting := rfl
@[simp] theorem readClock_ret (s : State) : (readClock s).2.ret = s.ret := rfl
@[simp] theorem readClock_irqRet (s : State) : (readClock s).2.irqRet = s.irqRet := rfl
@[simp] theorem readClock_t0Irq (s : State) : (readClock s).2.t0Irq = s.t0Irq := rfl
@[simp] theorem readClock_t0Poll (s : State) : (readClock s).2.t0Poll = s.t0Poll := rfl
@[simp] theorem readClock_t0Recovery (s : State) : (readClock s).2.t0Recovery = s.t0Recovery := rfl
@[simp] theorem readClock_schedule (s : State) : (readClock s).2.schedule = s.schedule := rfl

/-- Reading a buffer byte changes at most the environment (a free byte is drawn where there is none). -/
theorem readBuf_eq (m : Message) (i : Nat) (s : State) : ∃ e, (readBuf m i s).2 = { s with env := e } := by
  unfold readBuf
  cases m.byteAt i with
  | some b => exact ⟨s.env, rfl⟩
  | none => exact ⟨_, rfl⟩

@[simp] theorem readBuf_params (m : Message) (i : Nat) (s : State) : (readBuf m i s).2.params = s.params := by
  obtain ⟨e, h⟩ := readBuf_eq m i s
  rw [h]
@[simp] theorem readBuf_dev (m : Message) (i : Nat) (s : State) : (readBuf m i s).2.dev = s.dev := by
  obtain ⟨e, h⟩ := readBuf_eq m i s
  rw [h]
@[simp] theorem readBuf_configured (m : Message) (i : Nat) (s : State) : (readBuf m i s).2.configured = s.configured := by
  obtain ⟨e, h⟩ := readBuf_eq m i s
  rw [h]
@[simp] theorem readBuf_configureFailed (m : Message) (i : Nat) (s : State) : (readBuf m i s).2.configureFailed
    = s.configureFailed := by
  obtain ⟨e, h⟩ := readBuf_eq m i s
  rw [h]
@[simp] theorem readBuf_mode (m : Message) (i : Nat) (s : State) : (readBuf m i s).2.mode = s.mode := by
  obtain ⟨e, h⟩ := readBuf_eq m i s
  rw [h]
@[simp] theorem readBuf_msgs (m : Message) (i : Nat) (s : State) : (readBuf m i s).2.msgs = s.msgs := by
  obtain ⟨e, h⟩ := readBuf_eq m i s
  rw [h]
@[simp] theorem readBuf_cursor (m : Message) (i : Nat) (s : State) : (readBuf m i s).2.cursor = s.cursor := by
  obtain ⟨e, h⟩ := readBuf_eq m i s
  rw [h]
@[simp] theorem readBuf_position (m : Message) (i : Nat) (s : State) : (readBuf m i s).2.position = s.position := by
  obtain ⟨e, h⟩ := readBuf_eq m i s
  rw [h]
@[simp] theorem readBuf_phase (m : Message) (i : Nat) (s : State) : (readBuf m i s).2.phase = s.phase := by
  obtain ⟨e, h⟩ := readBuf_eq m i s
  rw [h]
@[simp] theorem readBuf_err (m : Message) (i : Nat) (s : State) : (readBuf m i s).2.err = s.err := by
  obtain ⟨e, h⟩ := readBuf_eq m i s
  rw [h]
@[simp] theorem readBuf_completion (m : Message) (i : Nat) (s : State) : (readBuf m i s).2.completion = s.completion := by
  obtain ⟨e, h⟩ := readBuf_eq m i s
  rw [h]
@[simp] theorem readBuf_lock (m : Message) (i : Nat) (s : State) : (readBuf m i s).2.lock = s.lock := by
  obtain ⟨e, h⟩ := readBuf_eq m i s
  rw [h]
@[simp] theorem readBuf_claim (m : Message) (i : Nat) (s : State) : (readBuf m i s).2.claim = s.claim := by
  obtain ⟨e, h⟩ := readBuf_eq m i s
  rw [h]
@[simp] theorem readBuf_todo (m : Message) (i : Nat) (s : State) : (readBuf m i s).2.todo = s.todo := by
  obtain ⟨e, h⟩ := readBuf_eq m i s
  rw [h]
@[simp] theorem readBuf_irqWaiting (m : Message) (i : Nat) (s : State) : (readBuf m i s).2.irqWaiting = s.irqWaiting := by
  obtain ⟨e, h⟩ := readBuf_eq m i s
  rw [h]
@[simp] theorem readBuf_ret (m : Message) (i : Nat) (s : State) : (readBuf m i s).2.ret = s.ret := by
  obtain ⟨e, h⟩ := readBuf_eq m i s
  rw [h]
@[simp] theorem readBuf_irqRet (m : Message) (i : Nat) (s : State) : (readBuf m i s).2.irqRet = s.irqRet := by
  obtain ⟨e, h⟩ := readBuf_eq m i s
  rw [h]
@[simp] theorem readBuf_t0Irq (m : Message) (i : Nat) (s : State) : (readBuf m i s).2.t0Irq = s.t0Irq := by
  obtain ⟨e, h⟩ := readBuf_eq m i s
  rw [h]
@[simp] theorem readBuf_t0Poll (m : Message) (i : Nat) (s : State) : (readBuf m i s).2.t0Poll = s.t0Poll := by
  obtain ⟨e, h⟩ := readBuf_eq m i s
  rw [h]
@[simp] theorem readBuf_t0Recovery (m : Message) (i : Nat) (s : State) : (readBuf m i s).2.t0Recovery = s.t0Recovery := by
  obtain ⟨e, h⟩ := readBuf_eq m i s
  rw [h]
@[simp] theorem readBuf_schedule (m : Message) (i : Nat) (s : State) : (readBuf m i s).2.schedule = s.schedule := by
  obtain ⟨e, h⟩ := readBuf_eq m i s
  rw [h]

@[simp] theorem sendAddress_params (m : Message) (s : State) : (sendAddress m s).params = s.params := rfl
@[simp] theorem sendAddress_dev (m : Message) (s : State) : (sendAddress m s).dev = s.dev := rfl
@[simp] theorem sendAddress_configured (m : Message) (s : State) : (sendAddress m s).configured = s.configured := rfl
@[simp] theorem sendAddress_configureFailed (m : Message) (s : State) : (sendAddress m s).configureFailed
    = s.configureFailed := rfl
@[simp] theorem sendAddress_mode (m : Message) (s : State) : (sendAddress m s).mode = s.mode := rfl
@[simp] theorem sendAddress_msgs (m : Message) (s : State) : (sendAddress m s).msgs = s.msgs := rfl
@[simp] theorem sendAddress_cursor (m : Message) (s : State) : (sendAddress m s).cursor = s.cursor := rfl
@[simp] theorem sendAddress_position (m : Message) (s : State) : (sendAddress m s).position = s.position := rfl
@[simp] theorem sendAddress_phase (m : Message) (s : State) : (sendAddress m s).phase = s.phase := rfl
@[simp] theorem sendAddress_err (m : Message) (s : State) : (sendAddress m s).err = s.err := rfl
@[simp] theorem sendAddress_completion (m : Message) (s : State) : (sendAddress m s).completion = s.completion := rfl
@[simp] theorem sendAddress_lock (m : Message) (s : State) : (sendAddress m s).lock = s.lock := rfl
@[simp] theorem sendAddress_claim (m : Message) (s : State) : (sendAddress m s).claim = s.claim := rfl
@[simp] theorem sendAddress_todo (m : Message) (s : State) : (sendAddress m s).todo = s.todo := rfl
@[simp] theorem sendAddress_irqWaiting (m : Message) (s : State) : (sendAddress m s).irqWaiting = s.irqWaiting := rfl
@[simp] theorem sendAddress_ret (m : Message) (s : State) : (sendAddress m s).ret = s.ret := rfl
@[simp] theorem sendAddress_irqRet (m : Message) (s : State) : (sendAddress m s).irqRet = s.irqRet := rfl
@[simp] theorem sendAddress_t0Irq (m : Message) (s : State) : (sendAddress m s).t0Irq = s.t0Irq := rfl
@[simp] theorem sendAddress_t0Poll (m : Message) (s : State) : (sendAddress m s).t0Poll = s.t0Poll := rfl
@[simp] theorem sendAddress_t0Recovery (m : Message) (s : State) : (sendAddress m s).t0Recovery = s.t0Recovery := rfl
@[simp] theorem sendAddress_schedule (m : Message) (s : State) : (sendAddress m s).schedule = s.schedule := rfl

@[simp] theorem release_params (s : State) : (release s).params = s.params := rfl
@[simp] theorem acquire_params (w : Lock) (s : State) : (acquire w s).params = s.params := rfl
@[simp] theorem release_dev (s : State) : (release s).dev = s.dev := rfl
@[simp] theorem acquire_dev (w : Lock) (s : State) : (acquire w s).dev = s.dev := rfl
@[simp] theorem release_configured (s : State) : (release s).configured = s.configured := rfl
@[simp] theorem release_configureFailed (s : State) : (release s).configureFailed = s.configureFailed := rfl
@[simp] theorem acquire_configured (w : Lock) (s : State) : (acquire w s).configured = s.configured := rfl
@[simp] theorem acquire_configureFailed (w : Lock) (s : State) : (acquire w s).configureFailed = s.configureFailed := rfl
@[simp] theorem release_mode (s : State) : (release s).mode = s.mode := rfl
@[simp] theorem acquire_mode (w : Lock) (s : State) : (acquire w s).mode = s.mode := rfl
@[simp] theorem release_msgs (s : State) : (release s).msgs = s.msgs := rfl
@[simp] theorem acquire_msgs (w : Lock) (s : State) : (acquire w s).msgs = s.msgs := rfl
@[simp] theorem release_cursor (s : State) : (release s).cursor = s.cursor := rfl
@[simp] theorem acquire_cursor (w : Lock) (s : State) : (acquire w s).cursor = s.cursor := rfl
@[simp] theorem release_position (s : State) : (release s).position = s.position := rfl
@[simp] theorem acquire_position (w : Lock) (s : State) : (acquire w s).position = s.position := rfl
@[simp] theorem release_phase (s : State) : (release s).phase = s.phase := rfl
@[simp] theorem acquire_phase (w : Lock) (s : State) : (acquire w s).phase = s.phase := rfl
@[simp] theorem release_err (s : State) : (release s).err = s.err := rfl
@[simp] theorem acquire_err (w : Lock) (s : State) : (acquire w s).err = s.err := rfl
@[simp] theorem release_completion (s : State) : (release s).completion = s.completion := rfl
@[simp] theorem acquire_completion (w : Lock) (s : State) : (acquire w s).completion = s.completion := rfl
@[simp] theorem release_claim (s : State) : (release s).claim = s.claim := rfl
@[simp] theorem acquire_claim (w : Lock) (s : State) : (acquire w s).claim = s.claim := rfl
@[simp] theorem release_todo (s : State) : (release s).todo = s.todo := rfl
@[simp] theorem acquire_todo (w : Lock) (s : State) : (acquire w s).todo = s.todo := rfl
@[simp] theorem release_irqWaiting (s : State) : (release s).irqWaiting = s.irqWaiting := rfl
@[simp] theorem acquire_irqWaiting (w : Lock) (s : State) : (acquire w s).irqWaiting = s.irqWaiting := rfl
@[simp] theorem release_ret (s : State) : (release s).ret = s.ret := rfl
@[simp] theorem acquire_ret (w : Lock) (s : State) : (acquire w s).ret = s.ret := rfl
@[simp] theorem release_irqRet (s : State) : (release s).irqRet = s.irqRet := rfl
@[simp] theorem acquire_irqRet (w : Lock) (s : State) : (acquire w s).irqRet = s.irqRet := rfl
@[simp] theorem release_t0Irq (s : State) : (release s).t0Irq = s.t0Irq := rfl
@[simp] theorem acquire_t0Irq (w : Lock) (s : State) : (acquire w s).t0Irq = s.t0Irq := rfl
@[simp] theorem release_t0Poll (s : State) : (release s).t0Poll = s.t0Poll := rfl
@[simp] theorem acquire_t0Poll (w : Lock) (s : State) : (acquire w s).t0Poll = s.t0Poll := rfl
@[simp] theorem release_t0Recovery (s : State) : (release s).t0Recovery = s.t0Recovery := rfl
@[simp] theorem acquire_t0Recovery (w : Lock) (s : State) : (acquire w s).t0Recovery = s.t0Recovery := rfl
@[simp] theorem release_schedule (s : State) : (release s).schedule = s.schedule := rfl
@[simp] theorem acquire_schedule (w : Lock) (s : State) : (acquire w s).schedule = s.schedule := rfl
@[simp] theorem release_env (s : State) : (release s).env = s.env := rfl
@[simp] theorem acquire_env (w : Lock) (s : State) : (acquire w s).env = s.env := rfl
@[simp] theorem release_lock (s : State) : (release s).lock = .free := rfl
@[simp] theorem acquire_lock (w : Lock) (s : State) : (acquire w s).lock = w := rfl

@[simp] theorem push_params (f : Frame) (s : State) : (push f s).params = s.params := rfl
@[simp] theorem push_dev (f : Frame) (s : State) : (push f s).dev = s.dev := rfl
@[simp] theorem push_configured (f : Frame) (s : State) : (push f s).configured = s.configured := rfl
@[simp] theorem push_configureFailed (f : Frame) (s : State) : (push f s).configureFailed = s.configureFailed := rfl
@[simp] theorem push_mode (f : Frame) (s : State) : (push f s).mode = s.mode := rfl
@[simp] theorem push_msgs (f : Frame) (s : State) : (push f s).msgs = s.msgs := rfl
@[simp] theorem push_cursor (f : Frame) (s : State) : (push f s).cursor = s.cursor := rfl
@[simp] theorem push_position (f : Frame) (s : State) : (push f s).position = s.position := rfl
@[simp] theorem push_phase (f : Frame) (s : State) : (push f s).phase = s.phase := rfl
@[simp] theorem push_err (f : Frame) (s : State) : (push f s).err = s.err := rfl
@[simp] theorem push_completion (f : Frame) (s : State) : (push f s).completion = s.completion := rfl
@[simp] theorem push_lock (f : Frame) (s : State) : (push f s).lock = s.lock := rfl
@[simp] theorem push_claim (f : Frame) (s : State) : (push f s).claim = s.claim := rfl
@[simp] theorem push_irqWaiting (f : Frame) (s : State) : (push f s).irqWaiting = s.irqWaiting := rfl
@[simp] theorem push_ret (f : Frame) (s : State) : (push f s).ret = s.ret := rfl
@[simp] theorem push_irqRet (f : Frame) (s : State) : (push f s).irqRet = s.irqRet := rfl
@[simp] theorem push_t0Irq (f : Frame) (s : State) : (push f s).t0Irq = s.t0Irq := rfl
@[simp] theorem push_t0Poll (f : Frame) (s : State) : (push f s).t0Poll = s.t0Poll := rfl
@[simp] theorem push_t0Recovery (f : Frame) (s : State) : (push f s).t0Recovery = s.t0Recovery := rfl
@[simp] theorem push_schedule (f : Frame) (s : State) : (push f s).schedule = s.schedule := rfl
@[simp] theorem push_env (f : Frame) (s : State) : (push f s).env = s.env := rfl
@[simp] theorem push_todo (f : Frame) (s : State) : (push f s).todo = f :: s.todo := rfl

@[simp] theorem returns_params (s : State) (r : Ret) : (s.returns r).params = s.params := rfl
@[simp] theorem returns_dev (s : State) (r : Ret) : (s.returns r).dev = s.dev := rfl
@[simp] theorem returns_configured (s : State) (r : Ret) : (s.returns r).configured = s.configured := rfl
@[simp] theorem returns_configureFailed (s : State) (r : Ret) : (s.returns r).configureFailed = s.configureFailed := rfl
@[simp] theorem returns_mode (s : State) (r : Ret) : (s.returns r).mode = s.mode := rfl
@[simp] theorem returns_msgs (s : State) (r : Ret) : (s.returns r).msgs = s.msgs := rfl
@[simp] theorem returns_cursor (s : State) (r : Ret) : (s.returns r).cursor = s.cursor := rfl
@[simp] theorem returns_position (s : State) (r : Ret) : (s.returns r).position = s.position := rfl
@[simp] theorem returns_phase (s : State) (r : Ret) : (s.returns r).phase = s.phase := rfl
@[simp] theorem returns_err (s : State) (r : Ret) : (s.returns r).err = s.err := rfl
@[simp] theorem returns_completion (s : State) (r : Ret) : (s.returns r).completion = s.completion := rfl
@[simp] theorem returns_lock (s : State) (r : Ret) : (s.returns r).lock = s.lock := rfl
@[simp] theorem returns_claim (s : State) (r : Ret) : (s.returns r).claim = s.claim := rfl
@[simp] theorem returns_todo (s : State) (r : Ret) : (s.returns r).todo = s.todo := rfl
@[simp] theorem returns_irqWaiting (s : State) (r : Ret) : (s.returns r).irqWaiting = s.irqWaiting := rfl
@[simp] theorem returns_irqRet (s : State) (r : Ret) : (s.returns r).irqRet = s.irqRet := rfl
@[simp] theorem returns_t0Irq (s : State) (r : Ret) : (s.returns r).t0Irq = s.t0Irq := rfl
@[simp] theorem returns_t0Poll (s : State) (r : Ret) : (s.returns r).t0Poll = s.t0Poll := rfl
@[simp] theorem returns_t0Recovery (s : State) (r : Ret) : (s.returns r).t0Recovery = s.t0Recovery := rfl
@[simp] theorem returns_schedule (s : State) (r : Ret) : (s.returns r).schedule = s.schedule := rfl
@[simp] theorem returns_env (s : State) (r : Ret) : (s.returns r).env = s.env := rfl
@[simp] theorem returns_ret (s : State) (r : Ret) : (s.returns r).ret = r := rfl

end Sys2Proof.Machine
end

