-- ==== Sys2Proof/Laws/Ops.lean ====
section
/-! SUPPORT. What each shared operation can do, once: `conclude`, one register access at the trusted level and at either
level, the clock, a buffer byte. -/

namespace Sys2Proof.Machine

/-! ### The two halves of the prescale (R96) -/

theorem joinBytes_toNat (hi lo : Byte) : (joinBytes hi lo).toNat = hi.toNat * 256 + lo.toNat := by
  show (hi ++ lo : BitVec (8 + 8)).toNat = _
  rw [BitVec.toNat_append, ← Nat.shiftLeft_add_eq_or_of_lt lo.isLt, Nat.shiftLeft_eq]

theorem lowByte_toNat (p : Prescale) : (lowByte p).toNat = p.toNat % 256 := by
  simp [lowByte, BitVec.extractLsb'_toNat]

theorem highByte_toNat (p : Prescale) : (highByte p).toNat = p.toNat / 256 := by
  have := p.isLt
  simp only [highByte, BitVec.extractLsb'_toNat, Nat.shiftRight_eq_div_pow]
  omega

@[simp] theorem lowByte_joinBytes (hi lo : Byte) : lowByte (joinBytes hi lo) = lo := by
  apply BitVec.eq_of_toNat_eq
  rw [lowByte_toNat, joinBytes_toNat]
  omega

@[simp] theorem highByte_joinBytes (hi lo : Byte) : highByte (joinBytes hi lo) = hi := by
  apply BitVec.eq_of_toNat_eq
  rw [highByte_toNat, joinBytes_toNat]
  omega

@[simp] theorem joinBytes_halves (p : Prescale) : joinBytes (highByte p) (lowByte p) = p := by
  apply BitVec.eq_of_toNat_eq
  rw [joinBytes_toNat, highByte_toNat, lowByte_toNat]
  omega

/-! ### conclude -/

@[simp] theorem conclude_trusted {s : State} (h : s.env.level = .oracle) (t : State) : conclude s t = .next t := by
  simp [conclude, h]

theorem conclude_accepted {s t : State} (h : Accepted s t) : conclude s t = .next t := by
  unfold conclude
  split
  · rfl
  · next hr =>
    rcases h with h | h
    · rw [hr] at h; cases h
    · rw [h]

/-- A next state is the operation's own, and the run is accepted. -/
theorem conclude_next {s t t' : State} (h : conclude s t = .next t') : t' = t ∧ Accepted s t := by
  unfold conclude at h
  split at h
  · next hr => cases h; exact ⟨rfl, .inl hr⟩
  · split at h
    · next hr => cases h; exact ⟨rfl, .inr hr⟩
    · cases h

/-! ### The oracle's answers -/

theorem drawByte_shape (e : Env) :
    (Env.drawByte e).2 = { e with answers := (Env.drawByte e).2.answers, draws := (Env.drawByte e).2.draws } := by
  unfold Env.drawByte; cases e.answers <;> rfl

theorem drawBytes_shape (n : Nat) (e : Env) : (Env.drawBytes n e).2
    = { e with answers := (Env.drawBytes n e).2.answers, draws := (Env.drawBytes n e).2.draws } := by
  induction n generalizing e with
  | zero => rfl
  | succ n ih =>
    simp only [Env.drawBytes]
    rw [ih, drawByte_shape]

theorem drawBytes_length (n : Nat) (e : Env) : (Env.drawBytes n e).1.length = n := by
  induction n generalizing e with
  | zero => rfl
  | succ n ih => simp [Env.drawBytes, ih]

/-- The oracle's list is answered first, in order. -/
theorem drawBytes_answers (pre more : List Byte) (e : Env) (h : e.answers = pre ++ more) :
    Env.drawBytes pre.length e = (pre, { e with answers := more }) := by
  induction pre generalizing e with
  | nil => simp only [List.nil_append] at h; simp [Env.drawBytes, ← h]
  | cons b r ih =>
    have hd : Env.drawByte e = (b, { e with answers := r ++ more }) := by
      simp only [List.cons_append] at h; simp [Env.drawByte, h]
    simp only [List.length_cons, Env.drawBytes, hd]
    rw [ih _ rfl]

theorem marshal_length (v : Byte) (w : Width) (e : Endian) : (marshal v w e).length = w.bytes := by
  cases w <;> cases e <;> rfl

theorem place_length (v : Byte) (upper : List Byte) (e : Endian) : (place v upper e).length = upper.length + 1 := by
  cases e <;> simp [place]

/-- The bytes above a register's own do not matter to a read (R65). -/
@[simp] theorem unmarshal_place (v : Byte) (upper : List Byte) (e : Endian) : unmarshal (place v upper e) e = v := by
  cases e <;> simp [unmarshal, place]

theorem unmarshal_marshal (v : Byte) (w : Width) (e : Endian) : unmarshal (marshal v w e) e = v := unmarshal_place _ _ _

/-- `IoRead` at the reference level reads the engine, and takes oracle bytes only for the rest of a wide access (R151). -/
theorem ioRead_reference {e : Env} (h : e.level = .reference) (p : Params) (d : DeviceConfig) (id : RegId) :
    unmarshal (e.ioRead p d id).1 d.endianness = e.eng.read p id
      ∧ (e.ioRead p d id).2 = { e with answers := (e.ioRead p d id).2.answers, draws := (e.ioRead p d id).2.draws } := by
  simp only [Env.ioRead, h]
  exact ⟨unmarshal_place _ _ _, by rw [drawBytes_shape]; simp [h]⟩

/-! ### One access at the trusted level -/

end Sys2Proof.Machine

namespace Sys2Proof

open Machine

theorem Accessed.refl (s : State) : Accessed s s [] := by simp [Accessed]

theorem Accessed.trans {s t u : State} {a b : List Event} (h : Accessed s t a) (k : Accessed t u b) :
    Accessed s u (a ++ b) := by
  unfold Accessed at *
  rw [k, h]
  simp [List.append_assoc, List.foldl_append]

theorem Accessed.level {s t : State} {a : List Event} (h : Accessed s t a) : t.env.level = s.env.level := by rw [h]

theorem Accessed.inTime {s t : State} {a : List Event} (h : Accessed s t a) : AccessedInTime s t a := by
  unfold Accessed at h
  unfold AccessedInTime
  rw [h]
  exact ⟨Nat.le_refl _, rfl⟩

theorem AccessedInTime.trans {s t u : State} {a b : List Event} (h : AccessedInTime s t a) (k : AccessedInTime t u b) :
    AccessedInTime s u (a ++ b) := by
  unfold AccessedInTime at *
  refine ⟨Nat.le_trans h.1 k.1, ?_⟩
  rw [k.2, h.2]
  simp [List.append_assoc, List.foldl_append]

theorem AccessedInTime.level {s t : State} {a : List Event} (h : AccessedInTime s t a) : t.env.level = s.env.level := by
  rw [h.2]

end Sys2Proof

namespace Sys2Proof.Machine

theorem getreg_accessed {s : State} (h : s.env.level = .oracle) (id : RegId) :
    ∃ ev, ev.readOf s id (getreg id s).1 ∧ Accessed s (getreg id s).2 [ev] := by
  refine ⟨.read id (regOffset s.params s.dev id) (Env.drawBytes s.dev.registerWidth.bytes s.env).1 (getreg id s).1,
    ⟨_, rfl, drawBytes_length _ _, ?_⟩, ?_⟩
  · simp [getreg, Env.read, Env.advance, Env.ioRead, h]
  · simp only [Accessed, getreg, Env.read, Env.advance, Env.ioRead, h, Env.record]
    rw [drawBytes_shape]
    simp [Engine.stored, h]

theorem setreg_accessed {s : State} (h : s.env.level = .oracle) (id : RegId) (v : Byte) :
    Accessed s (setreg id v s) [wEvent s id v] := by
  cases id <;>
    simp [Accessed, setreg, Env.write, Env.advance, h, Env.record, Env.store, Env.writeControl, wEvent, Engine.stored]

theorem sendCmd_accessed {s : State} (h : s.env.level = .oracle) (c : Command) :
    Accessed s (sendCmd c s) [cEvent s c] := setreg_accessed h .cmd _

/-- A read that the oracle's list answers. -/
theorem getreg_answers {s : State} (h : s.env.level = .oracle) (id : RegId) (bytes more : List Byte)
    (ha : s.env.answers = bytes ++ more) (hl : bytes.length = s.dev.registerWidth.bytes) :
    getreg id s = (unmarshal bytes s.dev.endianness,
      { s with env := { s.env with
          answers := more,
          trace := s.env.trace ++ [.read id (regOffset s.params s.dev id) bytes (unmarshal bytes s.dev.endianness)] } }) := by
  simp [getreg, Env.read, Env.advance, Env.ioRead, h, Env.record, ← hl, drawBytes_answers bytes more s.env ha]

/-! ### One access at either level: the history grows by it, the clock stands -/

theorem applyMove_keeps (e : Env) (m : EnvMove) : (e.applyMove m).trace = e.trace ∧ (e.applyMove m).now = e.now
    ∧ (e.applyMove m).level = e.level ∧ (e.applyMove m).refusal = e.refusal := by
  cases m <;> simp only [Env.applyMove] <;> (repeat' split) <;> simp

theorem applyMoves_keep (l : List EnvMove) (e : Env) : (l.foldl Env.applyMove e).trace = e.trace
    ∧ (l.foldl Env.applyMove e).now = e.now ∧ (l.foldl Env.applyMove e).level = e.level
    ∧ (l.foldl Env.applyMove e).refusal = e.refusal := by
  induction l generalizing e with
  | nil => simp
  | cons m l ih =>
    have h := applyMove_keeps e m
    have k := ih (e.applyMove m)
    simp [k, h]

theorem advance_keeps (e : Env) : e.advance.trace = e.trace ∧ e.advance.now = e.now ∧ e.advance.level = e.level
    ∧ e.advance.refusal = e.refusal := by
  unfold Env.advance
  split
  · simp
  · split
    · simp
    · next batch r _ => exact applyMoves_keep batch { e with moves := r }

theorem read_keeps (p : Params) (d : DeviceConfig) (id : RegId) (e : Env) :
    (∃ bytes, (e.read p d id).2.trace = e.trace ++ [.read id (regOffset p d id) bytes (e.read p d id).1])
      ∧ (e.read p d id).2.now = e.now ∧ (e.read p d id).2.level = e.level
      ∧ (e.read p d id).2.refusal = e.refusal := by
  have a := advance_keeps e
  unfold Env.read Env.ioRead Env.record
  dsimp only
  split <;>
    · rw [drawBytes_shape]; simp [a]

theorem refuse_keeps (e : Env) (why : EngineRefusal) : (e.refuse why).trace = e.trace ∧ (e.refuse why).now = e.now
    ∧ (e.refuse why).level = e.level := ⟨rfl, rfl, rfl⟩

theorem writeControl_keeps (p : Params) (b : Byte) (e : Env) : (e.writeControl p b).trace = e.trace
    ∧ (e.writeControl p b).now = e.now ∧ (e.writeControl p b).level = e.level := by
  unfold Env.writeControl
  dsimp only
  split
  · exact ⟨rfl, rfl, rfl⟩
  · split <;> exact ⟨rfl, rfl, rfl⟩

theorem command_keeps (p : Params) (b : Byte) (e : Env) : (e.command p b).trace = e.trace
    ∧ (e.command p b).now = e.now ∧ (e.command p b).level = e.level := by
  unfold Env.command
  split
  · split
    · exact refuse_keeps e _
    · split
      · exact refuse_keeps e _
      · exact ⟨rfl, rfl, rfl⟩
  · exact ⟨rfl, rfl, rfl⟩

theorem store_keeps (p : Params) (id : RegId) (b : Byte) (e : Env) : (e.store p id b).trace = e.trace
    ∧ (e.store p id b).now = e.now ∧ (e.store p id b).level = e.level := by
  cases id <;> simp only [Env.store]
  case control => exact writeControl_keeps p b e
  case cmd =>
    split
    · exact ⟨rfl, rfl, rfl⟩
    · exact command_keeps p b e
  all_goals simp

theorem write_keeps (p : Params) (d : DeviceConfig) (id : RegId) (v : Byte) (e : Env) :
    (e.write p d id v).trace
        = e.trace ++ [.write id (regOffset p d id) (marshal v d.registerWidth d.endianness) v]
      ∧ (e.write p d id v).now = e.now ∧ (e.write p d id v).level = e.level := by
  have a := advance_keeps e
  have k := store_keeps p id v
    (e.advance.record (.write id (regOffset p d id) (marshal v d.registerWidth d.endianness) v))
  refine ⟨k.1.trans ?_, k.2.1.trans a.2.1, k.2.2.trans a.2.2.1⟩
  simp [Env.record, a.1]

/-- A read adds itself to the history. -/
theorem getreg_trace (id : RegId) (s : State) : ∃ bytes, (getreg id s).2.env.trace
    = s.env.trace ++ [.read id (regOffset s.params s.dev id) bytes (getreg id s).1] :=
  (read_keeps s.params s.dev id s.env).1

/-- A write adds itself to the history. -/
theorem setreg_trace (id : RegId) (v : Byte) (s : State) :
    (setreg id v s).env.trace = s.env.trace ++ [wEvent s id v] := (write_keeps s.params s.dev id v s.env).1

theorem sendCmd_trace (c : Command) (s : State) : (sendCmd c s).env.trace = s.env.trace ++ [cEvent s c] :=
  setreg_trace .cmd _ s

@[simp] theorem getreg_now (id : RegId) (s : State) : (getreg id s).2.env.now = s.env.now :=
  (read_keeps s.params s.dev id s.env).2.1

@[simp] theorem setreg_now (id : RegId) (v : Byte) (s : State) : (setreg id v s).env.now = s.env.now :=
  (write_keeps s.params s.dev id v s.env).2.1

@[simp] theorem sendCmd_now (c : Command) (s : State) : (sendCmd c s).env.now = s.env.now := setreg_now _ _ s

@[simp] theorem getreg_level (id : RegId) (s : State) : (getreg id s).2.env.level = s.env.level :=
  (read_keeps s.params s.dev id s.env).2.2.1

@[simp] theorem setreg_level (id : RegId) (v : Byte) (s : State) : (setreg id v s).env.level = s.env.level :=
  (write_keeps s.params s.dev id v s.env).2.2

@[simp] theorem sendCmd_level (c : Command) (s : State) : (sendCmd c s).env.level = s.env.level := setreg_level _ _ s

/-! ### The clock and a buffer byte -/

/-- A reading of the clock: time does not go back, and nothing else changes but the inputs of the clock (R240). -/
theorem readClock_shape (s : State) : (readClock s).2 = { s with env := { s.env with
      now := (readClock s).1, elapse := (readClock s).2.env.elapse, draws := (readClock s).2.env.draws } }
    ∧ s.env.now ≤ (readClock s).1 := by
  unfold readClock Env.clock
  cases s.env.elapse <;> simp

theorem readClock_accessed (s : State) : AccessedInTime s (readClock s).2 [] := by
  have h := readClock_shape s
  refine ⟨?_, ?_⟩
  · rw [h.1]; exact h.2
  · rw [h.1]; simp

theorem readClock_now (s : State) : (readClock s).2.env.now = (readClock s).1 := by rw [(readClock_shape s).1]

theorem readBuf_shape (m : Message) (i : Nat) (s : State) : (readBuf m i s).2 = { s with env := { s.env with
    answers := (readBuf m i s).2.env.answers, draws := (readBuf m i s).2.env.draws } } := by
  unfold readBuf
  split
  · rfl
  · simp only [drawByte]; rw [drawByte_shape]

theorem readBuf_accessed (m : Message) (i : Nat) (s : State) : Accessed s (readBuf m i s).2 [] := by
  unfold Accessed
  rw [readBuf_shape]
  simp

theorem readBuf_byte {m : Message} {i : Nat} {b : Byte} (h : m.byteAt i = some b) (s : State) :
    (readBuf m i s).1 = b := by simp [readBuf, h]

/-! ### The bound list -/

theorem msgs_of_current {s : State} {m : Message} (h : s.current = some m) :
    ∃ l, s.msgs = some l ∧ l[s.cursor]? = some m := by
  unfold State.current State.msgAt State.list at h
  cases hh : s.msgs with
  | none => simp [hh] at h
  | some l => exact ⟨l, rfl, by simpa [hh] using h⟩

theorem modify_eq_set {l : List Message} {i : Nat} {m : Message} (h : l[i]? = some m) (f : Message → Message) :
    l.modify i f = l.set i (f m) := by
  apply List.ext_getElem?
  intro j
  simp only [List.getElem?_modify, List.getElem?_set]
  by_cases hj : i = j
  · subst hj
    obtain ⟨hi, rfl⟩ := List.getElem?_eq_some_iff.1 h
    simp [hi]
  · simp [hj]

/-! ### validate -/

/-- The list of checks of the rule, and the check of well-formed operands, say the same. -/
theorem validateFails_eq (l : MsgList) : validateFails l = !listLegal l := by
  cases l with
  | none => rfl
  | some l =>
    cases l with
    | nil => rfl
    | cons m rest =>
      have hcap : ∀ m : Message, m.cap = capOf m.buf := by
        intro m; unfold Message.cap capOf; cases m.buf <;> rfl
      have hall : ∀ l : List Message, l.all (Message.legal true) = !(l.any (fun m => m.buf.isNone)
          || l.any (fun m => decide (0x7F < m.addr)) || l.any (fun m => decide (m.cap < m.len))
          || l.any (fun m => m.recvlen && m.rd && decide (m.cap < m.len + Config.blockMax))
          || l.any (fun m => m.nostart && decide (m.len = 0))) := by
        intro l
        rw [Bool.eq_iff_iff]
        simp only [List.all_eq_true, Bool.not_eq_true', Bool.or_eq_false_iff, List.any_eq_false, Message.legal,
          Bool.and_eq_true, hcap, Bool.or_eq_true, decide_eq_true_eq, Bool.not_and, Option.isSome_iff_ne_none,
          Option.isNone_iff_eq_none, ← Nat.not_lt]
        grind
      rw [Bool.eq_iff_iff]
      simp only [validateFails, listLegal, hall, List.isEmpty_cons, List.any_cons, List.tail_cons, Message.legal, hcap,
        Bool.false_or, Bool.false_and, Bool.not_false, Bool.true_or, Bool.and_true, ← Nat.not_lt]
      cases m.buf
      all_goals
        simp
        try grind

end Sys2Proof.Machine
end

