-- ==== Sys2Proof/Laws/Sequencer.lean ====
section
/-! SUPPORT. What the sequencer's operations can do: the fields they leave alone, that they do not look at the lock, and
where an event that passes its tests leads. -/

namespace Sys2Proof.Machine

/-! ### The frame of the sequencer -/

/-- From `s` to `t` only what the sequencer owns may have changed. -/
def SeqFrame (s t : State) : Prop :=
  t = { s with msgs := t.msgs, cursor := t.cursor, position := t.position, phase := t.phase, err := t.err,
               completion := t.completion, env := t.env }

theorem SeqFrame.trans {s t u : State} (h : SeqFrame s t) (k : SeqFrame t u) : SeqFrame s u := by
  unfold SeqFrame at *
  rw [k, h]

theorem fail_frame (e : Err) (s : State) : SeqFrame s (fail e s) := rfl

theorem sendCmd_frame (c : Command) (s : State) : SeqFrame s (sendCmd c s) := rfl

theorem getreg_frame (id : RegId) (s : State) : SeqFrame s (getreg id s).2 := rfl

theorem modifyCurrent_frame (f : Message → Message) (s : State) : SeqFrame s (s.modifyCurrent f) := rfl

theorem issueRead_eq (m : Message) (s : State) : issueRead m s = sendCmd (readCommand m s.position) s := by
  unfold issueRead readCommand
  by_cases h : s.position + 1 = m.len ∧ ¬(m.recvlen = true ∧ s.position = 0)
  · rw [if_pos h, if_pos ⟨by omega, h.2⟩]
  · rw [if_neg h, if_neg (fun k => h ⟨by omega, k.2⟩)]

theorem issueWrite_frame (m : Message) (s : State) : SeqFrame s (issueWrite m s) := by
  unfold issueWrite
  dsimp only
  have h : SeqFrame s (readBuf m s.position s).2 := by unfold SeqFrame; rw [readBuf_shape]
  generalize (readBuf m s.position s).2 = u at h
  generalize (readBuf m s.position s).1 = b
  exact SeqFrame.trans h (u := sendCmd .write { setreg .data b u with position := s.position + 1 }) rfl

theorem issue_frame (m : Message) (s : State) : SeqFrame s (issue m s) := by
  unfold issue
  split
  · rw [issueRead_eq]; exact sendCmd_frame _ s
  · exact issueWrite_frame m s

theorem nextMessage_frame (s : State) : SeqFrame s (nextMessage s) := by
  unfold nextMessage
  split
  · rfl
  · next m _ =>
    split
    · exact SeqFrame.trans (t := { s with phase := m.dirPhase }) rfl (issue_frame m _)
    · rfl

theorem stepTail_frame (s : State) : SeqFrame s (stepTail s) := by
  unfold stepTail
  split
  · rfl
  · next m _ =>
    split
    · exact SeqFrame.trans (t := { s with cursor := s.cursor + 1, position := 0 }) rfl (nextMessage_frame _)
    · exact issue_frame m s

theorem acknowledge_frame (m : Message) (stat : Byte) (s : State) : SeqFrame s (acknowledge m stat s) := by
  unfold acknowledge
  split
  · exact fail_frame _ s
  · exact SeqFrame.trans (t := { s with phase := m.dirPhase }) rfl (stepTail_frame _)

theorem receive_frame (m : Message) (b : Byte) (s : State) : SeqFrame s (receive m b s) := by
  unfold receive
  dsimp only
  have h : SeqFrame s { s.modifyCurrent (·.storeByte s.position b) with position := s.position + 1 } := rfl
  split
  · split
    · exact h.trans (fail_frame _ _)
    · exact (h.trans (modifyCurrent_frame _ _)).trans (stepTail_frame _)
  · exact h.trans (stepTail_frame _)

theorem event_frame (stat : Byte) (s : State) : SeqFrame s (event stat s) := by
  unfold event
  split
  · exact fail_frame _ s
  · split
    · exact fail_frame _ s
    · next m _ =>
      split
      · exact fail_frame _ s
      · split
        · exact (getreg_frame .data s).trans (receive_frame m _ _)
        · exact acknowledge_frame m stat s

theorem process_frame (stat : Byte) (s : State) : SeqFrame s (process stat s).2 := by
  unfold process
  split
  · rfl
  · exact event_frame stat s

/-- A step changes only what the sequencer owns. -/
theorem seqStep_frame (s : State) : SeqFrame s (seqStep s).2 := (getreg_frame .cmd s).trans (process_frame _ _)

/-! ### The sequencer does not look at the lock -/

theorem issue_acquire (w : Lock) (m : Message) (s : State) : issue m (acquire w s) = acquire w (issue m s) := by
  unfold issue issueRead
  by_cases h : s.phase = .read
  · rw [if_pos h, if_pos (show (acquire w s).phase = .read from h)]
    by_cases h2 : s.position + 1 = m.len ∧ ¬(m.recvlen = true ∧ s.position = 0)
    · rw [if_pos h2, if_pos (show (acquire w s).position + 1 = m.len
        ∧ ¬(m.recvlen = true ∧ (acquire w s).position = 0) from h2)]
      rfl
    · rw [if_neg h2, if_neg (show ¬((acquire w s).position + 1 = m.len
        ∧ ¬(m.recvlen = true ∧ (acquire w s).position = 0)) from h2)]
      rfl
  · rw [if_neg h, if_neg (show ¬(acquire w s).phase = .read from h)]
    unfold issueWrite readBuf
    cases hb : m.byteAt s.position <;> simp only [show (acquire w s).position = s.position from rfl, hb] <;> rfl

theorem nextMessage_acquire (w : Lock) (s : State) : nextMessage (acquire w s) = acquire w (nextMessage s) := by
  unfold nextMessage
  rw [show (acquire w s).current = s.current from rfl]
  split
  · rfl
  · next m _ =>
    split
    · exact issue_acquire w m { s with phase := m.dirPhase }
    · rfl

theorem stepTail_acquire (w : Lock) (s : State) : stepTail (acquire w s) = acquire w (stepTail s) := by
  unfold stepTail
  rw [show (acquire w s).current = s.current from rfl, show (acquire w s).position = s.position from rfl]
  split
  · rfl
  · next m _ =>
    split
    · exact nextMessage_acquire w { s with cursor := s.cursor + 1, position := 0 }
    · exact issue_acquire w m s

theorem acknowledge_acquire (w : Lock) (m : Message) (stat : Byte) (s : State) :
    acknowledge m stat (acquire w s) = acquire w (acknowledge m stat s) := by
  unfold acknowledge
  rw [show (acquire w s).params = s.params from rfl]
  split
  · rfl
  · exact stepTail_acquire w { s with phase := m.dirPhase }

theorem receive_acquire (w : Lock) (m : Message) (b : Byte) (s : State) :
    receive m b (acquire w s) = acquire w (receive m b s) := by
  unfold receive
  dsimp only
  rw [show (acquire w s).position = s.position from rfl]
  split
  · split
    · rfl
    · exact stepTail_acquire w
        (({ s.modifyCurrent (·.storeByte s.position b) with position := s.position + 1 } : State).modifyCurrent
          fun m => { m with len := m.len + b.toNat })
  · exact stepTail_acquire w { s.modifyCurrent (·.storeByte s.position b) with position := s.position + 1 }

theorem event_acquire (w : Lock) (stat : Byte) (s : State) : event stat (acquire w s) = acquire w (event stat s) := by
  unfold event
  rw [show (acquire w s).params = s.params from rfl, show (acquire w s).current = s.current from rfl,
    show (acquire w s).phase = s.phase from rfl]
  split
  · rfl
  · split
    · rfl
    · next m _ =>
      split
      · rfl
      · split
        · exact receive_acquire w m (getreg .data s).1 (getreg .data s).2
        · exact acknowledge_acquire w m stat s

theorem process_acquire (w : Lock) (stat : Byte) (s : State) :
    process stat (acquire w s) = ((process stat s).1, acquire w (process stat s).2) := by
  unfold process
  rw [show (acquire w s).phase = s.phase from rfl]
  split
  · rfl
  · rw [event_acquire]

/-- A step under the lock is the step, with the lock held. -/
theorem seqStep_acquire (w : Lock) (s : State) :
    seqStep (acquire w s) = ((seqStep s).1, acquire w (seqStep s).2) :=
  process_acquire w (getreg .cmd s).1 (getreg .cmd s).2

/-! ### Where an event leads -/

/-- An event that passes every test leaves the step at its tail. -/
theorem taken_seqStep {s : State} {m : Message} {u : State} (h : Taken s m u) : seqStep s = (.goesOn, stepTail u) := by
  obtain ⟨ht, hal, hc, hb, h⟩ := h
  have hal' : s.params.al (getreg .cmd s).1 = false := hal
  have hc' : (getreg .cmd s).2.current = some m := hc
  simp only [seqStep, process, getreg_phase, ht, event, getreg_params, hal', hc', hb, Bool.false_eq_true, if_false]
  rcases h with ⟨hp, hn, rfl⟩ | ⟨hp, hr, rfl⟩
  · have hn' : s.params.nack (getreg .cmd s).1 = false := hn
    simp only [hp, if_false, acknowledge, getreg_params, hn', Bool.false_eq_true]
    rfl
  · obtain ⟨l, hl, hm⟩ := msgs_of_current hc
    simp only [hp, if_true, receive, getreg_position]
    by_cases hx : m.recvlen = true ∧ s.position = 0
    · have h2 : 1 ≤ (getreg .data (getreg .cmd s).2).1.toNat ∧ (getreg .data (getreg .cmd s).2).1.toNat ≤ 32 :=
        hr hx.1 hx.2
      have h3 : ¬((getreg .data (getreg .cmd s).2).1.toNat < 1
          ∨ Config.blockMax < (getreg .data (getreg .cmd s).2).1.toNat) := by
        simp only [Config.blockMax]; omega
      have hm2 : (l.set s.cursor (m.storeByte s.position (getreg .data (getreg .cmd s).2).1))[s.cursor]?
          = some (m.storeByte s.position (getreg .data (getreg .cmd s).2).1) := by
        simp [(List.getElem?_eq_some_iff.1 hm).1]
      simp only [if_pos hx, if_neg h3]
      simp only [State.modifyCurrent, getreg_msgs, hl, Option.map_some, getreg_cursor, modify_eq_set hm,
        modify_eq_set hm2, State.list, Option.getD_some, List.set_set]
      rfl
    · rw [if_neg hx]
      simp only [if_neg hx, State.modifyCurrent, getreg_msgs, hl, Option.map_some, getreg_cursor, modify_eq_set hm, State.list,
        Option.getD_some]
      rfl

theorem taken_keeps {s : State} {m : Message} {u : State} (h : Taken s m u) :
    u.params = s.params ∧ u.dev = s.dev ∧ u.env.level = s.env.level := by
  obtain ⟨_, _, _, _, h⟩ := h
  rcases h with ⟨_, _, rfl⟩ | ⟨_, _, rfl⟩ <;> simp

theorem issueWrite_accessed {s : State} (h : s.env.level = .oracle) (m : Message) :
    ∃ b, (∀ b', m.byteAt s.position = some b' → b = b')
      ∧ Accessed s (issueWrite m s) [wEvent s .data b, cEvent s .write]
      ∧ issueWrite m s = { s with position := s.position + 1, env := (issueWrite m s).env } := by
  have a1 := readBuf_accessed m s.position s
  have hu : (readBuf m s.position s).2 = { s with env := (readBuf m s.position s).2.env } := by rw [readBuf_shape]
  refine ⟨(readBuf m s.position s).1, fun b' hb => readBuf_byte hb s, ?_, ?_⟩
  · unfold issueWrite
    dsimp only
    generalize (readBuf m s.position s).1 = b
    generalize (readBuf m s.position s).2 = u at a1 hu
    have l1 := a1.level.trans h
    have a2 := setreg_accessed l1 .data b
    have a3 := sendCmd_accessed (s := { setreg .data b u with position := s.position + 1 }) (a2.level.trans l1) .write
    have e1 : wEvent u .data b = wEvent s .data b := by rw [hu]; rfl
    have e2 : cEvent { setreg .data b u with position := s.position + 1 } .write = cEvent s .write := by rw [hu]; rfl
    rw [e1] at a2
    rw [e2] at a3
    exact (a1.trans a2).trans a3
  · unfold issueWrite
    dsimp only
    generalize (readBuf m s.position s).1 = b
    generalize (readBuf m s.position s).2 = u at hu
    rw [hu]
    rfl

/-! ### Message instructions -/

theorem exec_messageInstr (m : Message) (s : State) : exec m.instr s = runMessage m s := by
  obtain ⟨a, rd, ns, rl, len, buf⟩ := m
  cases rd <;> cases ns <;> cases rl <;> rfl

theorem messageFails_eq (later : Bool) (m : Message) : messageFails later m = !m.legal later := by
  unfold messageFails
  rw [validateFails_eq]
  simp only [listLegal, List.all_nil, Bool.and_true, Message.legal]
  cases later <;> simp [Bool.or_assoc]

end Sys2Proof.Machine
end

