-- ==== Sys2Proof/Laws/Invariant.lean ====
section
/-! SUPPORT. The sequencer, arm, recovery and the watchdog keep the invariant `Inv`: one lemma per operation. -/

namespace Sys2Proof.Machine

/-! ### The sequencer -/

/-- What validate asked of a message, without the room for an extension. -/
def messageSound (i : Nat) (m : Message) : Prop :=
  m.buf.isSome = true ∧ m.addr ≤ 0x7F ∧ m.len ≤ m.cap ∧ (0 < i → m.nostart = true → m.len ≠ 0)

/-- How the sequencer can leave a transaction that was under way in `s`. -/
def SeqPost (s t : State) : Prop :=
  (t.phase = .error ∧ t.err ≠ .none ∧ t.completion = true)
    ∨ (t.phase = .done ∧ t.err = s.err ∧ t.completion = true
        ∧ ∀ l, t.msgs = some l → t.cursor = l.length ∧ t.position = 0)
    ∨ (t.phase.terminal = false ∧ t.err = s.err ∧ t.completion = s.completion ∧ seqOk t)

theorem SeqPost.of_eq {s s' t : State} (h : SeqPost s' t) (he : s'.err = s.err) (hc : s'.completion = s.completion) :
    SeqPost s t := by
  unfold SeqPost at *
  rw [← he, ← hc]
  exact h

theorem fail_post (e : Err) (he : e ≠ .none) (s s' : State) : SeqPost s (fail e s') := .inl ⟨rfl, he, rfl⟩

theorem seqOk_congr {s t : State} (h1 : t.msgs = s.msgs) (h2 : t.cursor = s.cursor) (h3 : t.position = s.position)
    (h4 : t.phase = s.phase) (h : seqOk s) : seqOk t := by
  obtain ⟨a, m, b, c⟩ := h
  refine ⟨fun i m hm => ?_, m, ?_, ?_⟩
  · have := a i m (by simpa [State.msgAt, State.list, h1] using hm)
    simpa [messageOk, mayExtend, h2, h3, h4] using this
  · simpa [State.current, State.msgAt, State.list, h1, h2] using b
  · simpa [positionOk, h3, h4] using c

theorem msgAt_of_msgs {s : State} {l : List Message} (h : s.msgs = some l) (i : Nat) : s.msgAt i = l[i]? := by
  simp [State.msgAt, State.list, h]

theorem issue_post (m : Message) (s : State) (hm : s.current = some m)
    (hok : ∀ i m, s.msgAt i = some m → messageOk s i m)
    (hp : s.phase = .read ∧ m.rd = true ∨ s.phase = .write ∧ m.rd = false) (hl : s.position < m.len) :
    SeqPost s (issue m s) := by
  unfold issue
  rcases hp with ⟨hp, hr⟩ | ⟨hp, hr⟩
  · have key : seqOk s := ⟨hok, m, hm, by simp [positionOk, hp, hr, hl]⟩
    rw [if_pos hp, issueRead_eq]
    exact .inr (.inr ⟨by simp [hp, Phase.terminal], rfl, rfl, seqOk_congr rfl rfl rfl rfl key⟩)
  · rw [if_neg (by simp [hp])]
    unfold issueWrite
    refine .inr (.inr ⟨by simp [hp, Phase.terminal], by simp, by simp, fun i m' h' => ?_, m,
      by simpa [State.current, State.msgAt, State.list] using hm, by simp [positionOk, hp, hr]; omega⟩)
    have := hok i m' (by simpa [State.msgAt, State.list] using h')
    simpa [messageOk, mayExtend, hp] using this

theorem nextMessage_post (s : State) (l : List Message) (hl : s.msgs = some l) (hc : s.cursor ≤ l.length)
    (hpos : s.position = 0) (hpd : s.cursor ≠ 0) (hw : ∀ i m, l[i]? = some m → messageSound i m)
    (he : ∀ i m, l[i]? = some m → m.recvlen = true → m.rd = true → s.cursor ≤ i → m.len + Config.blockMax ≤ m.cap) :
    SeqPost s (nextMessage s) := by
  have hok : ∀ (t : State), t.msgs = some l → t.cursor = s.cursor → ∀ i m, t.msgAt i = some m → messageOk t i m := by
    intro t h1 h2 i m hm
    rw [msgAt_of_msgs h1] at hm
    obtain ⟨a, b, c, d⟩ := hw _ _ hm
    refine ⟨a, b, c, d, fun r1 r2 r3 => he _ _ hm r1 r2 ?_⟩
    rcases r3 with r3 | r3
    · omega
    · omega
  unfold nextMessage
  cases h : s.current with
  | none =>
    refine .inr (.inl ⟨rfl, rfl, rfl, ?_⟩)
    intro l' h'
    have h2 : l = l' := by simpa [hl] using h'
    subst h2
    have h3 : l[s.cursor]? = none := by rw [← msgAt_of_msgs hl]; exact h
    simp only [List.getElem?_eq_none_iff] at h3
    exact ⟨by simp; omega, by simpa using hpos⟩
  | some m =>
    have hcur : l[s.cursor]? = some m := by rw [← msgAt_of_msgs hl]; exact h
    dsimp only
    split
    · next hn =>
      have hne : m.len ≠ 0 := (hw _ _ hcur).2.2.2 (by omega) hn
      refine SeqPost.of_eq (issue_post m { s with phase := m.dirPhase } h
        (hok { s with phase := m.dirPhase } hl rfl) ?_ ?_) rfl rfl
      · cases hr : m.rd <;> simp [Message.dirPhase, hr]
      · simp [hpos]; omega
    · refine .inr (.inr ⟨rfl, rfl, rfl, hok _ hl rfl, m, h, ?_⟩)
      simp [positionOk, hpos]

theorem stepTail_post (s : State) (m : Message) (l : List Message) (hl : s.msgs = some l)
    (hm : l[s.cursor]? = some m) (hp : s.phase = .read ∧ m.rd = true ∨ s.phase = .write ∧ m.rd = false)
    (hpos : s.position ≤ m.len) (hok : ∀ i m, s.msgAt i = some m → messageOk s i m) : SeqPost s (stepTail s) := by
  have hcur : s.current = some m := by rw [← hm]; exact msgAt_of_msgs hl _
  have hlt : s.cursor < l.length := (List.getElem?_eq_some_iff.1 hm).1
  unfold stepTail
  rw [hcur]
  dsimp only
  split
  · refine SeqPost.of_eq (nextMessage_post { s with cursor := s.cursor + 1, position := 0 } l hl hlt rfl
      (Nat.succ_ne_zero _) (fun i m' h' => ?_) (fun i m' h' r1 r2 r3 => ?_)) rfl rfl
    · obtain ⟨a, b, c, d, _⟩ := hok i m' (by rw [msgAt_of_msgs hl]; exact h')
      exact ⟨a, b, c, d⟩
    · obtain ⟨_, _, _, _, e⟩ := hok i m' (by rw [msgAt_of_msgs hl]; exact h')
      exact e r1 r2 (.inl (Nat.lt_of_succ_le r3))
  · exact issue_post m s hcur hok hp (by omega)

theorem acknowledge_post (s : State) (m : Message) (stat : Byte) (h : seqOk s) (hcur : s.current = some m)
    (hph : s.phase = .start ∨ s.phase = .write) : SeqPost s (acknowledge m stat s) := by
  unfold acknowledge
  split
  · exact fail_post _ (by simp) s s
  · obtain ⟨hok, m', hm', hpo⟩ := h
    obtain rfl : m = m' := Option.some.inj (hcur.symm.trans hm')
    obtain ⟨l, hl, hc⟩ := msgs_of_current hcur
    refine SeqPost.of_eq (stepTail_post { s with phase := m.dirPhase } m l hl hc ?_ ?_ ?_) rfl rfl
    · cases hr : m.rd <;> simp [Message.dirPhase, hr]
    · rcases hph with hph | hph <;> simp only [positionOk, hph] at hpo
      · simp [hpo]
      · exact hpo.2
    · intro i mm hmm
      obtain ⟨a, b, c, d, e⟩ := hok i mm hmm
      refine ⟨a, b, c, d, fun r1 r2 r3 => e r1 r2 ?_⟩
      rcases r3 with r3 | ⟨r3, r4⟩
      · exact .inl r3
      · refine .inr ⟨r3, ?_⟩
        rcases hph with hph | hph
        · exact .inl hph
        · simp only [positionOk, hph] at hpo
          simp [Message.dirPhase, hpo.1] at r4

@[simp] theorem storeByte_cap (m : Message) (i : Nat) (b : Byte) : (m.storeByte i b).cap = m.cap := by
  simp only [Message.cap, Message.storeByte]
  cases m.buf <;> simp

/-- The list after byte `position` of its current message `m` was replaced, with a length in [len, len + 32]. -/
theorem received_ok {s : State} {l : List Message} {m m' : Message} (hl : s.msgs = some l) (hc : l[s.cursor]? = some m)
    (hok : ∀ i m, s.msgAt i = some m → messageOk s i m) (h1 : m'.buf.isSome = m.buf.isSome) (h2 : m'.addr = m.addr)
    (h3 : m'.nostart = m.nostart) (h5 : m'.len ≤ m'.cap) (h6 : m.len ≤ m'.len)
    (t : State) (ht : t.msgs = some (l.set s.cursor m')) (htc : t.cursor = s.cursor) (htp : t.phase = .read)
    (htq : t.position ≠ 0) : ∀ i mm, t.msgAt i = some mm → messageOk t i mm := by
  intro i mm hmm
  rw [msgAt_of_msgs ht] at hmm
  by_cases hi : s.cursor = i
  · subst hi
    rw [List.getElem?_set_self (List.getElem?_eq_some_iff.1 hc).1] at hmm
    obtain rfl := Option.some.inj hmm
    obtain ⟨q1, q2, q3, q4, q5⟩ := hok _ _ (by rw [msgAt_of_msgs hl]; exact hc)
    refine ⟨by rw [h1]; exact q1, by rw [h2]; exact q2, h5, fun r1 r2 => ?_, fun r1 r2 r3 => ?_⟩
    · have := q4 r1 (by rw [← h3]; exact r2)
      omega
    · rcases r3 with r3 | ⟨_, r4 | ⟨_, r4⟩⟩
      · omega
      · simp [htp] at r4
      · exact absurd r4 htq
  · rw [List.getElem?_set_ne hi] at hmm
    obtain ⟨q1, q2, q3, q4, q5⟩ := hok i mm (by rw [msgAt_of_msgs hl]; exact hmm)
    refine ⟨q1, q2, q3, q4, fun r1 r2 r3 => q5 r1 r2 ?_⟩
    rcases r3 with r3 | ⟨r3, _⟩
    · exact .inl (by rw [← htc]; exact r3)
    · exact absurd (htc ▸ r3) hi

theorem receive_post (s : State) (m : Message) (b : Byte) (h : seqOk s) (hcur : s.current = some m)
    (hph : s.phase = .read) : SeqPost s (receive m b s) := by
  obtain ⟨hok, m', hm', hpo⟩ := h
  obtain rfl : m = m' := Option.some.inj (hcur.symm.trans hm')
  obtain ⟨l, hl, hc⟩ := msgs_of_current hcur
  simp only [positionOk, hph] at hpo
  obtain ⟨hrd, hlt⟩ := hpo
  have hmok := hok _ _ hcur
  have hci := (List.getElem?_eq_some_iff.1 hc).1
  have hset : ∀ m' : Message, (l.set s.cursor m')[s.cursor]? = some m' := fun m' => List.getElem?_set_self hci
  unfold receive
  dsimp only
  split
  · next hrl =>
    split
    · exact fail_post _ (by simp) _ _
    · next hb =>
      refine SeqPost.of_eq (stepTail_post _ { m.storeByte s.position b with len := m.len + b.toNat }
        (l.set s.cursor { m.storeByte s.position b with len := m.len + b.toNat }) ?_ (hset _) (.inl ⟨hph, hrd⟩) ?_ ?_)
        rfl rfl
      · simp only [State.modifyCurrent, hl, Option.map_some, modify_eq_set hc, modify_eq_set (hset _), List.set_set]
        rfl
      · show s.position + 1 ≤ m.len + b.toNat
        omega
      · refine received_ok (m' := { m.storeByte s.position b with len := m.len + b.toNat }) hl hc hok ?_ rfl rfl ?_
          (Nat.le_add_right _ _) _ ?_ rfl hph (Nat.succ_ne_zero _)
        · simp [Message.storeByte]
        · have := hmok.2.2.2.2 hrl.1 hrd (.inr ⟨rfl, .inr ⟨hph, hrl.2⟩⟩)
          show m.len + b.toNat ≤ (m.storeByte s.position b).cap
          rw [storeByte_cap]
          simp only [Config.blockMax] at this hb
          omega
        · simp only [State.modifyCurrent, hl, Option.map_some, modify_eq_set hc, modify_eq_set (hset _), List.set_set]
          rfl
  · refine SeqPost.of_eq (stepTail_post _ (m.storeByte s.position b) (l.set s.cursor (m.storeByte s.position b)) ?_
      (hset _) (.inl ⟨hph, hrd⟩) ?_ ?_) rfl rfl
    · simp only [State.modifyCurrent, hl, Option.map_some, modify_eq_set hc]
    · exact hlt
    · refine received_ok (m' := m.storeByte s.position b) hl hc hok ?_ rfl rfl ?_ (Nat.le_refl _) _ ?_ rfl hph
        (Nat.succ_ne_zero _)
      · simp [Message.storeByte]
      · rw [storeByte_cap]; exact hmok.2.2.1
      · simp only [State.modifyCurrent, hl, Option.map_some, modify_eq_set hc]

theorem event_post (stat : Byte) (s : State) (h : seqOk s) (hph : s.phase.terminal = false) :
    SeqPost s (event stat s) := by
  unfold event
  split
  · exact fail_post _ (by simp) s s
  · obtain ⟨m, hm, -⟩ := h.2
    rw [hm]
    dsimp only
    split
    · exact fail_post _ (by simp) s s
    · split
      · next hr =>
        exact SeqPost.of_eq (receive_post (getreg .data s).2 m (getreg .data s).1 (seqOk_congr rfl rfl rfl rfl h) hm hr)
          rfl rfl
      · next hr =>
        refine acknowledge_post s m stat h hm ?_
        cases hp : s.phase <;> simp_all [Phase.terminal]

/-- The two states agree on all that the invariant speaks of. -/
def InvSame (s t : State) : Prop :=
  t = { s with env := t.env, ret := t.ret, irqRet := t.irqRet, schedule := t.schedule, irqWaiting := t.irqWaiting,
               configured := t.configured, configureFailed := t.configureFailed, params := t.params }

theorem inv_congr {s t : State} (h : Inv s) (e : InvSame s t) : Inv t := by
  unfold InvSame at e
  rw [e]
  exact ⟨fun hh => seqOk_congr rfl rfl rfl rfl (h.running hh), h.doneAtEnd, h.errLatch, h.completionTerminal, h.claimed,
    h.frames, h.locked, h.oneArm, h.origins, h.modeOfDevice, h.claimHeld⟩

theorem process_inv (stat : Byte) (s : State) (h : Inv s) : Inv (process stat s).2 := by
  unfold process
  split
  · next ht =>
    exact ⟨fun hh => absurd ht (by simpa using hh), h.doneAtEnd, h.errLatch, fun _ => ht, h.claimed, h.frames,
      h.locked, h.oneArm, h.origins, h.modeOfDevice, h.claimHeld⟩
  · next ht =>
    have ht' : s.phase.terminal = false := by simpa using ht
    have b := event_post stat s (h.running ht') ht'
    have f := event_frame stat s
    have herr : s.err = .none := by
      refine h.errLatch.2 fun hh => ?_
      simp [hh, Phase.terminal] at ht'
    have hcl : s.claim ≠ .free := fun hh => by simp [h.claimed hh] at ht'
    dsimp only
    generalize event stat s = t at b f
    unfold SeqFrame at f
    refine ⟨fun hh => ?_, fun hd l hl => ?_, ?_, fun hc => ?_, fun hc => ?_, ?_, ?_, ?_, ?_, ?_, fun _ => ?_⟩
    · rcases b with b | b | b
      · simp [b.1, Phase.terminal] at hh
      · simp [b.1, Phase.terminal] at hh
      · exact b.2.2.2
    · rcases b with b | b | b
      · simp [b.1] at hd
      · exact b.2.2.2 l hl
      · simp [hd, Phase.terminal] at b
    · rcases b with b | b | b
      · simp [b.1, b.2.1]
      · simp [b.1, b.2.1, herr]
      · rw [b.2.1]
        simp only [herr, true_iff]
        intro hh
        simp [hh, Phase.terminal] at b
    · rcases b with b | b | b
      · simp [b.1, Phase.terminal]
      · simp [b.1, Phase.terminal]
      · rw [b.2.2.1] at hc
        simp [h.completionTerminal hc] at ht'
    · rw [f] at hc
      exact absurd hc hcl
    · rw [f]; exact h.frames
    · rw [f]; exact h.locked
    · rw [f]; exact h.oneArm
    · rw [f]; exact h.origins
    · rw [f]; exact h.modeOfDevice
    · rw [f]; exact hcl

theorem getreg_inv (id : RegId) {s : State} (h : Inv s) : Inv (getreg id s).2 := inv_congr h rfl

/-- A step keeps the invariant. -/
theorem seqStep_inv {s : State} (h : Inv s) : Inv (seqStep s).2 := process_inv _ _ (getreg_inv .cmd h)

/-! ### Pending work -/

theorem claimHeld_push {s : State} {f : Frame} (h : s.unreturned = true → s.claim ≠ .free)
    (hu : f.unreturned = true → s.claim ≠ .free) : (push f s).unreturned = true → (push f s).claim ≠ .free := by
  intro hh
  simp only [State.unreturned, push, List.any_cons, Bool.or_eq_true] at hh
  exact hh.elim hu h

theorem inv_push {s : State} (f : Frame) (h : Inv s) (hf : frameOk f) (hn : f.isArmTail = false)
    (hu : f.unreturned = true → s.claim ≠ .free) : Inv (push f s) := by
  refine ⟨h.running, h.doneAtEnd, h.errLatch, h.completionTerminal, h.claimed, ?_, ?_, ?_, ?_, h.modeOfDevice,
    claimHeld_push h.claimHeld hu⟩
  · intro g hg
    simp only [push, List.mem_cons] at hg
    rcases hg with rfl | hg
    · exact hf
    · exact h.frames g hg
  · simp only [push, List.any_cons, hn, Bool.false_or]
    exact h.locked
  · simp only [push, List.filter_cons, hn, Bool.false_eq_true, if_false]
    exact h.oneArm
  · obtain ⟨a, b, c⟩ := h.origins
    refine ⟨fun x => List.mem_cons_of_mem _ (a x), fun x => ?_, fun x => List.mem_cons_of_mem _ (c x)⟩
    simp only [push, List.any_cons, b x, Bool.or_true]

theorem noArm_of_free {s : State} (h : Inv s) (hl : s.lock = .free) : s.todo.any Frame.isArmTail = false := by
  by_contra hh
  have := h.locked.2.2 (by simpa using hh)
  rw [hl] at this
  cases this

/-! ### arm and recover -/

theorem validated {m : Message} {rest : List Message} (h : validateFails (some (m :: rest)) = false) (i : Nat)
    (mm : Message) (hi : (m :: rest)[i]? = some mm) :
    messageSound i mm ∧ (mm.recvlen = true → mm.rd = true → mm.len + Config.blockMax ≤ mm.cap) := by
  simp only [validateFails, List.isEmpty_cons, List.tail_cons, Bool.or_eq_false_iff, List.any_eq_false] at h
  obtain ⟨⟨⟨⟨⟨-, a⟩, b⟩, c⟩, d⟩, e⟩ := h
  have hmem : mm ∈ m :: rest := List.mem_of_getElem? hi
  refine ⟨⟨?_, ?_, ?_, fun hi0 hn => ?_⟩, fun r1 r2 => ?_⟩
  · have := a _ hmem
    cases hb : mm.buf <;> simp_all
  · simpa using b _ hmem
  · simpa using c _ hmem
  · obtain ⟨j, rfl⟩ : ∃ j, i = j + 1 := ⟨i - 1, by omega⟩
    simpa [hn] using e mm (List.mem_of_getElem? (by simpa using hi))
  · simpa [r1, r2] using d _ hmem

/-- A transaction starts: what is left of the invariant to show is the part that begin does not touch. -/
theorem begin_inv (m : Message) (rest : List Message) (s : State) (hv : validateFails (some (m :: rest)) = false)
    (hb : ∀ f ∈ s.todo, frameOk f)
    (hl : s.lock ≠ .interrupt ∧ (s.lock = .initiator ↔ s.todo.any Frame.isArmTail = true))
    (ho : (s.todo.filter Frame.isArmTail).length ≤ 1)
    (hor : (s.t0Irq.isSome = true → Frame.suspended ∈ s.todo)
      ∧ (s.t0Poll.isSome = true → s.todo.any Frame.isPollWaiting = true)
      ∧ (s.t0Recovery.isSome = true → Frame.recoverWait ∈ s.todo))
    (hm : s.mode = s.dev.interruptOrPoll) (hc : s.claim ≠ .free) : Inv (begin m rest s) := by
  refine ⟨fun _ => ⟨fun i mm hi => ?_, m, rfl, rfl⟩, fun h => (by cases h), by simp [begin], by simp [begin],
    fun h => absurd h hc, hb, hl, ho, hor, hm, fun _ => hc⟩
  have := validated hv i mm (by simpa [State.msgAt, State.list, begin] using hi)
  exact ⟨this.1.1, this.1.2.1, this.1.2.2.1, this.1.2.2.2, fun a b _ => this.2 a b⟩

theorem armTail_inv {owner : Claim} (hw : owner ≠ .free) (l : MsgList) (s : State) (hv : validateFails l = false) (hf : ∀ f ∈ s.todo, frameOk f)
    (hn : s.todo.any Frame.isArmTail = false)
    (hor : (s.t0Irq.isSome = true → Frame.suspended ∈ s.todo)
      ∧ (s.t0Poll.isSome = true → s.todo.any Frame.isPollWaiting = true)
      ∧ (s.t0Recovery.isSome = true → Frame.recoverWait ∈ s.todo))
    (hm : s.mode = s.dev.interruptOrPoll) : Inv (armTail owner l s) := by
  match l with
  | none => simp [validateFails] at hv
  | some [] => simp [validateFails] at hv
  | some (m :: rest) =>
    unfold armTail
    dsimp only
    have hfilter : s.todo.filter Frame.isArmTail = [] := by
      simp only [List.any_eq_false] at hn
      simpa [List.filter_eq_nil_iff] using hn
    have hbg : Inv (begin m rest
        { setreg .control (s.params.ctrlForMode s.mode (getreg .control s).1) (getreg .control s).2 with
          claim := owner, lock := .free }) := by
      refine begin_inv m rest _ hv hf ⟨by simp, ?_⟩ ?_ hor hm hw
      · show (Lock.free = Lock.initiator ↔ s.todo.any Frame.isArmTail = true)
        simp [hn]
      · show (s.todo.filter Frame.isArmTail).length ≤ 1
        simp [hfilter]
    exact inv_congr hbg rfl

/-- One pass of the recovery wait touches the environment, and its origin when it ends. -/
theorem recoverPass_cases (s : State) :
    ((recoverPass s).1 = true ∧ ∃ e, (recoverPass s).2 = { s with env := e, t0Recovery := none })
      ∨ ((recoverPass s).1 = false ∧ ∃ e, (recoverPass s).2 = { s with env := e }) := by
  unfold recoverPass
  dsimp only
  split
  · split
    · exact .inl ⟨rfl, _, rfl⟩
    · exact .inr ⟨rfl, _, rfl⟩
  · exact .inl ⟨rfl, _, rfl⟩

theorem recoverMask_eq (s : State) : ∃ e, recoverMask s = { s with env := e } := by
  unfold recoverMask
  split
  · exact ⟨_, rfl⟩
  · exact ⟨s.env, rfl⟩

/-- Recovery touches the environment and the origin of its wait, nothing of the block's own (R230). -/
theorem recover_cases (s : State) :
    ((recover s).1 = true ∧ ∃ e t0, (t0 = none ∨ t0 = s.t0Recovery)
        ∧ (recover s).2 = { s with env := e, t0Recovery := t0 })
      ∨ ((recover s).1 = false ∧ ∃ e t0, (recover s).2 = { s with env := e, t0Recovery := t0 }) := by
  unfold recover
  dsimp only
  split
  · unfold recoverForce
    dsimp only
    obtain ⟨e, he⟩ := recoverMask_eq (getreg .cmd s).2
    rw [he]
    generalize hq : ({ (readClock (sendCmd .recover { (getreg .cmd s).2 with env := e })).2 with
      t0Recovery := some (readClock (sendCmd .recover { (getreg .cmd s).2 with env := e })).1 } : State) = q
    obtain ⟨e', t', hq'⟩ : ∃ e t0, q = { s with env := e, t0Recovery := t0 } := ⟨_, _, hq.symm.trans rfl⟩
    rcases recoverPass_cases q with ⟨a, e2, b⟩ | ⟨a, e2, b⟩
    · exact .inl ⟨a, e2, none, .inl rfl, by rw [b, hq']⟩
    · exact .inr ⟨a, e2, t', by rw [b, hq']⟩
  · exact .inl ⟨rfl, _, s.t0Recovery, .inr rfl, rfl⟩

theorem resumeRecover_inv {s : State} (rest : List Frame) (h : Inv { s with todo := .recoverWait :: rest }) :
    Inv (resumeRecover { s with todo := rest }) := by
  unfold resumeRecover
  dsimp only
  have hl := h.locked
  have ho := h.oneArm
  have hf := h.frames
  have hor := h.origins
  simp only [List.any_cons, List.filter_cons, List.mem_cons, Frame.isArmTail, Frame.isPollWaiting, Bool.false_or,
    Bool.false_eq_true, if_false, forall_eq_or_imp, reduceCtorEq, false_or, true_or, implies_true] at hl ho hf hor
  rcases recoverPass_cases { s with todo := rest } with ⟨a, e, b⟩ | ⟨a, e, b⟩
  · rw [a, b]
    simp only [if_true]
    exact ⟨h.running, h.doneAtEnd, h.errLatch, h.completionTerminal, h.claimed, hf.2, hl, ho,
      ⟨hor.1, hor.2.1, fun x => by cases x⟩, h.modeOfDevice, h.claimHeld⟩
  · rw [a, b]
    exact inv_congr h rfl

theorem execRecover_inv {s : State} (h : Inv s) :
    Inv (if (recover s).1 then (recover s).2.returns .nothing else push .recoverWait (recover s).2) := by
  rcases recover_cases s with ⟨a, e, t, ht, b⟩ | ⟨a, e, t, b⟩
  · rw [a, b]
    simp only [if_true]
    refine ⟨h.running, h.doneAtEnd, h.errLatch, h.completionTerminal, h.claimed, h.frames, h.locked, h.oneArm,
      ⟨h.origins.1, h.origins.2.1, ?_⟩, h.modeOfDevice, h.claimHeld⟩
    rcases ht with rfl | rfl
    · intro x; cases x
    · exact h.origins.2.2
  · rw [a, b]
    have k := inv_push .recoverWait h trivial rfl (by simp [Frame.unreturned])
    exact ⟨k.running, k.doneAtEnd, k.errLatch, k.completionTerminal, k.claimed, k.frames, k.locked, k.oneArm,
      ⟨k.origins.1, k.origins.2.1, fun _ => List.mem_cons_self ..⟩, k.modeOfDevice, k.claimHeld⟩

theorem arm_inv {s : State} {owner : Claim} (hw : owner ≠ .free) (l : MsgList) (hv : validateFails l = false)
    (hc : s.claim ≠ .free) (h : Inv s) : Inv (arm owner l s) := by
  unfold arm
  split
  · next hl =>
    dsimp only
    have hany := noArm_of_free h hl
    rcases recover_cases (acquire .initiator s) with ⟨a, e, t, ht, b⟩ | ⟨a, e, t, b⟩
    · rw [a, b]
      simp only [if_true]
      refine armTail_inv hw l _ hv h.frames hany ⟨h.origins.1, h.origins.2.1, ?_⟩ h.modeOfDevice
      rcases ht with rfl | rfl
      · intro x; cases x
      · exact h.origins.2.2
    · rw [a, b]
      have hfilter : s.todo.filter Frame.isArmTail = [] := by
        simp only [List.any_eq_false] at hany
        simpa [List.filter_eq_nil_iff] using hany
      obtain ⟨x, y, z⟩ := h.origins
      refine ⟨h.running, h.doneAtEnd, h.errLatch, h.completionTerminal, h.claimed, fun f hf => ?_, ?_, ?_,
        ⟨fun q => ?_, fun q => ?_, fun _ => List.mem_cons_self ..⟩, h.modeOfDevice, fun _ => hc⟩
      · simp only [push, acquire, Bool.false_eq_true, if_false, List.mem_cons] at hf
        rcases hf with rfl | rfl | hf
        · trivial
        · exact ⟨hw, hv⟩
        · exact h.frames f hf
      · simp [push, acquire, Frame.isArmTail]
      · simp [push, acquire, List.filter_cons, Frame.isArmTail, hfilter]
      · exact List.mem_cons_of_mem _ (List.mem_cons_of_mem _ (x q))
      · have := y q
        simp [push, acquire, Frame.isPollWaiting] at this ⊢
        exact this
  · exact inv_push _ h ⟨hw, hv⟩ rfl fun _ => hc

theorem claim_inv {s : State} {owner : Claim} (hw : owner ≠ .free) (h : Inv s) : Inv { s with claim := owner } :=
  ⟨fun hh => seqOk_congr rfl rfl rfl rfl (h.running hh), h.doneAtEnd, h.errLatch, h.completionTerminal,
    fun hc => absurd hc hw, h.frames, h.locked, h.oneArm, h.origins, h.modeOfDevice, fun _ => hw⟩

/-- Claiming a transaction, and arming it. -/
theorem startTransaction_inv {s : State} {owner : Claim} (hw : owner ≠ .free) (l : MsgList) (hv : validateFails l = false)
    (h : Inv s) : Inv (startTransaction owner l s) := arm_inv hw l hv hw (claim_inv hw h)

/-- The same with a submit's frames under it (R200). -/
theorem startSubmission_inv {s : State} (l : MsgList) (hv : validateFails l = false) (h : Inv s) :
    Inv (startTransaction .submission l (push .launch (push .report s))) :=
  have hw : Claim.submission ≠ .free := by simp
  arm_inv hw l hv hw (inv_push .launch (inv_push .report (claim_inv hw h) trivial rfl fun _ => hw) trivial rfl fun _ => hw)

/-- A submit or arm that has not returned keeps its transaction from being submitted or armed over (R208). -/
theorem claim_of_report {s : State} (h : Inv s) (hr : Frame.report ∈ s.todo) : s.claim ≠ .free :=
  h.claimHeld (List.any_eq_true.2 ⟨_, hr, rfl⟩)

theorem report_inv {s : State} (h : Inv s) : Inv (report s) := by
  unfold report
  dsimp only
  split
  · next ht =>
    rw [Bool.and_eq_true, Bool.not_eq_true'] at ht
    exact ⟨fun hh => absurd ht.1 (by simpa using hh), by simp, h.errLatch, h.completionTerminal, fun _ => ht.1, h.frames,
      h.locked, h.oneArm, h.origins, h.modeOfDevice, fun hh => absurd (ht.2.symm.trans hh) (by simp)⟩
  · exact inv_congr h rfl

/-! ### The watchdog -/

theorem abortLocked_inv {s : State} (h : Inv s) : Inv (abortLocked s) := by
  unfold abortLocked
  split
  · exact h
  · exact ⟨fun hh => (by cases hh), fun hh => (by cases hh), by simp [failSilently], fun _ => rfl, fun _ => rfl, h.frames,
      h.locked, h.oneArm, h.origins, h.modeOfDevice, h.claimHeld⟩

theorem expireLocked_inv {s : State} (h : Inv s) : Inv (expireLocked s) := by
  unfold expireLocked
  split
  · exact ⟨fun hh => (by cases hh), fun hh => (by cases hh), by simp, fun _ => rfl, fun _ => rfl, h.frames, h.locked,
      h.oneArm, h.origins, h.modeOfDevice, h.claimHeld⟩
  · exact h

theorem watchdogAbort_inv {s : State} (h : Inv s) : Inv (watchdogAbort s) := by
  unfold watchdogAbort
  split
  · next hl =>
    have e : (release (abortLocked (acquire .initiator s))).returns .nothing
        = { abortLocked s with ret := .nothing } := by
      unfold abortLocked
      by_cases hp : s.phase.terminal = true
      · simp [hp, release, acquire, State.returns, hl]
      · simp [hp, release, acquire, State.returns, failSilently, sendCmd, setreg, hl]
    rw [e]
    exact inv_congr (abortLocked_inv h) rfl
  · exact inv_push _ h trivial rfl (by simp [Frame.unreturned])

theorem terminalWaitExpired_inv {s : State} (h : Inv s) : Inv (terminalWaitExpired s) := by
  unfold terminalWaitExpired
  split
  · next hl =>
    have e : (release (expireLocked (acquire .initiator s))).returns .nothing
        = { expireLocked s with ret := .nothing } := by
      unfold expireLocked
      by_cases hp : s.err = .none
      · simp [hp, release, acquire, State.returns, hl]
      · simp [hp, release, acquire, State.returns, hl]
    rw [e]
    exact inv_congr (expireLocked_inv h) rfl
  · exact inv_push _ h trivial rfl (by simp [Frame.unreturned])

end Sys2Proof.Machine
end

