-- ==== Sys2Proof/Laws/PerInstr.lean ====
section
/-! SUPPORT. Statements made of every instruction as syntax, one lemma per constructor. -/

namespace Sys2Proof.Laws

/-- The bytes of an instruction's call begin with its table word and its format byte. -/
def EncodeHead.Statement (i : Instr) : Prop := ∃ args, encode i = opWord i :: fmtOf i :: args

theorem EncodeHead.cmdStart : EncodeHead.Statement (.cmdStart) := ⟨_, rfl⟩
theorem EncodeHead.cmdWrite : EncodeHead.Statement (.cmdWrite) := ⟨_, rfl⟩
theorem EncodeHead.cmdReadAck : EncodeHead.Statement (.cmdReadAck) := ⟨_, rfl⟩
theorem EncodeHead.cmdReadNack : EncodeHead.Statement (.cmdReadNack) := ⟨_, rfl⟩
theorem EncodeHead.cmdStop : EncodeHead.Statement (.cmdStop) := ⟨_, rfl⟩
theorem EncodeHead.cmdIack : EncodeHead.Statement (.cmdIack) := ⟨_, rfl⟩
theorem EncodeHead.cmdRecover : EncodeHead.Statement (.cmdRecover) := ⟨_, rfl⟩
theorem EncodeHead.msgWrite (l : Bool) (o : MsgOperands) : EncodeHead.Statement (.msgWrite l o) := ⟨_, rfl⟩
theorem EncodeHead.msgRead (o : MsgOperands) : EncodeHead.Statement (.msgRead o) := ⟨_, rfl⟩
theorem EncodeHead.msgReadRecvlen (o : MsgOperands) : EncodeHead.Statement (.msgReadRecvlen o) := ⟨_, rfl⟩
theorem EncodeHead.msgWriteNostart (l : Bool) (o : MsgOperands) : EncodeHead.Statement (.msgWriteNostart l o) := ⟨_, rfl⟩
theorem EncodeHead.msgReadNostart (o : MsgOperands) : EncodeHead.Statement (.msgReadNostart o) := ⟨_, rfl⟩
theorem EncodeHead.msgReadRecvlenNostart (o : MsgOperands) : EncodeHead.Statement (.msgReadRecvlenNostart o) := ⟨_, rfl⟩
theorem EncodeHead.configure (cfg : Surface) : EncodeHead.Statement (.configure cfg) := ⟨_, rfl⟩
theorem EncodeHead.submit (msgs : MsgList) : EncodeHead.Statement (.submit msgs) := ⟨_, rfl⟩
theorem EncodeHead.validate (msgs : MsgList) : EncodeHead.Statement (.validate msgs) := ⟨_, rfl⟩
theorem EncodeHead.arm (msgs : MsgList) : EncodeHead.Statement (.arm msgs) := ⟨_, rfl⟩
theorem EncodeHead.recover : EncodeHead.Statement (.recover) := ⟨_, rfl⟩
theorem EncodeHead.step : EncodeHead.Statement (.step) := ⟨_, rfl⟩
theorem EncodeHead.irqEntry : EncodeHead.Statement (.irqEntry) := ⟨_, rfl⟩
theorem EncodeHead.waitIrq : EncodeHead.Statement (.waitIrq) := ⟨_, rfl⟩
theorem EncodeHead.pollLoop : EncodeHead.Statement (.pollLoop) := ⟨_, rfl⟩
theorem EncodeHead.pollWait (mask : Byte) (t : Nat) : EncodeHead.Statement (.pollWait mask t) := ⟨_, rfl⟩
theorem EncodeHead.watchdogAbort : EncodeHead.Statement (.watchdogAbort) := ⟨_, rfl⟩
theorem EncodeHead.report : EncodeHead.Statement (.report) := ⟨_, rfl⟩
theorem EncodeHead.getreg (id : RegId) : EncodeHead.Statement (.getreg id) := ⟨_, rfl⟩
theorem EncodeHead.setreg (id : RegId) (value : Byte) : EncodeHead.Statement (.setreg id value) := ⟨_, rfl⟩

end Sys2Proof.Laws
end

