-- ==== Sys2Proof/Tests/Slice0.lean ====
section
/-! SUPPORT. Small tests on fixed values. Expected values come from spec/95_test_vectors.md (the vector is named in the
docstring) or from the spec's encoding tables; the witnesses show that the hypotheses of the statements can be met. -/

namespace Sys2Proof.Tests

open Sys2Proof Sys2Proof.Machine

/-! ### Helpers -/

/-- The next state, where there is one. -/
def after? (o : Host.Outcome State Fault Refusal) : Option State :=
  match o with
  | .next s => some s
  | .fault _ => none
  | .refused _ => none

/-- The next state; the reset state where there is none. -/
def after (o : Host.Outcome State Fault Refusal) : State := (after? o).getD State.reset

/-- A next state is answered. -/
def goesOn (o : Host.Outcome State Fault Refusal) : Bool := (after? o).isSome

theorem next_after {o : Host.Outcome State Fault Refusal} (h : goesOn o = true) : o = .next (after o) := by
  cases o <;> first | rfl | cases h

/-- Configured with the defaults, no transaction, and the register reads answer `reads`. -/
def ready (mode : Mode) (reads : List Byte) : State :=
  { State.reset with
    configured := true
    dev := { DeviceConfig.reset with interruptOrPoll := mode }
    mode := mode
    env := { Env.reset with answers := reads } }

/-- A submitted transaction under way. -/
def running (msgs : List Message) (phase : Phase) (cursor position : Nat) (reads : List Byte) : State :=
  { ready .interrupt reads with
    msgs := some msgs, phase := phase, cursor := cursor, position := position, claim := .submission }

/-- `W(a, bytes)`. -/
def W (a : Nat) (bytes : List Byte) : Message :=
  { addr := a, rd := false, nostart := false, recvlen := false, len := bytes.length, buf := some bytes }

/-- `R(a, n)`. -/
def R (a n : Nat) : Message :=
  { addr := a, rd := true, nostart := false, recvlen := false, len := n, buf := some (List.replicate n 0) }

/-- `RL(a)`, declared length 1. -/
def RL (a : Nat) : Message :=
  { addr := a, rd := true, nostart := false, recvlen := true, len := 1, buf := some (List.replicate 33 0) }

/-- `m+N`. -/
def N (m : Message) : Message := { m with nostart := true }

/-- A row of the vectors' tables: State, cursor, position, err after, and the register writes made. -/
structure Row where
  phase : Phase
  cursor : Nat
  position : Nat
  err : Err
  writes : List (RegId × Byte)
  deriving DecidableEq, Repr

def row (s : State) (o : Host.Outcome State Fault Refusal) : Option Row :=
  (after? o).map fun t => ⟨t.phase, t.cursor, t.position, t.err, writesSince s t⟩

/-- The row of one instruction executed in a state. -/
def runs (i : Instr) (s : State) : Option Row := row s (exec i s)

/-- The reference engine in a given state, with the environment's moves before the accesses. -/
def lab (e : Engine) (moves : List (List EnvMove)) : State :=
  { ready .poll [] with env := { Env.reset with level := .reference, eng := e, moves := moves } }

/-- A state whose clock readings are apart by these times. -/
def timed (s : State) (ds : List Nat) : State := { s with env := { s.env with elapse := ds } }

/-! ### WellFormed -/

theorem test_wf_operands_refused :
    (MsgOperands.legal false false ⟨0x50, 1, none⟩ = false) ∧ (MsgOperands.legal false false ⟨0x80, 1, some [0]⟩ = false)
      ∧ (MsgOperands.legal false false ⟨0x50, 2, some [0]⟩ = false)
      ∧ (MsgOperands.legal true false ⟨0x50, 1, some (List.replicate 32 0)⟩ = false)
      ∧ (MsgOperands.legal false true ⟨0x50, 0, some [0]⟩ = false) := by decide

theorem test_wf_operands_accepted :
    MsgOperands.legal true true ⟨0x7F, 1, some (List.replicate 33 0)⟩ = true
      ∧ MsgOperands.legal false false ⟨0, 0, some []⟩ = true := by decide

theorem test_wf_instr_refused :
    (Instr.msgWrite true ⟨0x50, 1, none⟩).wf = false ∧ (Instr.msgRead ⟨0x80, 0, some []⟩).wf = false
      ∧ (Instr.msgReadRecvlen ⟨0x0B, 1, some [0]⟩).wf = false ∧ (Instr.msgWriteNostart false ⟨0x50, 0, some []⟩).wf = false
      ∧ (Instr.msgReadNostart ⟨0x50, 0, some []⟩).wf = false
      ∧ (Instr.msgReadRecvlenNostart ⟨0x0B, 1, some [0]⟩).wf = false
      ∧ (Instr.configure ⟨100000, 0, 1, .little, .poll, 0, 0⟩).wf = false
      ∧ (Instr.configure ⟨100000, 400, 3, .little, .poll, 0, 0⟩).wf = false
      ∧ (Instr.arm none).wf = false ∧ (Instr.pollWait 0 5).wf = false ∧ (Instr.pollWait 2 0).wf = false := by decide

/-- S19 to S23, and a message longer than its buffer. -/
theorem test_wf_list_refused :
    listLegal none = false ∧ listLegal (some []) = false ∧ listLegal (some [W 0x80 [1]]) = false
      ∧ listLegal (some [{ R 0x50 2 with buf := none }]) = false
      ∧ listLegal (some [W 0x50 [1], N (W 0x50 [])]) = false
      ∧ listLegal (some [{ RL 0x0B with buf := some (List.replicate 10 0) }]) = false
      ∧ listLegal (some [{ R 0x50 2 with buf := some [0] }]) = false := by decide

theorem test_wf_params_refused :
    ({ Params.default with regCmd := 3 }).legal = false ∧ ({ Params.default with ctrlEn := 0xC0 }).legal = false
      ∧ ({ Params.default with ctrlIen := 0x80 }).legal = false ∧ ({ Params.default with statAl := 0 }).legal = false
      ∧ ({ Params.default with statTip := 0x40 }).legal = false ∧ ({ Params.default with cmdIack := 0x11 }).legal = false
      ∧ ({ Params.default with tIrqWait := 0 }).legal = false ∧ ({ Params.default with tPollWait := 0 }).legal = false
      ∧ ({ Params.default with tRecoveryWait := 0 }).legal = false ∧ ({ Params.default with tick := 0 }).legal = false := by
  decide

theorem test_params_admit :
    Params.default.admits (some [W 0x50 [1, 2]]) = true
      ∧ ({ Params.default with lenMax := some 1 }).admits (some [W 0x50 [1, 2]]) = false := by decide

theorem test_wf_params_accepted : Params.default.legal = true := by decide

/-! ### Decode: the words written out from R95, R99, R103 -/

theorem test_decode_commands :
    decode [0b10010001, 1] = .ok (.cmdStart, []) ∧ decode [0b00010001, 1] = .ok (.cmdWrite, [])
      ∧ decode [0b00100001, 1] = .ok (.cmdReadAck, []) ∧ decode [0b00101001, 1] = .ok (.cmdReadNack, [])
      ∧ decode [0b01000001, 1] = .ok (.cmdStop, []) ∧ decode [0b00000001, 1] = .ok (.cmdIack, [])
      ∧ decode [0b01100001, 1] = .ok (.cmdRecover, []) := ⟨rfl, rfl, rfl, rfl, rfl, rfl, rfl⟩

/-- Kind `{recvlen, nostart, rd}`; address 0x50, length 2, a buffer of two bytes. -/
theorem test_decode_messages :
    decode [0b000, 2, 0x50, 2, 1, 2, 0x12, 0x34] = .ok (.msgWrite false ⟨0x50, 2, some [0x12, 0x34]⟩, [])
      ∧ decode [0b001, 2, 0x50, 2, 1, 2, 0, 0] = .ok (.msgRead ⟨0x50, 2, some [0, 0]⟩, [])
      ∧ decode [0b101, 2, 0x0B, 1, 0] = .ok (.msgReadRecvlen ⟨0x0B, 1, none⟩, [])
      ∧ decode [0b010, 2, 0x50, 1, 1, 1, 7] = .ok (.msgWriteNostart false ⟨0x50, 1, some [7]⟩, [])
      ∧ decode [0b011, 2, 0x50, 1, 1, 1, 0] = .ok (.msgReadNostart ⟨0x50, 1, some [0]⟩, [])
      ∧ decode [0b111, 2, 0x0B, 1, 0] = .ok (.msgReadRecvlenNostart ⟨0x0B, 1, none⟩, [])
      ∧ decode [0b100, 2, 0x0B, 1, 0] = .ok (.msgWrite true ⟨0x0B, 1, none⟩, [])
      ∧ decode [0b110, 2, 0x0B, 1, 0] = .ok (.msgWriteNostart true ⟨0x0B, 1, none⟩, []) :=
  ⟨rfl, rfl, rfl, rfl, rfl, rfl, rfl, rfl⟩

/-- The ordinals of R103; 100000 is 0x20 + 128 * (0x0D + 128 * 0x06), 400 is 0x10 + 128 * 0x03. -/
theorem test_decode_host_operations :
    decode [0, 3, 0xA0, 0x8D, 0x06, 0x90, 0x03, 1, 0, 1, 0, 0]
        = .ok (.configure ⟨100000, 400, 1, .little, .poll, 0, 0⟩, [])
      ∧ decode [1, 3, 1, 1, 0, 0x50, 1, 1, 1, 0x12] = .ok (.submit (some [W 0x50 [0x12]]), [])
      ∧ decode [2, 3, 1, 0] = .ok (.validate (some []), [])
      ∧ decode [3, 3, 1, 1, 1, 0x50, 1, 1, 1, 0] = .ok (.arm (some [R 0x50 1]), [])
      ∧ decode [4, 3] = .ok (.recover, []) ∧ decode [5, 3] = .ok (.step, []) ∧ decode [6, 3] = .ok (.irqEntry, [])
      ∧ decode [7, 3] = .ok (.waitIrq, []) ∧ decode [8, 3] = .ok (.pollLoop, [])
      ∧ decode [9, 3, 0x02, 0x64] = .ok (.pollWait 2 100, []) ∧ decode [10, 3] = .ok (.watchdogAbort, [])
      ∧ decode [11, 3] = .ok (.report, []) ∧ decode [12, 3, 3] = .ok (.getreg .data, [])
      ∧ decode [13, 3, 2, 0x80] = .ok (.setreg .control 0x80, []) :=
  ⟨rfl, rfl, rfl, rfl, rfl, rfl, rfl, rfl, rfl, rfl, rfl, rfl, rfl, rfl⟩

theorem test_decode_rejects :
    decode [0x90, 1] = .error .unknownCommand ∧ decode [8, 2] = .error .unknownKind
      ∧ decode [14, 3] = .error .unknownOperation ∧ decode [15, 3] = .error .unknownOperation
      ∧ decode [0, 4] = .error .unknownFormat ∧ decode [0x91] = .error .truncated
      ∧ decode [12, 3, 5] = .error .unknownRegister ∧ decode [2, 3, 2] = .error .badOperand :=
  ⟨rfl, rfl, rfl, rfl, rfl, rfl, rfl, rfl⟩

/-- A bare word (log 2): a command byte, else a host ordinal. -/
theorem test_decode_bare :
    decodeTableWord 8 0x91 = some .cmdStart ∧ decodeTableWord 8 0x05 = some .step
      ∧ decodeTableWord 8 0x01 = some .cmdIack := ⟨rfl, rfl, rfl⟩

/-! ### Commands and register access -/

/-- The seven bytes (R95), each the one write. -/
theorem test_commands_write :
    [Command.start, .write, .readAck, .readNack, .stop, .iack, .recover].map
        (fun c => writesSince (ready .poll []) (after (exec c.instr (ready .poll []))))
      = [[(.cmd, 0x91)], [(.cmd, 0x11)], [(.cmd, 0x21)], [(.cmd, 0x29)], [(.cmd, 0x41)], [(.cmd, 0x01)],
         [(.cmd, 0x61)]] := by decide

/-- A getreg of CMD reads STATUS; two byte registers, big-endian, shift 1, base 0x100: the value is the low byte, at
0x100 + (4 << 1). -/
def wide : State :=
  { ready .poll [0xAA, 0x41] with
    dev := { DeviceConfig.reset with registerWidth := .two, endianness := .big, baseOffset := 0x100, registerShift := 1 } }

theorem test_getreg_wide :
    ((after (exec (.getreg .cmd) wide)).ret, (after (exec (.getreg .cmd) wide)).env.trace)
      = (.byte 0x41, [.read .cmd 0x108 [0xAA, 0x41] 0x41]) := by decide

theorem test_setreg_wide :
    (after (exec (.setreg .data 0x5A) wide)).env.trace = [.write .data 0x106 [0, 0x5A] 0x5A] := by decide

/-! ### configure -/

/-- P6: prescale 49, in the order of Program 8; CONTROL reads 0x00. -/
theorem test_configure_p6 :
    let s : State := { State.reset with env := { Env.reset with answers := [0] } }
    let t := after (exec (.configure ⟨100000, 400, 1, .little, .interrupt, 0, 0⟩) s)
    (t.dev.prescale, t.configured, t.mode, t.ret, writesSince s t)
      = (49, true, .interrupt, .configured .none,
         [(.control, 0), (.prelow, 0x31), (.prehigh, 0), (.cmd, 0x01), (.control, 0x80)]) := by decide

/-- P7 as 90_conflicts.md C1 has it (prescale 0x021B, success), and a zero bus clock. -/
theorem test_configure_p7 :
    let s : State := { State.reset with env := { Env.reset with answers := [0xFF] } }
    let t := after (exec (.configure ⟨100000, 37, 1, .little, .poll, 0, 0⟩) s)
    (t.dev.prescale, writesSince s t, (after (exec (.configure ⟨100000, 0, 1, .little, .poll, 0, 0⟩) s)).ret)
      = (0x021B, [(.control, 0x3F), (.prelow, 0x1B), (.prehigh, 0x02), (.cmd, 0x01), (.control, 0xBF)],
         .configured .configuration) := by decide

/-! ### The sequencer's step: the rows of section 2.4 (width 1: the reads are STATUS, then DATA) -/

/-- T1, T3, T4, T6 to T11. -/
theorem test_step_write_rows :
    runs .step (running [W 0x50 [1]] .done 1 0 [0xE3]) = some ⟨.done, 1, 0, .none, [(.cmd, 0x01)]⟩
      ∧ runs .step (running [W 0x50 [0x12]] .start 0 0 [0x61]) = some ⟨.error, 0, 0, .arbitration, [(.cmd, 0x41)]⟩
      ∧ runs .step (running [W 0x50 [0x12, 0x34]] .write 0 1 [0xE1]) = some ⟨.error, 0, 1, .arbitration, [(.cmd, 0x41)]⟩
      ∧ runs .step (running [{ W 0x50 [] with buf := none }] .start 0 0 [0x41])
          = some ⟨.error, 0, 0, .parameter, [(.cmd, 0x41)]⟩
      ∧ runs .step (running [W 0x50 [0x12]] .start 0 0 [0xC1]) = some ⟨.error, 0, 0, .nack, [(.cmd, 0x41)]⟩
      ∧ runs .step (running [W 0x50 [1, 2, 3]] .write 0 2 [0xC1]) = some ⟨.error, 0, 2, .nack, [(.cmd, 0x41)]⟩
      ∧ runs .step (running [W 0x50 [0x12, 0x34]] .start 0 0 [0x41])
          = some ⟨.write, 0, 1, .none, [(.data, 0x12), (.cmd, 0x11)]⟩
      ∧ runs .step (running [W 0x50 [0x12, 0x34]] .write 0 1 [0x41])
          = some ⟨.write, 0, 2, .none, [(.data, 0x34), (.cmd, 0x11)]⟩
      ∧ runs .step (running [W 0x50 [0x12, 0x34]] .write 0 2 [0x41]) = some ⟨.done, 1, 0, .none, [(.cmd, 0x41)]⟩ := by
  decide

/-- T12 to T17, T19, T21, T22, T24, T25, T27 to T30. -/
theorem test_step_read_rows :
    runs .step (running [R 0x50 3] .start 0 0 [0x41]) = some ⟨.read, 0, 0, .none, [(.cmd, 0x21)]⟩
      ∧ runs .step (running [R 0x50 1] .start 0 0 [0x41]) = some ⟨.read, 0, 0, .none, [(.cmd, 0x29)]⟩
      ∧ runs .step (running [RL 0x0B] .start 0 0 [0x41]) = some ⟨.read, 0, 0, .none, [(.cmd, 0x21)]⟩
      ∧ runs .step (running [R 0x50 3] .read 0 0 [0x41, 0xDE]) = some ⟨.read, 0, 1, .none, [(.cmd, 0x21)]⟩
      ∧ runs .step (running [R 0x50 3] .read 0 1 [0x41, 0xAD]) = some ⟨.read, 0, 2, .none, [(.cmd, 0x29)]⟩
      ∧ runs .step (running [R 0x50 3] .read 0 2 [0xC1, 0xBE]) = some ⟨.done, 1, 0, .none, [(.cmd, 0x41)]⟩
      ∧ runs .step (running [RL 0x0B] .read 0 0 [0x41, 0x01]) = some ⟨.read, 0, 1, .none, [(.cmd, 0x29)]⟩
      ∧ runs .step (running [RL 0x0B] .read 0 0 [0x41, 0x00]) = some ⟨.error, 0, 1, .blockLength, [(.cmd, 0x41)]⟩
      ∧ runs .step (running [RL 0x0B] .read 0 0 [0x41, 0x21]) = some ⟨.error, 0, 1, .blockLength, [(.cmd, 0x41)]⟩
      ∧ runs .step (running [{ RL 0x0B with len := 3 }] .read 0 1 [0x41, 0x00]) = some ⟨.read, 0, 2, .none, [(.cmd, 0x29)]⟩
      ∧ runs .step (running [W 0x50 [0, 0x10], R 0x50 3] .write 0 2 [0x41])
          = some ⟨.start, 1, 0, .none, [(.data, 0xA1), (.cmd, 0x91)]⟩
      ∧ runs .step (running [W 0x50 [1], N (W 0x50 [2, 3])] .write 0 1 [0x41])
          = some ⟨.write, 1, 1, .none, [(.data, 0x02), (.cmd, 0x11)]⟩
      ∧ runs .step (running [R 0x50 1, N (R 0x50 2)] .read 0 0 [0xC1, 0x07]) = some ⟨.read, 1, 0, .none, [(.cmd, 0x21)]⟩
      ∧ runs .step (running [W 0x50 [1], N (R 0x50 2)] .write 0 1 [0x41]) = some ⟨.read, 1, 0, .none, [(.cmd, 0x21)]⟩
      ∧ runs .step (running [W 0x50 []] .start 0 0 [0x41]) = some ⟨.done, 1, 0, .none, [(.cmd, 0x41)]⟩ := by decide

/-- T18, T20: length and buffer of the message. -/
theorem test_step_extends_the_length :
    let t := after (exec .step (running [RL 0x0B] .read 0 0 [0x41, 0x20]))
    (t.list.map (·.len), t.bufByte 0 0, writesSince (running [RL 0x0B] .read 0 0 [0x41, 0x20]) t)
      = ([33], some 0x20, [(.cmd, 0x21)]) := by decide

/-! ### Messages (R171 to R176; the rows above name the events) -/

/-- V4's arm, for messages fed one by one: the address bytes of the kinds (M1, M2). -/
theorem test_message_start :
    [W 0x50 [0x12], R 0x50 1, RL 0x0B, N (W 0x50 [0x12])].map
        (fun m => runs m.instr (ready .interrupt [0x00, 0x80]))
      = [0xA0, 0xA1, 0x17, 0xA0].map
          (fun b => some ⟨.start, 0, 0, .none, [(.control, 0xC0), (.data, b), (.cmd, 0x91)]⟩) := by decide

/-- A program of one message, its byte sent. -/
def fed : State := { running [W 0x50 [1]] .write 0 1 [0x41] with claim := .program }

/-- T27, T29 with the second message fed by its instruction; a length-prefixed one is never nacked at byte 0 (T14). -/
theorem test_message_nostart :
    runs (N (W 0x50 [2, 3])).instr fed = some ⟨.write, 1, 1, .none, [(.data, 0x02), (.cmd, 0x11)]⟩
      ∧ runs (N (R 0x50 2)).instr fed = some ⟨.read, 1, 0, .none, [(.cmd, 0x21)]⟩
      ∧ runs (N (RL 0x0B)).instr fed = some ⟨.read, 1, 0, .none, [(.cmd, 0x21)]⟩
      ∧ (after (exec (N (W 0x50 [])).instr fed)).ret = .result none .parameter := by decide

/-! ### Submission, adapters, recovery, watchdog: the rows of sections 2.5 and 2.6 -/

/-- S19 to S23 and a legal list. -/
theorem test_validate :
    [some [], some [W 0x80 [1]], some [{ R 0x50 2 with buf := none }], some [W 0x50 [1], N (W 0x50 [])],
        some [{ RL 0x0B with buf := some (List.replicate 10 0) }], some [N (W 0x50 [])], none].map
          (fun l => (after (exec (.validate l) (ready .poll []))).ret)
      = [.valid false, .valid false, .valid false, .valid false, .valid false, .valid true, .valid false] := by decide

/-- V4. -/
theorem test_arm_interrupt :
    row (ready .interrupt [0x00, 0x80]) (exec (.arm (some [W 0x50 [0x12]])) (ready .interrupt [0x00, 0x80]))
      = some ⟨.start, 0, 0, .none, [(.control, 0xC0), (.data, 0xA0), (.cmd, 0x91)]⟩ := by decide

/-- V5. -/
theorem test_arm_poll :
    row (ready .poll [0x00, 0xC0]) (exec (.arm (some [R 0x50 1])) (ready .poll [0x00, 0xC0]))
      = some ⟨.start, 0, 0, .none, [(.control, 0x80), (.data, 0xA1), (.cmd, 0x91)]⟩ := by decide

/-- Program 1's arm; the wait and the report are still to come. S19: an empty list touches no register. -/
theorem test_submit :
    let s := ready .interrupt [0x00, 0x80]
    let t := after (exec (.submit (some [W 0x50 [0x12, 0x34]])) s)
    let e := after (exec (.submit (some [])) s)
    (writesSince s t, t.todo, e.ret, e.env.trace)
      = ([(.control, 0xC0), (.data, 0xA0), (.cmd, 0x91)], [.launch, .report], .result none .parameter, []) := by decide

/-- R134, R292 (V17 for a configure after a success): a failed configure is fatal, for configure, submit, arm and a message. -/
theorem test_configure_failed :
    [Instr.configure ⟨100000, 400, 1, .little, .poll, 0, 0⟩, .submit (some [W 0x50 [1]]), .arm (some [W 0x50 [1]]),
        (W 0x50 [1]).instr].map
        (fun i => goesOn (exec i (after (exec (.configure ⟨1000, 400, 1, .little, .poll, 0, 0⟩) State.reset))))
      = [false, false, false, false] := by decide

/-- V17, a message where a fed program is not yet reported (R208), a configure over an open transaction (R34). -/
theorem test_refused :
    goesOn (exec (.submit (some [W 0x50 [1]])) State.reset) = false
      ∧ goesOn (exec (W 0x50 [1]).instr { ready .poll [] with claim := .program }) = false
      ∧ goesOn (exec (.configure ⟨100000, 400, 1, .little, .poll, 0, 0⟩) (ready .poll [])) = false
      ∧ goesOn (exec (.configure ⟨100000, 400, 1, .little, .poll, 0, 0⟩) { State.reset with claim := .submission }) = false
      ∧ goesOn (exec (.submit (some [W 0x50 [1]])) (running [W 0x50 [1]] .start 0 0 [])) = false := by decide

/-- V6 and V7: the accesses in their order. -/
theorem test_recover :
    let v6 := ready .interrupt [0xDF]
    let v7 := timed (ready .interrupt [0x20, 0xC0, 0x21]) [0]
    (writesSince v6 (after (exec .recover v6)), writesSince v7 (after (exec .recover v7)))
      = ([], [(.control, 0x80), (.cmd, 0x61), (.cmd, 0x01)]) := by decide

/-- V8: BUSY stays set past the bound; acknowledge-clear all the same. -/
theorem test_recover_bound :
    let s := timed (ready .poll [0x60, 0x62]) [0, Params.default.tRecoveryWait + 1]
    (writesSince s (after (exec .recover s)), (after (exec .recover s)).todo, (after (exec .recover s)).err)
      = ([(.cmd, 0x61), (.cmd, 0x01)], [], .none) := by decide

/-- V1, V2, V3. -/
theorem test_irq_entry :
    [running [W 0x50 [1, 2]] .write 0 1 [0x42], running [W 0x50 [0x12, 0x34]] .write 0 1 [0x41, 0x41],
        running [W 0x50 [1]] .done 1 0 [0x01, 0x01]].map (fun s => (runs .irqEntry s, (after (exec .irqEntry s)).irqRet))
      = [(some ⟨.write, 0, 1, .none, []⟩, some .notMine),
         (some ⟨.write, 0, 2, .none, [(.data, 0x34), (.cmd, 0x11)]⟩, some .handled),
         (some ⟨.done, 1, 0, .none, [(.cmd, 0x01)]⟩, some .handled)] := by decide

/-- V9, V10, at the bound and past it. -/
theorem test_poll_wait :
    (after (exec (.pollWait 0x02 0) (timed (ready .poll [0x41]) [0, 9]))).ret = .waited true
      ∧ (after (exec (.pollWait 0x02 5) (timed (ready .poll [0x42]) [0, 6]))).ret = .waited false
      ∧ (after (exec (.pollWait 0x02 5) (timed (ready .poll [0x42]) [0, 5]))).todo = [.pollWaiting 0x02 5 .alone] := by
  decide

/-- Program 2, step 1 after its wait; V11: the wait expires with State START. -/
theorem test_poll_loop :
    runs .pollLoop (timed (running [R 0x50 3] .start 0 0 [0x41, 0x41]) [0]) = some ⟨.read, 0, 0, .none, [(.cmd, 0x21)]⟩
      ∧ (after (exec .pollLoop (timed (running [R 0x50 3] .start 0 0 [0x42]) [0, Params.default.tPollWait + 1]))).todo
          = [.abort] := by decide

/-- The bound of the interrupt wait is inclusive (R204); a terminal State wins (V15). -/
theorem test_wait_irq :
    (after (exec .waitIrq (timed (running [W 0x50 [1]] .start 0 0 []) [0, Params.default.tIrqWait]))).todo = [.abort]
      ∧ (after (exec .waitIrq (timed (running [W 0x50 [1]] .start 0 0 []) [0, Params.default.tIrqWait - 1]))).todo
          = [.suspended]
      ∧ (after (exec .waitIrq (timed (running [W 0x50 [1]] .done 1 0 []) [0, Params.default.tIrqWait]))).todo = [] := by
  decide

/-- V14, V15. -/
theorem test_watchdog_abort :
    [running [W 0x50 [1]] .start 0 0 [], running [W 0x50 [1]] .done 1 0 []].map
        (fun s => (runs .watchdogAbort s, (after (exec .watchdogAbort s)).completion))
      = [(some ⟨.error, 0, 0, .timeout, [(.cmd, 0x41)]⟩, false), (some ⟨.done, 1, 0, .none, []⟩, false)] := by decide

/-- A submit that has not returned and whose State is terminal: a direct report answers, and a second submit is refused (R208);
the submit's own report then ends it, and a submit is accepted (R207). -/
theorem test_report_keeps_the_submit :
    let s := { running [W 0x50 [1]] .done 1 0 [0x00, 0x80] with todo := [.suspended, .report], schedule := [.initiator] }
    let l := Instr.submit (some [W 0x50 [1]])
    (after (exec .report s)).ret = .result (some [W 0x50 [1]]) .none
      ∧ goesOn (exec l (after (exec .report s))) = false
      ∧ goesOn (exec l (after (step { s with todo := [.report] }))) = true := by decide

/-- CleanEntry at the trusted level (R304): poll mode's normal exit establishes it, STATUS having been read with BUSY clear before
the acknowledge-clear; interrupt mode's does not, the STOP being the last command and IEN set, until the trailing event has been
served. -/
theorem test_clean_entry :
    let poll := { running [W 0x50 [1]] .done 1 0 [0x00] with
      todo := [.pollStep, .report], mode := .poll, env := { Env.reset with answers := [0x00] } }
    let irq := { running [W 0x50 [1]] .write 0 1 [] with
      env := { Env.reset with answers := [0x01, 0x01], eng := { Engine.reset with ctr := 0xC0 } } }
    CleanEntry (after (step (after (step poll))))
      ∧ ¬ CleanEntry (after (exec .report (after (exec .step irq))))
      ∧ CleanEntry (after (exec .irqEntry (after (exec .report (after (exec .step irq)))))) := by
  unfold CleanEntry
  decide

/-- Success and an error (R207). -/
theorem test_report :
    (after (exec .report (running [W 0x50 [1]] .done 1 0 []))).ret = .result (some [W 0x50 [1]]) .none
      ∧ (after (exec .report { running [W 0x50 [1]] .error 0 0 [] with err := .nack })).ret = .result none .nack := by
  decide

/-- K5, K7 to K16: the prescale, whether configure fails with exact arithmetic, and with truncating. -/
theorem test_clock_table :
    [(25000, 400), (1000, 400), (100, 37), (1000000, 1), (330000, 1), (400000, 1), (550, 100), (560, 100), (82, 15),
        (83, 15), (0, 100)].map
      (fun k => let p := computePrescale k.1 k.2
        (p.toNat, toleranceFails .exact k.1 k.2 (clockDivisor p), toleranceFails .truncating k.1 k.2 (clockDivisor p)))
      = [(11, false, false), (0, true, true), (0, true, true), (65535, true, true), (65535, false, false),
         (65535, true, false), (0, false, false), (0, true, true), (0, false, false), (0, true, false),
         (0, true, true)] := by decide

/-- M1, M10: the reference engine's reaction to START, and to a command while disabled. -/
theorem test_reference_command :
    (after (exec .cmdStart (lab { Engine.reset with ctr := 0x80, al := true, ifl := true } []))).env.eng
        = { Engine.reset with ctr := 0x80, busy := true, tip := true, inflight := some .start }
      ∧ (after (exec .cmdIack (lab { Engine.reset with ctr := 0x40, ifl := true } []))).env.eng
        = { Engine.reset with ctr := 0x40, ifl := true } := by decide

/-- An engine, enabled, with a command in flight. -/
def flying (c : Command) : Engine := { Engine.reset with ctr := 0x80, busy := true, tip := true, inflight := some c }

/-- R155, R270: the START of an arm completes while the initiator is suspended, and the signal is delivered: event 1 of
program 1. -/
theorem test_completion_is_delivered :
    let s0 := running [W 0x50 [0x12, 0x34]] .start 0 0 []
    let s : State := { s0 with
      todo := [.suspended]
      schedule := [.environment (.complete true 0), .deliver]
      env := { Env.reset with level := .reference, eng := { flying .start with ctr := 0xC0, txr := 0xA0 } } }
    (row (after (step s)) (step (after (step s))), (after (step (after (step s)))).irqRet)
      = (some ⟨.write, 0, 1, .none, [(.data, 0x12), (.cmd, 0x11)]⟩, some .handled) := by decide

/-- R154: the winning master frees the bus while the STOP of the lost transaction is in flight. -/
theorem test_bus_release :
    ((flying .stop).lose.accept Params.default .stop).release.busy = false
      ∧ (flying .stop).release.busy = true := by decide

/-- A7, A8: the bytes above a register's own are whatever they are at the reference level, too. -/
theorem test_reference_wide_read :
    let s := lab { Engine.reset with ctr := 0x80 } []
    let w : State := { s with dev := { s.dev with registerWidth := .four }, env := { s.env with answers := [0xFF, 0xFE, 0xFD] } }
    (after (exec (.getreg .control) w)).env.trace = [.read .control 2 [0x80, 0xFF, 0xFE, 0xFD] 0x80] := by decide

/-! ### Witnesses: the hypotheses of the statements can be met -/

/-- GetregIsOneRead, SetregIsOneWrite, CommandsWriteTheirByte, StepCountsItsAccesses, WaitIrqLooksAtStateThenTime,
PollWaitReadsStatusFirst, PollLoopStepsAtABoundary (their first clauses): the trusted level. -/
theorem witness_trusted_level : State.reset.env.level = .oracle := rfl

/-- GetregIsOneRead: the oracle's list covers the read, at the widths one and two. -/
theorem witness_GetregIsOneRead :
    (ready .poll [0x41, 7]).env.answers = [0x41] ++ [7] ∧ [(0x41 : Byte)].length = (ready .poll []).dev.registerWidth.bytes
      ∧ wide.env.answers = [0xAA, 0x41] ++ [] ∧ [(0xAA : Byte), 0x41].length = wide.dev.registerWidth.bytes := by decide

/-- A state about to fetch a call. -/
def calling (bytes : List Byte) (s : State) : State := { s with schedule := [.call bytes] }

theorem witness_UndecodableCallsFault :
    (calling [0, 1] State.reset).schedule = .call (0 :: 1 :: []) :: []
      ∧ (0 : Byte) ∉ [(0x91 : Byte), 0x11, 0x21, 0x29, 0x41, 0x01, 0x61]
      ∧ (0x0E : Byte) ∉ [(0x91 : Byte), 0x11, 0x21, 0x29, 0x41, 0x01, 0x61] ∧ 14 ≤ (0x0E : Byte).toNat
      ∧ 5 ≤ (5 : Byte).toNat ∧ 2 ≤ (2 : Byte).toNat
      ∧ decode [12, 3, 5] = .error .unknownRegister ∧ decode [2, 3, 2] = .error .badOperand
      ∧ step (calling [0x0E, 0] State.reset) = .fault (.undefinedCall .unknownOperation)
      ∧ step (calling [12, 3] State.reset) = .fault (.undefinedCall .truncated)
      ∧ step (calling [0, 1] State.reset) = .fault (.undefinedCall .unknownCommand)
      ∧ step (calling [8, 2] State.reset) = .fault (.undefinedCall .unknownKind)
      ∧ step (calling [14, 3] State.reset) = .fault (.undefinedCall .unknownOperation)
      ∧ step (calling [0, 4] State.reset) = .fault (.undefinedCall .unknownFormat) :=
  ⟨rfl, by decide, by decide, by decide, by decide, by decide, rfl, rfl, rfl, rfl, rfl, rfl, rfl, rfl⟩

/-- CommandBytesAreComparedWhole, StatusByteHasItsBits, ReferenceWrites: the default parameters are legal. -/
theorem witness_legal_params : Params.default.legal = true := by decide

theorem witness_AddressByteIsAddressAndDirection :
    (W 0x7F []).addr ≤ 0x7F ∧ W 0x80 [] ∈ [W 0x80 []] ∧ 0x7F < (W 0x80 []).addr ∧ (ready .poll []).configureFailed = false
      ∧ (ready .poll []).configured = true ∧ (ready .poll []).claim = .free := by decide

theorem witness_MarshallingIsTheByteOrder : [(0xDE : Byte), 0xAD, 0xBE, 0x41].length = Width.four.bytes := rfl

theorem witness_ReferenceReads :
    (lab Engine.reset []).env.level = .reference ∧ (lab Engine.reset []).env.refusal = none
      ∧ (lab Engine.reset []).env.moves = [] := by decide

/-- The engine disabled, enabled and idle (with a byte that is no command), and enabled with a command in flight; CONTROL
written with EN clear. -/
theorem witness_ReferenceWrites :
    (lab (flying .write) []).env.level = .reference ∧ (lab (flying .write) []).env.refusal = none
      ∧ (lab (flying .write) []).params.legal = true
      ∧ isSet (lab Engine.reset []).env.eng.ctr Params.default.ctrlEn = false
      ∧ isSet (lab (flying .write) []).env.eng.ctr Params.default.ctrlEn = true
      ∧ (lab (flying .write) []).env.eng.inflight ≠ none ∧ isSet (0x7F : Byte) Params.default.ctrlEn = false
      ∧ (0x90 : Byte) ∉ [Command.start, .write, .readAck, .readNack, .stop, .iack, .recover].map Params.default.cmdByte := by
  decide

theorem witness_ReferenceEnvironmentMoves :
    (lab (flying .start) [[.complete false 0]]).env.eng.inflight = some .start
      ∧ (lab (flying .start) [[.complete false 0]]).env.moves = [.complete false 0] :: []
      ∧ (lab (flying .start) [[.lose]]).env.eng.inflight ≠ none
      ∧ (lab (flying .stop).lose [[.busRelease]]).env.eng.otherMaster = true
      ∧ (lab ((flying .stop).lose.accept Params.default .stop) [[.busRelease]]).env.eng.otherMaster = true := by decide

/-- The address byte, a data byte, a read; a target that sends a byte. -/
theorem witness_SimulatedTargetAnswers :
    (lab (flying .start) [[.completeByTarget]]).env.moves = [.completeByTarget] :: []
      ∧ (lab (flying .start) []).env.eng.inflight = some .start ∧ (lab (flying .write) []).env.eng.inflight = some .write
      ∧ (lab (flying .readNack) []).env.eng.inflight = some .readNack
      ∧ (⟨0x50, none, [7], true⟩ : Target).selected = true ∧ (⟨0x50, none, [7], true⟩ : Target).out = 7 :: [] := by decide

theorem witness_PrescaleIsTheClampedQuotient : (0 : Nat) < 1 := by decide

/-- A zero bus clock (K17), width 3 (K18), a clock out of reach (K7); K1 passes. -/
theorem witness_ConfigureBringsUp :
    State.reset.configured = false ∧ State.reset.configureFailed = false ∧ State.reset.claim = .free
      ∧ (⟨100000, 0, 1, .little, .poll, 0, 0⟩ : Surface).busClockKHz = 0
      ∧ (⟨100000, 400, 3, .little, .poll, 0, 0⟩ : Surface).registerWidth ∉ [1, 2, 4]
      ∧ toleranceFails Params.default.clockArith 1000 400 (clockDivisor (computePrescale 1000 400)) = true
      ∧ toleranceFails Params.default.clockArith 100000 400 (clockDivisor (computePrescale 100000 400)) = false
      ∧ Width.one.bytes = (⟨100000, 400, 1, .little, .poll, 0, 0⟩ : Surface).registerWidth := by decide

theorem witness_RefusedByTheSpec :
    (ready .poll []).configured = true ∧ State.reset.configured = false
      ∧ ({ State.reset with claim := .program }).configured = false ∧ ({ State.reset with claim := .program }).claim ≠ .free
      ∧ (running [] .start 0 0 []).configured = true
      ∧ (running [] .start 0 0 []).claim ≠ .free ∧ (running [] .start 0 0 []).claim = .submission
      ∧ ({ State.reset with configureFailed := true }).configureFailed = true ∧ (running [] .start 0 0 []).configureFailed = false
      ∧ (ready .poll []).configureFailed = false
      ∧ ({ ready .poll [] with claim := .program }).claim = .program ∧ (ready .poll []).phase.terminal = true := by decide

theorem witness_StepInTerminalState :
    (ready .poll [0xE3]).env.level = .oracle ∧ (ready .poll [0xE3]).phase = .done := by decide

/-- T3. -/
theorem witness_StepSeesArbitrationLost :
    let s := running [W 0x50 [0x12]] .start 0 0 [0x61]
    s.env.level = .oracle ∧ s.phase ≠ .done ∧ s.phase ≠ .error ∧ s.params.al (statusRead s) = true := by decide

/-- T6, and a State START with no list bound. -/
theorem witness_StepFindsTheListMalformed :
    let s := running [{ W 0x50 [] with buf := none }] .start 0 0 [0x41]
    s.phase ≠ .done ∧ s.phase ≠ .error ∧ s.params.al (statusRead s) = false
      ∧ s.current = some { W 0x50 [] with buf := none } ∧ ({ s with msgs := none }).msgs = none := by decide

/-- T7. -/
theorem witness_StepIsNotAcknowledged :
    let s := running [W 0x50 [0x12]] .start 0 0 [0xC1]
    s.phase = .start ∧ s.params.al (statusRead s) = false ∧ s.current = some (W 0x50 [0x12]) ∧ (W 0x50 [0x12]).buf ≠ none
      ∧ s.params.nack (statusRead s) = true := by decide

/-- T21, T22: 0 and 33. -/
theorem witness_StepRefusesABlockLength :
    let s := fun b => running [RL 0x0B] .read 0 0 [0x41, b]
    (s 0).phase = .read ∧ (s 0).params.al (statusRead (s 0)) = false ∧ (s 0).current = some (RL 0x0B)
      ∧ (dataRead (s 0)).toNat < 1 ∧ 32 < (dataRead (s 33)).toNat := by
  refine ⟨rfl, rfl, rfl, ?_, ?_⟩ <;> decide

/-- T11, of a write; T17, of a read. -/
theorem witness_StepEndsTheList :
    (∃ u m', Taken (running [W 0x50 [0x12, 0x34]] .write 0 2 [0x41]) (W 0x50 [0x12, 0x34]) u ∧ u.current = some m'
      ∧ u.position = m'.len ∧ u.msgAt (u.cursor + 1) = none)
    ∧ ∃ u m', Taken (running [R 0x50 3] .read 0 2 [0xC1, 0xBE]) (R 0x50 3) u ∧ u.current = some m'
      ∧ u.position = m'.len ∧ u.msgAt (u.cursor + 1) = none :=
  ⟨⟨_, _, ⟨rfl, rfl, rfl, by decide, .inl ⟨by decide, rfl, rfl⟩⟩, rfl, rfl, rfl⟩,
   ⟨_, _, ⟨rfl, rfl, rfl, by decide, .inr ⟨rfl, by decide, rfl⟩⟩, rfl, rfl, rfl⟩⟩

/-- T25. -/
theorem witness_StepStartsTheNextMessage :
    ∃ u m', Taken (running [W 0x50 [0, 0x10], R 0x50 3] .write 0 2 [0x41]) (W 0x50 [0, 0x10]) u ∧ u.current = some m'
      ∧ u.position = m'.len ∧ u.msgAt (u.cursor + 1) = some (R 0x50 3) ∧ (R 0x50 3).nostart = false :=
  ⟨_, _, ⟨rfl, rfl, rfl, by decide, .inl ⟨by decide, rfl, rfl⟩⟩, rfl, rfl, rfl, rfl⟩

/-- T27 and T29: a write and a read that continue. -/
theorem witness_StepContinuesWithoutStart :
    (∃ u m', Taken (running [W 0x50 [1], N (W 0x50 [2, 3])] .write 0 1 [0x41]) (W 0x50 [1]) u ∧ u.current = some m'
      ∧ u.position = m'.len ∧ u.msgAt (u.cursor + 1) = some (N (W 0x50 [2, 3])))
    ∧ ∃ u m', Taken (running [W 0x50 [1], N (R 0x50 2)] .write 0 1 [0x41]) (W 0x50 [1]) u ∧ u.current = some m'
      ∧ u.position = m'.len ∧ u.msgAt (u.cursor + 1) = some (N (R 0x50 2)) :=
  ⟨⟨_, _, ⟨rfl, rfl, rfl, by decide, .inl ⟨by decide, rfl, rfl⟩⟩, rfl, rfl, rfl⟩,
   ⟨_, _, ⟨rfl, rfl, rfl, by decide, .inl ⟨by decide, rfl, rfl⟩⟩, rfl, rfl, rfl⟩⟩

/-- T13 (the last byte), T14 (byte 0 of a length-prefixed message), T15. -/
theorem witness_StepAsksForTheNextByte :
    (∃ u m', Taken (running [R 0x50 1] .start 0 0 [0x41]) (R 0x50 1) u ∧ u.current = some m' ∧ u.position ≠ m'.len
      ∧ u.phase = .read ∧ u.position + 1 = m'.len)
    ∧ (∃ u m', Taken (running [RL 0x0B] .start 0 0 [0x41]) (RL 0x0B) u ∧ u.current = some m' ∧ u.position ≠ m'.len
      ∧ u.phase = .read ∧ u.position + 1 = m'.len ∧ m'.recvlen = true)
    ∧ ∃ u m', Taken (running [R 0x50 3] .read 0 0 [0x41, 0xDE]) (R 0x50 3) u ∧ u.current = some m' ∧ u.position ≠ m'.len
      ∧ u.phase = .read :=
  ⟨⟨_, _, ⟨rfl, rfl, rfl, by decide, .inl ⟨by decide, rfl, rfl⟩⟩, rfl, by decide, rfl, rfl⟩,
   ⟨_, _, ⟨rfl, rfl, rfl, by decide, .inl ⟨by decide, rfl, rfl⟩⟩, rfl, by decide, rfl, rfl, rfl⟩,
   ⟨_, _, ⟨rfl, rfl, rfl, by decide, .inr ⟨rfl, by decide, rfl⟩⟩, rfl, by decide, rfl⟩⟩

/-- T9. -/
theorem witness_StepSendsTheNextByte :
    ∃ u m', Taken (running [W 0x50 [0x12, 0x34]] .start 0 0 [0x41]) (W 0x50 [0x12, 0x34]) u ∧ u.current = some m'
      ∧ u.position ≠ m'.len ∧ u.phase = .write :=
  ⟨_, _, ⟨rfl, rfl, rfl, by decide, .inl ⟨by decide, rfl, rfl⟩⟩, rfl, by decide, rfl⟩

/-- T20: the largest block length; the reads of such a step, and of one in State START. -/
theorem witness_StepReadsBeforeItWrites :
    ((running [RL 0x0B] .read 0 0 [0x41, 0x20]).phase = .read
      ∧ (running [RL 0x0B] .read 0 0 [0x41, 0x20]).params.al (statusRead (running [RL 0x0B] .read 0 0 [0x41, 0x20])) = false
      ∧ (running [RL 0x0B] .read 0 0 [0x41, 0x20]).current = some (RL 0x0B) ∧ (RL 0x0B).buf ≠ none
      ∧ (running [RL 0x0B] .start 0 0 [0x41]).phase ≠ .read)
    ∧ (∃ u, Taken (running [RL 0x0B] .read 0 0 [0x41, 0x20]) (RL 0x0B) u)
      ∧ ∃ u, Taken (running [RL 0x0B] .start 0 0 [0x41]) (RL 0x0B) u :=
  ⟨by decide, ⟨_, rfl, rfl, rfl, by decide, .inr ⟨rfl, by decide, rfl⟩⟩, ⟨_, rfl, rfl, rfl, by decide, .inl ⟨by decide, rfl, rfl⟩⟩⟩

/-- StepCountsItsAccesses, StepTouchesOneByte: a step that completes and reads DATA. -/
theorem witness_StepTouchesOneByte :
    let s := running [R 0x50 3] .read 0 0 [0x41, 0xDE]
    exec .step s = .next (after (exec .step s)) ∧ (eventsSince s (after (exec .step s))).countP (Event.reads .data) = 1 :=
  ⟨rfl, by decide⟩

theorem witness_MessageStartsAProgram :
    (ready .interrupt [0, 0x80]).phase = .done ∧ (ready .interrupt [0, 0x80]).claim = .free
      ∧ (ready .interrupt [0, 0x80]).configureFailed = false
      ∧ (ready .interrupt [0, 0x80]).lock = .free
      ∧ (ready .interrupt [0, 0x80]).params.al (statusRead (ready .interrupt [0, 0x80])) = false
      ∧ (W 0x7F [1]).legal false = true ∧ (N (W 0x50 [])).legal false = true
      ∧ ({ ready .interrupt [] with lock := .interrupt }).lock ≠ .free := by decide

/-- A legal and an illegal follower, and an illegal first message. -/
theorem witness_MessageFollowsInOrder :
    fed.claim ≠ .submission ∧ fed.configureFailed = false ∧ (ready .poll []).configureFailed = false ∧ fed.phase.terminal = false ∧ (R 0x50 2).legal true = true
      ∧ (N (W 0x50 [])).legal (!fed.phase.terminal) = false
      ∧ (ready .poll []).claim = .free ∧ (W 0x80 []).legal (!(ready .poll []).phase.terminal) = false := by decide

/-- T27 and T29 as a program. -/
theorem witness_NostartMessageContinues :
    (fed.configureFailed = false ∧ fed.cursor + 1 = fed.list.length ∧ (N (W 0x50 [2, 3])).legal true = true ∧ (N (R 0x50 1)).legal true = true)
    ∧ (∃ u m', Taken { fed with msgs := some (fed.list ++ [N (W 0x50 [2, 3])]), claim := .program } (W 0x50 [1]) u
      ∧ u.current = some m' ∧ u.position = m'.len)
    ∧ ∃ u m', Taken { fed with msgs := some (fed.list ++ [N (R 0x50 1)]), claim := .program } (W 0x50 [1]) u
      ∧ u.current = some m' ∧ u.position = m'.len :=
  ⟨by decide, ⟨_, _, ⟨rfl, rfl, rfl, by decide, .inl ⟨by decide, rfl, rfl⟩⟩, rfl, rfl⟩,
   ⟨_, _, ⟨rfl, rfl, rfl, by decide, .inl ⟨by decide, rfl, rfl⟩⟩, rfl, rfl⟩⟩

/-- Program 1: arm's STATUS and CONTROL, then the statuses of the events. -/
theorem witness_WriteMessageRunsToDone :
    let s := ready .interrupt [0x00, 0x80, 0x41, 0x41, 0x41]
    s.phase.terminal = true ∧ s.claim = .free ∧ s.configureFailed = false ∧ s.lock = .free ∧ s.params.al 0x00 = false
      ∧ [(0x41 : Byte), 0x41, 0x41].length = [(0x12 : Byte), 0x34].length + 1
      ∧ (∀ v ∈ [(0x41 : Byte), 0x41, 0x41], s.params.al v = false ∧ s.params.nack v = false)
      ∧ s.env.answers = answersOf s.dev [0x00, 0x80, 0x41, 0x41, 0x41] ++ [] := by decide

/-- Statuses and bytes of a read of two bytes. -/
def readPairs : List (Byte × Byte) := [(0x41, 0xDE), (0xC1, 0xAD)]

/-- A read of two bytes; no byte at all (T31). -/
theorem witness_ReadMessageRunsToDone :
    ((ready .interrupt []).phase.terminal = true ∧ (ready .interrupt []).claim = .free ∧ (ready .interrupt []).lock = .free
      ∧ (ready .interrupt []).configureFailed = false ∧ Params.default.al 0x00 = false ∧ Params.default.al 0x41 = false ∧ Params.default.nack 0x41 = false
      ∧ readPairs.all (fun vb => Params.default.al vb.1 == false) = true)
    ∧ (ready .interrupt [0x00, 0x80, 0x41, 0x41, 0xDE, 0xC1, 0xAD]).env.answers
        = answersOf (ready .interrupt []).dev (0x00 :: 0x80 :: 0x41 :: readPairs.flatMap fun vb => [vb.1, vb.2]) ++ []
    ∧ (ready .interrupt [0x00, 0x80, 0x41]).env.answers
        = answersOf (ready .interrupt []).dev (0x00 :: 0x80 :: 0x41 :: [].flatMap fun vb : Byte × Byte => [vb.1, vb.2]) ++ [] :=
  ⟨by decide, rfl, rfl⟩

theorem witness_MalformedListsAreNotArmed :
    (ready .poll []).claim = .free ∧ listLegal (some []) = false ∧ (ready .poll []).configured = true
      ∧ (ready .poll []).configureFailed = false := by decide

/-- ArmStartsTheTransaction (V4) and SubmitArmsThenWaits. -/
theorem witness_ArmStartsTheTransaction :
    let s := ready .interrupt [0x00, 0x80]
    s.env.level = .oracle ∧ s.claim = .free ∧ s.configureFailed = false ∧ listLegal (some (W 0x50 [0x12] :: [])) = true ∧ s.lock = .free
      ∧ s.params.al (statusRead s) = false ∧ s.configured = true := by decide

/-- Arbitration lost at arm: BUSY clears at once (program 5). -/
def lostAndFree : State := timed (ready .interrupt [0x20, 0xC0, 0x21, 0x80]) [0]

/-- Arbitration lost at arm: BUSY stays set. -/
def lostAndBusy : State := timed (ready .interrupt [0x20, 0xC0, 0x62]) [0, 0]

/-- A recovery that ends at once, one that waits, and a held lock. -/
theorem witness_ArmRecoversFirst :
    (lostAndFree.configureFailed = false ∧ lostAndBusy.configureFailed = false)
      ∧ lostAndFree.params.al (statusRead lostAndFree) = true ∧ exec .recover lostAndFree = .next (after (exec .recover lostAndFree))
      ∧ (after (exec .recover lostAndFree)).todo = lostAndFree.todo ∧ lostAndBusy.params.al (statusRead lostAndBusy) = true
      ∧ exec .recover lostAndBusy = .next (after (exec .recover lostAndBusy)) ∧ (after (exec .recover lostAndBusy)).todo ≠ lostAndBusy.todo
      ∧ ({ lostAndFree with lock := .initiator }).lock ≠ .free := by
  refine ⟨?_, ?_, next_after ?_, ?_, ?_, next_after ?_, ?_, ?_⟩ <;> decide

theorem witness_RecoverWritesNothingWhenNotLost :
    (ready .poll [0xDF]).params.al (statusRead (ready .poll [0xDF])) = false := by decide

/-- Arbitration lost, in each mode; a recovery wait that is open. -/
theorem witness_RecoverForcesAndWaits :
    (ready .poll [0x20]).params.al (statusRead (ready .poll [0x20])) = true ∧ (ready .poll [0x20]).mode = .poll
      ∧ (ready .interrupt [0x20]).params.al (statusRead (ready .interrupt [0x20])) = true
      ∧ (ready .interrupt [0x20]).mode = .interrupt
      ∧ ({ ready .poll [] with todo := [.recoverWait], t0Recovery := some 0 }).todo = .recoverWait :: []
      ∧ ({ ready .poll [] with todo := [.recoverWait], t0Recovery := some 0 }).t0Recovery = some 0 := by decide

/-- The flag clear, the flag set, the lock held. -/
theorem witness_IrqEntryTestsItsFlag :
    (ready .interrupt [0x42]).lock = .free ∧ (ready .interrupt [0x42]).params.pending (statusRead (ready .interrupt [0x42])) = false
      ∧ (ready .interrupt [0x41]).params.pending (statusRead (ready .interrupt [0x41])) = true
      ∧ ({ ready .interrupt [] with lock := .initiator }).lock ≠ .free := by decide

theorem witness_HandledMeansTheFlagIsDown :
    let s := lab { Engine.reset with ctr := 0xC0, ifl := true } []
    s.env.level = .reference ∧ s.env.moves = [] ∧ s.params.legal = true ∧ s.lock = .free
      ∧ isSet s.env.eng.ctr s.params.ctrlEn = true ∧ s.env.eng.ifl = true
      ∧ exec .irqEntry s = .next (after (exec .irqEntry s)) :=
  ⟨rfl, rfl, by decide, rfl, by decide, rfl, rfl⟩

/-- The second clauses of WaitIrqLooksAtStateThenTime, PollWaitReadsStatusFirst and PollLoopStepsAtABoundary: a wait that is
open, at the initiator's turn in both of its forms. -/
theorem witness_open_waits :
    let w := { ready .interrupt [] with todo := [.suspended], t0Irq := some 0 }
    let p := { ready .poll [] with todo := [.pollWaiting 2 5 .alone], t0Poll := some 0 }
    let q := { ready .poll [] with todo := [.pollWaiting 2 5 (.loop false)], t0Poll := some 0, schedule := [.initiator] }
    w.env.level = .oracle ∧ w.schedule = [] ∧ w.todo = .suspended :: [] ∧ w.t0Irq = some 0
      ∧ p.schedule = [] ∧ p.todo = .pollWaiting 2 5 .alone :: [] ∧ p.t0Poll = some 0
      ∧ q.schedule = .initiator :: [] ∧ q.todo = .pollWaiting 2 5 (.loop false) :: [] ∧ q.t0Poll = some 0 := by decide

/-- PollLoopStepsAtABoundary, a later pass: still waiting, the bit clear (a step, State not terminal), the bound exceeded. -/
theorem witness_later_passes :
    let s := fun (stats : List Byte) (d : Nat) =>
      ({ timed (running [R 0x50 3] .start 0 0 stats) [d] with
        todo := [.pollWaiting 2 5 (.loop false)], t0Poll := some 0, schedule := [.initiator] } : State)
    (after (step (s [0x42] 5))).todo = [.pollWaiting 2 5 (.loop false)]
      ∧ (after (step (s [0x41, 0x41] 5))).todo = [.pollTop] ∧ (after (step (s [0x42] 6))).todo = [.abort] := by
  refine ⟨?_, ?_, ?_⟩ <;> decide

/-- V14, V15, and a held lock. -/
theorem witness_WatchdogAbortsOnlyARunningTransaction :
    (running [] .start 0 0 []).lock = .free ∧ (running [] .start 0 0 []).phase.terminal = false
      ∧ (running [] .done 0 0 []).phase.terminal = true ∧ ({ ready .poll [] with lock := .interrupt }).lock ≠ .free := by decide

/-- V12, V13. -/
theorem witness_TerminalWaitExpiryKeepsTheFirstError :
    let s := { ready .poll [] with todo := [.terminalExpired] }
    InitiatorTurn s [] ∧ s.todo = .terminalExpired :: [] ∧ s.lock = .free ∧ s.err = .none
      ∧ ({ s with phase := .error, err := .nack }).err ≠ .none ∧ ({ s with lock := .interrupt }).lock ≠ .free :=
  ⟨.inl ⟨rfl, rfl⟩, rfl, rfl, rfl, by decide, by decide⟩

theorem witness_ReportHandsBackTheResult :
    (ready .poll []).phase = .done ∧ (ready .poll []).err = .none ∧ ({ ready .poll [] with phase := .error }).phase = .error
      ∧ (running [] .read 0 0 []).phase.terminal = false ∧ (ready .poll []).unreturned = false
      ∧ Frame.report ∈ ({ running [] .done 0 0 [] with todo := [.suspended, .report] }).todo := by decide

theorem witness_StepRunsTheDecodedCall :
    (calling [5, 3] (ready .poll [])).schedule = .call [5, 3] :: [] ∧ decode [5, 3] = .ok (.step, [])
      ∧ decodeTableWord 8 0x91 = some .cmdStart := ⟨rfl, rfl, rfl⟩

/-- The initiator's turn in both forms, each pending frame named there, a blocked interrupt, nothing pending; a driven and an
undriven signal at both levels; a move of the environment. -/
theorem witness_StepGoesOnWithPendingWork :
    (InitiatorTurn { ready .poll [] with schedule := [.initiator, .deliver] } [.deliver] ∧ InitiatorTurn (ready .poll []) [])
    ∧ ({ ready .interrupt [] with todo := [.launch] }).todo = .launch :: [] ∧ (ready .interrupt []).mode = .interrupt
      ∧ (ready .poll []).mode = .poll ∧ (ready .poll []).configureFailed = false ∧ ({ ready .poll [] with todo := [.pollTop, .abort, .report] }).todo ≠ []
      ∧ listLegal (some [W 0x50 [1]]) = true ∧ (W 0x50 [1]).legal false = true
      ∧ ({ ready .poll [] with todo := [.armStart .program (some [W 0x50 [1]])], claim := .program }).claim = .program
      ∧ ({ ready .poll [] with todo := [.armTail .submission (some [W 0x50 [1]])] }).todo
          = .armTail .submission (some (W 0x50 [1] :: [])) :: []
      ∧ ({ ready .poll [] with todo := [.pollStep] }).todo = .pollStep :: []
      ∧ ({ ready .interrupt [] with irqWaiting := true }).irqWaiting = true ∧ (ready .interrupt []).irqWaiting = false
      ∧ ({ ready .interrupt [] with schedule := [.interrupt] }).schedule = .interrupt :: []
      ∧ ({ lab Engine.reset [] with schedule := [.deliver] }).schedule = .deliver :: []
      ∧ isSet (lab { Engine.reset with ctr := 0xC0, ifl := true } []).env.eng.ctr Params.default.ctrlIen = true
      ∧ isSet (ready .interrupt []).env.eng.ctr Params.default.ctrlIen = false
      ∧ (lab Engine.reset []).env.eng.ifl = false
      ∧ ({ lab (flying .start) [] with schedule := [.environment .lose] }).schedule = .environment .lose :: [] := by
  refine ⟨⟨.inr rfl, .inl ⟨rfl, rfl⟩⟩, ?_⟩
  decide

/-- Program 1 before event 1. -/
def beforeEvent : State := calling [5, 3] (running [W 0x50 [0x12, 0x34]] .start 0 0 [0x41])

/-- StepKeepsInv: a state inside a transaction, about to take a step. -/
theorem witness_StepKeepsInv : Inv beforeEvent ∧ step beforeEvent = .next (after (step beforeEvent)) := by
  refine ⟨⟨fun _ => ⟨?_, W 0x50 [0x12, 0x34], rfl, rfl⟩, ?_, ?_, ?_, ?_, ?_, ?_, ?_, ?_, rfl, ?_⟩, rfl⟩
  · intro i m h
    cases i with
    | zero => cases h; exact ⟨rfl, by decide, by decide, by decide, fun h => nomatch h⟩
    | succ i => cases i <;> cases h
  · decide
  · decide
  · decide
  · decide
  · intro f h; cases h
  all_goals decide

/-- RefusedByTheSpec, its clause on a submit that has not returned: such a state meets the invariant. -/
theorem witness_RefusedByTheSpec_pending :
    let s := { running [W 0x50 [1]] .done 1 0 [] with todo := [.suspended, .report] }
    Inv s ∧ Frame.report ∈ s.todo ∧ s.configured = true ∧ s.configureFailed = false := by
  refine ⟨⟨?_, ?_, ?_, ?_, ?_, ?_, ?_, ?_, ?_, rfl, ?_⟩, by decide⟩
  · intro h; cases h
  · intro _ l h; cases h; decide
  · decide
  · decide
  · decide
  · intro f hf
    simp only [List.mem_cons, List.not_mem_nil, or_false] at hf
    rcases hf with rfl | rfl <;> trivial
  all_goals decide

/-- NoStepUndoesThePast (with witness_StepKeepsInv), OnlyTheSevenCommandsAreWritten: the same step, which is no setreg call. -/
theorem witness_OnlyTheSevenCommandsAreWritten :
    step beforeEvent = .next (after (step beforeEvent)) ∧ beforeEvent.configured = true ∧ beforeEvent.claim ≠ .free
      ∧ beforeEvent.phase.terminal = false
      ∧ ∀ bytes rest more id v, beforeEvent.schedule = .call bytes :: rest →
          decode bytes ≠ .ok (.setreg id v, more) := by
  refine ⟨rfl, rfl, by decide, rfl, fun bytes rest more id v h => ?_⟩
  cases h
  have hd : decode [5, 3] = .ok (.step, []) := rfl
  rw [hd]
  intro h2
  cases h2

/-- T2: a stray event after a NACK. -/
theorem witness_TheFirstErrorStays :
    let s := calling [5, 3] { running [W 0x50 [1]] .error 0 1 [0x21] with err := .nack }
    step s = .next (after (step s)) ∧ s.phase = .error ∧ s.err ≠ .none := ⟨rfl, rfl, by decide⟩

end Sys2Proof.Tests
end

section
/-! What one step of the machine can do, said once: `Does` lists the operations a step ends in, with the guards under which it
reaches them, and `step_does` reads it off the schedule, the decoder and the arms of `exec`. The invariant and the claims on the
past and on the error latch are then read off `Does`. -/

namespace Sys2Proof.Machine

/-- What one step makes of `s`, the state with its move taken off the schedule. -/
inductive Does (s : State) : State → Prop
  | nothing : Does s s
  | returns (r : Ret) : Does s (s.returns r)
  | command (c : Command) : Does s (sendCmd c s)
  | reads (id : RegId) : Does s ((getreg id s).2.returns (.byte (getreg id s).1))
  | writes (id : RegId) (v : Byte) : Does s ((setreg id v s).returns .nothing)
  | failsConfigure (hc : s.configured = false) (hf : s.configureFailed = false) (hcl : s.claim = .free) :
      Does s { s with configureFailed := true, ret := .configured .configuration }
  | configures (cfg : Surface) (w : Width) (p : Prescale) (hc : s.configured = false) (hf : s.configureFailed = false)
      (hcl : s.claim = .free) : Does s (bringUp cfg w p s)
  | submits (l : MsgList) (hv : validateFails l = false) :
      Does s (startTransaction .submission l (push .launch (push .report s)))
  | arms (owner : Claim) (l : MsgList) (hw : owner ≠ .free) (hv : validateFails l = false) :
      Does s (startTransaction owner l s)
  | feeds (m : Message) (ht : s.phase.terminal = false) (hm : messageFails true m = false) :
      Does s ((feedMessage m s).2.returns (.mark (feedMessage m s).1))
  | recovers : Does s (if (recover s).1 then (recover s).2.returns .nothing else push .recoverWait (recover s).2)
  | steps : Does s ((seqStep s).2.returns (.mark (seqStep s).1))
  | entersIrq : Does s (irqEntry s)
  | resumesIrq : Does s (resumeIrq s)
  | waitsIrq : Does s (waitIrq s)
  | polls : Does s (pollLoop s)
  | waitsPoll (mask : Byte) (t : Nat) : Does s (pollWait mask t .alone s)
  | aborts : Does s (watchdogAbort s)
  | reports : Does s (report s)
  | resumes (f : Frame) (rest : List Frame) (h : s.todo = f :: rest) : Does s (resumeFrame f { s with todo := rest })
  | environment (m : EnvMove) : Does s (environment m s)

/-- What an operation concludes with is what the step does. -/
theorem Does.of_conclude {s u t : State} (d : Does s u) (h : conclude s u = .next t) : Does s t := by
  obtain ⟨rfl, -⟩ := conclude_next h
  exact d

/-- What an operation answers with no register access is what the step does. -/
theorem Does.of_next {s u t : State} (d : Does s u) (h : (.next u : Host.Outcome State Fault Refusal) = .next t) :
    Does s t := by
  cases h
  exact d

/-! ### The host operations with guards of their own -/

theorem execConfigure_does {cfg : Surface} {s t : State} (h : execConfigure cfg s = .next t) : Does s t := by
  unfold execConfigure at h
  split at h
  · cases h
  · next hn =>
    split at h
    · cases h
    · next hcl =>
      obtain ⟨hc, hf⟩ : s.configured = false ∧ s.configureFailed = false := by simpa using hn
      have hcl := not_not.1 hcl
      split at h
      · exact (Does.failsConfigure hc hf hcl).of_next h
      · next w p _ => exact (Does.configures cfg w p hc hf hcl).of_conclude h

theorem execSubmit_does {l : MsgList} {s t : State} (h : execSubmit l s = .next t) : Does s t := by
  unfold execSubmit at h
  split at h
  · split at h
    · split at h
      · exact (Does.returns _).of_next h
      · next hv => exact (Does.submits l (Bool.eq_false_iff.2 hv)).of_conclude h
    · cases h
  · cases h

theorem execArm_does {l : MsgList} {s t : State} (h : execArm l s = .next t) : Does s t := by
  unfold execArm at h
  split at h
  · cases h
  · split at h
    · split at h
      · exact (Does.returns _).of_next h
      · next hv => exact (Does.arms .submission l (by decide) (Bool.eq_false_iff.2 hv)).of_conclude h
    · cases h

/-- A message that stands where it may is a list that validate passes (R201). -/
theorem validateFails_of_messageFails {later : Bool} {m : Message} (h : messageFails later m = false) :
    validateFails (some [m]) = false := (Bool.or_eq_false_iff.1 h).1

theorem runMessage_does {m : Message} {s t : State} (h : runMessage m s = .next t) : Does s t := by
  unfold runMessage at h
  split at h
  · cases h
  · split at h
    · cases h
    · split at h
      · cases h
      · split at h
        · exact (Does.returns _).of_next h
        · next hm =>
          have hm := Bool.eq_false_iff.2 hm
          split at h
          · exact (Does.arms .program _ (by decide) (validateFails_of_messageFails hm)).of_conclude h
          · next ht =>
            have ht := Bool.eq_false_iff.2 ht
            rw [ht] at hm
            exact (Does.feeds m ht hm).of_conclude h

/-! ### Every instruction, every move -/

theorem exec_does {i : Instr} {s t : State} (h : exec i s = .next t) : Does s t := by
  cases i with
  | cmdStart => exact (Does.command .start).of_conclude h
  | cmdWrite => exact (Does.command .write).of_conclude h
  | cmdReadAck => exact (Does.command .readAck).of_conclude h
  | cmdReadNack => exact (Does.command .readNack).of_conclude h
  | cmdStop => exact (Does.command .stop).of_conclude h
  | cmdIack => exact (Does.command .iack).of_conclude h
  | cmdRecover => exact (Does.command .recover).of_conclude h
  | msgWrite l o => exact runMessage_does h
  | msgRead o => exact runMessage_does h
  | msgReadRecvlen o => exact runMessage_does h
  | msgWriteNostart l o => exact runMessage_does h
  | msgReadNostart o => exact runMessage_does h
  | msgReadRecvlenNostart o => exact runMessage_does h
  | configure cfg => exact execConfigure_does h
  | submit l => exact execSubmit_does h
  | validate l => exact (Does.returns _).of_next h
  | arm l => exact execArm_does h
  | recover => exact Does.recovers.of_conclude h
  | step => exact Does.steps.of_conclude h
  | irqEntry => exact Does.entersIrq.of_conclude h
  | waitIrq => exact Does.waitsIrq.of_conclude h
  | pollLoop => exact Does.polls.of_conclude h
  | pollWait mask t => exact (Does.waitsPoll mask t).of_conclude h
  | watchdogAbort => exact Does.aborts.of_conclude h
  | report => exact Does.reports.of_next h
  | getreg id => exact (Does.reads id).of_conclude h
  | setreg id v => exact (Does.writes id v).of_conclude h

theorem runCall_does {bytes : List Byte} {s t : State} (h : runCall bytes s = .next t) : Does s t := by
  unfold runCall at h
  split at h
  · exact exec_does h
  · cases h

theorem resumeInitiator_does (s : State) : Does s (resumeInitiator s) := by
  unfold resumeInitiator
  split
  · exact .nothing
  · next f rest h => exact .resumes f rest h

theorem idleMove_does (s : State) : Does s (idleMove s) := by
  unfold idleMove
  split
  · exact .resumesIrq
  · next f rest h => exact .resumes f rest h

theorem deliver_does (s : State) : Does s (deliver s) := by
  unfold deliver
  split
  · exact .entersIrq
  · exact .nothing

/-- A step that answers a next state does one of the operations of `Does`, its move taken off the schedule. -/
theorem step_does {s t : State} (h : step s = .next t) : ∃ moves, Does { s with schedule := moves } t := by
  unfold step at h
  split at h
  · next hs =>
    have hs' : { s with schedule := [] } = s := by rw [← hs]
    exact ⟨[], hs' ▸ (idleMove_does s).of_conclude h⟩
  · exact ⟨_, runCall_does h⟩
  · next rest _ => exact ⟨rest, (resumeInitiator_does { s with schedule := rest }).of_conclude h⟩
  · next rest _ => exact ⟨rest, Does.resumesIrq.of_conclude h⟩
  · next rest _ => exact ⟨rest, (deliver_does { s with schedule := rest }).of_conclude h⟩
  · next m rest _ => exact ⟨rest, (Does.environment m).of_conclude h⟩

end Sys2Proof.Machine
end

section
/-! The invariant, operation by operation: the frame an initiator resumes is taken off its pending work, the waits keep their
origins only with their frames, the locked regions give the lock back, and bring-up and a fed message keep what they must. -/

namespace Sys2Proof.Machine

/-! ### Pending work taken off -/

/-- The origins may change, as long as a live one has its frame (R38). -/
theorem inv_setOrigins {s : State} (h : Inv s) (irq poll recovery : Option Nat)
    (hi : irq.isSome = true → Frame.suspended ∈ s.todo)
    (hp : poll.isSome = true → s.todo.any Frame.isPollWaiting = true)
    (hr : recovery.isSome = true → Frame.recoverWait ∈ s.todo) :
    Inv { s with t0Irq := irq, t0Poll := poll, t0Recovery := recovery } :=
  ⟨h.running, h.doneAtEnd, h.errLatch, h.completionTerminal, h.claimed, h.frames, h.locked, h.oneArm, ⟨hi, hp, hr⟩,
    h.modeOfDevice, h.claimHeld⟩

theorem inv_setT0Irq {s : State} (h : Inv s) (t0 : Option Nat) (ht : t0.isSome = true → Frame.suspended ∈ s.todo) :
    Inv { s with t0Irq := t0 } := inv_setOrigins h t0 s.t0Poll s.t0Recovery ht h.origins.2.1 h.origins.2.2

theorem inv_setT0Poll {s : State} (h : Inv s) (t0 : Option Nat)
    (ht : t0.isSome = true → s.todo.any Frame.isPollWaiting = true) :
    Inv { s with t0Poll := t0 } := inv_setOrigins h s.t0Irq t0 s.t0Recovery h.origins.1 ht h.origins.2.2

/-- Taking a frame off keeps the invariant, unless it is the arm that holds the lock or a wait whose origin is live. -/
theorem inv_unpush {s : State} {f : Frame} (h : Inv (push f s)) (hn : f.isArmTail = false)
    (hi : f = .suspended → s.t0Irq = none) (hp : f.isPollWaiting = true → s.t0Poll = none)
    (hr : f = .recoverWait → s.t0Recovery = none) : Inv s := by
  obtain ⟨hrun, hdone, herr, hcomp, hclaim, hframes, hlock, hone, ⟨oi, op, or⟩, hmode, hheld⟩ := h
  simp only [push_todo, List.mem_cons, List.any_cons, Bool.or_eq_true] at hframes oi op or
  refine ⟨hrun, hdone, herr, hcomp, hclaim, fun g hg => hframes g (.inr hg), ?_, ?_,
    ⟨fun x => (oi x).resolve_left fun e => ?_, fun x => (op x).resolve_left fun e => ?_,
      fun x => (or x).resolve_left fun e => ?_⟩, hmode, fun x => hheld ?_⟩
  · simpa only [push_todo, push_lock, List.any_cons, hn, Bool.false_or] using hlock
  · simpa only [push_todo, List.filter_cons, hn, Bool.false_eq_true, if_false] using hone
  · simp [hi e.symm] at x
  · simp [hp e] at x
  · simp [hr e.symm] at x
  · exact List.any_eq_true.2 ((List.any_eq_true.1 x).imp fun g hg => ⟨List.mem_cons_of_mem _ hg.1, hg.2⟩)

/-- A frame that neither holds the lock nor waits on an origin may be taken off. -/
theorem inv_unpush_plain {s : State} {f : Frame} (h : Inv (push f s)) (hn : f.isArmTail = false) (hi : f ≠ .suspended)
    (hp : f.isPollWaiting = false) (hr : f ≠ .recoverWait) : Inv s :=
  inv_unpush h hn (fun e => absurd e hi) (fun e => by simp [hp] at e) (fun e => absurd e hr)

/-! ### The locked regions -/

theorem release_acquire {s : State} (h : s.lock = .free) (w : Lock) : release (acquire w s) = s := by
  unfold release acquire
  rw [← h]

@[simp] theorem seqStep_lock (s : State) : (seqStep s).2.lock = s.lock := by rw [seqStep_frame s]

/-- A step made in a locked region is the step, with the lock free again. -/
theorem release_seqStep_acquire {s : State} (h : s.lock = .free) (w : Lock) :
    release (seqStep (acquire w s)).2 = (seqStep s).2 := by
  rw [seqStep_acquire]
  exact release_acquire ((seqStep_lock s).trans h) w

/-- An irq_entry that finds the lock free is one step, or one STATUS read (R203). -/
theorem irqLocked_eq {s : State} (h : s.lock = .free) : irqLocked s =
    if s.params.pending (getreg .cmd s).1 then { (seqStep s).2 with irqRet := some .handled }
    else { (getreg .cmd s).2 with irqRet := some .notMine } := by
  have hstep := release_seqStep_acquire h .interrupt
  have hread : release (getreg .cmd (acquire .interrupt s)).2 = (getreg .cmd s).2 :=
    release_acquire (s := (getreg .cmd s).2) h .interrupt
  rw [← hstep, ← hread]
  rfl

/-- poll_loop's locked step that finds the lock free (R205). -/
theorem pollStep_eq {s : State} (h : s.lock = .free) : pollStep s =
    if (seqStep s).1 = .terminal then (seqStep s).2.returns .nothing else push .pollTop (seqStep s).2 := by
  have hrelease : release (acquire .initiator (seqStep s).2) = (seqStep s).2 :=
    release_acquire ((seqStep_lock s).trans h) .initiator
  cases hmark : (seqStep s).1 <;> simp [pollStep, h, seqStep_acquire, hrelease, hmark]

/-! ### The interrupt-driven adapter -/

theorem irqLocked_inv {s : State} (hl : s.lock = .free) (h : Inv s) : Inv (irqLocked s) := by
  rw [irqLocked_eq hl]
  split
  · exact inv_congr (seqStep_inv h) rfl
  · exact inv_congr h rfl

theorem irqEntry_inv {s : State} (h : Inv s) : Inv (irqEntry s) := by
  unfold irqEntry
  split
  · next hl => exact irqLocked_inv hl h
  · exact inv_congr h rfl

theorem resumeIrq_inv {s : State} (h : Inv s) : Inv (resumeIrq s) := by
  unfold resumeIrq
  split
  · next hl => exact irqLocked_inv (s := { s with irqWaiting := false }) hl.2 (inv_congr h rfl)
  · exact h

/-- One look of the suspended initiator ends its wait or keeps its frame. -/
theorem suspendedLook_inv {s : State} (h : Inv (push .suspended s)) : Inv (suspendedLook s) := by
  have hover : Inv { s with t0Irq := none } := inv_unpush (inv_setT0Irq h none nofun) rfl (fun _ => rfl) nofun nofun
  unfold suspendedLook
  dsimp only
  split
  · exact inv_congr hover rfl
  · split
    · exact inv_push .abort (inv_congr hover rfl) trivial rfl nofun
    · exact inv_congr h rfl

theorem waitIrq_inv {s : State} (h : Inv s) : Inv (waitIrq s) := by
  have hread : Inv (readClock s).2 := inv_congr h rfl
  exact suspendedLook_inv (inv_setT0Irq (inv_push .suspended hread trivial rfl nofun) _ fun _ => List.mem_cons_self)

/-! ### The polling adapter -/

theorem pollStep_inv {s : State} (h : Inv s) : Inv (pollStep s) := by
  by_cases hl : s.lock = .free
  · rw [pollStep_eq hl]
    split
    · exact inv_congr (seqStep_inv h) rfl
    · exact inv_push .pollTop (seqStep_inv h) trivial rfl nofun
  · unfold pollStep
    rw [if_neg hl]
    exact inv_push .pollStep h trivial rfl nofun

theorem waitEnds_inv {s : State} (ok : Bool) (k : PollFor) (h : Inv { s with t0Poll := none }) : Inv (waitEnds ok k s) := by
  unfold waitEnds
  dsimp only
  split
  · exact inv_congr h rfl
  · split
    · exact pollStep_inv h
    · split
      · exact inv_push .terminalExpired h trivial rfl nofun
      · exact inv_push .abort h trivial rfl nofun

/-- One pass of poll_wait ends the wait or keeps its frame. -/
theorem pollPass_inv {mask : Byte} {t : Nat} {k : PollFor} {s : State} (h : Inv (push (.pollWaiting mask t k) s)) :
    Inv (pollPass mask t k s) := by
  have hover : Inv { s with t0Poll := none } := inv_unpush (inv_setT0Poll h none nofun) rfl nofun (fun _ => rfl) nofun
  unfold pollPass
  dsimp only
  split
  · split
    · exact waitEnds_inv _ _ (inv_congr hover rfl)
    · exact inv_congr h rfl
  · exact waitEnds_inv _ _ (inv_congr hover rfl)

theorem pollWait_inv {s : State} (mask : Byte) (t : Nat) (k : PollFor) (h : Inv s) : Inv (pollWait mask t k s) := by
  have hread : Inv (readClock s).2 := inv_congr h rfl
  exact pollPass_inv (inv_setT0Poll (inv_push (.pollWaiting mask t k) hread trivial rfl nofun) _ fun _ => rfl)

theorem pollLoop_inv {s : State} (h : Inv s) : Inv (pollLoop s) := pollWait_inv _ _ _ h

theorem launch_inv {s : State} (h : Inv s) : Inv (launch s) := by
  unfold launch
  split
  · exact waitIrq_inv h
  · exact pollLoop_inv h

/-! ### Bring-up -/

/-- Bring-up sets mode and DeviceConfig together (R34). -/
theorem bringUp_inv (cfg : Surface) (w : Width) (p : Prescale) {s : State} (h : Inv s) : Inv (bringUp cfg w p s) :=
  ⟨fun x => seqOk_congr rfl rfl rfl rfl (h.running x), h.doneAtEnd, h.errLatch, h.completionTerminal, h.claimed, h.frames,
    h.locked, h.oneArm, h.origins, rfl, h.claimHeld⟩

/-! ### Message instructions -/

/-- What a later message must satisfy to be fed (R201) is what the invariant asks of it. -/
theorem messageOk_of_fed {m : Message} (hm : messageFails true m = false) (s : State) (i : Nat) : messageOk s i m := by
  obtain ⟨⟨hbuf, haddr, hcap, -⟩, hroom⟩ := validated (validateFails_of_messageFails hm) 0 m rfl
  refine ⟨hbuf, haddr, hcap, fun _ hn hl => ?_, fun r d _ => hroom r d⟩
  simp [messageFails, hn, hl] at hm

/-- Appending a message that may follow keeps a running transaction's list sound. -/
theorem seqOk_append {s : State} {m : Message} (hm : messageFails true m = false) (h : seqOk s) :
    seqOk { s with msgs := some (s.list ++ [m]) } := by
  obtain ⟨hok, c, hc, hpos⟩ := h
  refine ⟨fun i m' hi => ?_, c, ?_, hpos⟩
  · have hi : (s.list ++ [m])[i]? = some m' := hi
    rcases Nat.lt_or_ge i s.list.length with hlt | hge
    · rw [List.getElem?_append_left hlt] at hi
      exact hok i m' hi
    · rw [List.getElem?_append_right hge, List.getElem?_singleton] at hi
      split at hi
      · obtain rfl := Option.some.inj hi
        exact messageOk_of_fed hm _ _
      · cases hi
  · have hc : s.list[s.cursor]? = some c := hc
    have hlt := (List.getElem?_eq_some_iff.1 hc).1
    exact (List.getElem?_append_left hlt).trans hc

/-- Feeding a message to a running program (log 9). -/
theorem feedMessage_inv {s : State} {m : Message} (ht : s.phase.terminal = false) (hm : messageFails true m = false)
    (h : Inv s) : Inv (feedMessage m s).2 := by
  refine seqStep_inv ⟨fun x => seqOk_congr rfl rfl rfl rfl (seqOk_append hm (h.running x)), fun hd => ?_, h.errLatch,
    h.completionTerminal, nofun, h.frames, h.locked, h.oneArm, h.origins, h.modeOfDevice, fun _ => nofun⟩
  have hd : s.phase = .done := hd
  simp [hd, Phase.terminal] at ht

/-! ### The initiator goes on -/

theorem resumeArmStart_inv {owner : Claim} {l : MsgList} {s : State} (h : Inv (push (.armStart owner l) s)) :
    Inv (arm owner l s) := by
  obtain ⟨hw, hv⟩ : frameOk (.armStart owner l) := h.frames _ List.mem_cons_self
  exact arm_inv hw l hv (h.claimHeld rfl) (inv_unpush_plain h rfl nofun rfl nofun)

/-- The arm that resumes after its recovery was the only one to hold the lock (R76). -/
theorem resumeArmTail_inv {owner : Claim} {l : MsgList} {s : State} (h : Inv (push (.armTail owner l) s)) :
    Inv (armTail owner l s) := by
  obtain ⟨hw, hv⟩ : frameOk (.armTail owner l) := h.frames _ List.mem_cons_self
  have hone : s.todo.filter Frame.isArmTail = [] := by
    simpa [push, List.filter_cons, Frame.isArmTail] using h.oneArm
  have hnone : s.todo.any Frame.isArmTail = false := by
    simpa [List.any_eq_false, List.filter_eq_nil_iff] using hone
  have horigins := h.origins
  simp only [push, List.mem_cons, List.any_cons, reduceCtorEq, false_or, Frame.isPollWaiting, Bool.false_or] at horigins
  exact armTail_inv hw l s hv (fun f hf => h.frames f (List.mem_cons_of_mem _ hf)) hnone horigins h.modeOfDevice

theorem resumeFrame_inv (f : Frame) {s : State} (h : Inv (push f s)) : Inv (resumeFrame f s) := by
  cases f with
  | armStart owner l => exact resumeArmStart_inv h
  | recoverWait => exact resumeRecover_inv s.todo h
  | armTail owner l => exact resumeArmTail_inv h
  | launch => exact launch_inv (inv_unpush_plain h rfl nofun rfl nofun)
  | suspended => exact suspendedLook_inv h
  | abort => exact watchdogAbort_inv (inv_unpush_plain h rfl nofun rfl nofun)
  | pollTop => exact pollLoop_inv (inv_unpush_plain h rfl nofun rfl nofun)
  | pollWaiting mask t k => exact pollPass_inv h
  | pollStep => exact pollStep_inv (inv_unpush_plain h rfl nofun rfl nofun)
  | terminalExpired => exact terminalWaitExpired_inv (inv_unpush_plain h rfl nofun rfl nofun)
  | report => exact report_inv (inv_unpush_plain h rfl nofun rfl nofun)

theorem environment_inv (m : EnvMove) {s : State} (h : Inv s) : Inv (environment m s) := by
  unfold environment
  split
  · exact h
  · exact inv_congr h rfl

/-- Each operation a step can end in keeps the invariant. -/
theorem Does.inv {s t : State} (d : Does s t) (h : Inv s) : Inv t := by
  cases d with
  | nothing => exact h
  | returns r => exact inv_congr h rfl
  | command c => exact inv_congr h rfl
  | reads id => exact inv_congr h rfl
  | writes id v => exact inv_congr h rfl
  | failsConfigure => exact inv_congr h rfl
  | configures cfg w p => exact bringUp_inv cfg w p h
  | submits l hv => exact startSubmission_inv l hv h
  | arms owner l hw hv => exact startTransaction_inv hw l hv h
  | feeds m ht hm => exact inv_congr (feedMessage_inv ht hm h) rfl
  | recovers => exact execRecover_inv h
  | steps => exact inv_congr (seqStep_inv h) rfl
  | entersIrq => exact irqEntry_inv h
  | resumesIrq => exact resumeIrq_inv h
  | waitsIrq => exact waitIrq_inv h
  | polls => exact pollLoop_inv h
  | waitsPoll mask t => exact pollWait_inv mask t .alone h
  | aborts => exact watchdogAbort_inv h
  | reports => exact report_inv h
  | resumes f rest hs =>
    refine resumeFrame_inv f (s := { s with todo := rest }) ?_
    have : push f { s with todo := rest } = s := by unfold push; rw [← hs]
    rwa [this]
  | environment m => exact environment_inv m h

/-- Settles O57: the operation the step does keeps the invariant, which does not look at the schedule. -/
theorem stepKeepsInv : Obligations.StepKeepsInv := by
  intro s t h hs
  obtain ⟨moves, d⟩ := step_does hs
  exact d.inv (inv_congr h rfl)

/-- Settles O56: nothing is under way, pending or live at reset. -/
theorem invAtReset : Obligations.InvAtReset where
  running := nofun
  doneAtEnd := fun _ _ h => by cases h
  errLatch := by decide
  completionTerminal := nofun
  claimed := fun _ => rfl
  frames := nofun
  locked := by decide
  oneArm := by decide
  origins := by decide
  modeOfDevice := rfl
  claimHeld := nofun

/-- Settles O55: each value as `State.reset` has it. -/
theorem resetHasTheSpecsValues : Obligations.ResetHasTheSpecsValues :=
  ⟨rfl, rfl, rfl, rfl, rfl, rfl, rfl, rfl, rfl, rfl, rfl, rfl⟩

end Sys2Proof.Machine
end

section
/-! What a step can do to the past and to the error latch. Every operation but bring-up is one core operation (`CoreOp`)
between two stretches that leave the settings, State and the error latch alone and only add to the history (`Effect`); the
claims of R34, R35, R40, R134, R240 and R275 are read off the core operations. -/

namespace Sys2Proof.Machine

/-! ### The past -/

/-- What no step but bring-up changes: the parameters, DeviceConfig, mode and the two marks of bring-up. -/
def State.settings (s : State) : Params × DeviceConfig × Mode × Bool × Bool :=
  (s.params, s.dev, s.mode, s.configured, s.configureFailed)

/-- The access history has only grown and time has not gone back (R13, R240). -/
def Env.Extends (e e' : Env) : Prop := (∃ evs, e'.trace = e.trace ++ evs) ∧ e.now ≤ e'.now

/-- The settings stand, and the past with them. -/
def Kept (s t : State) : Prop := t.settings = s.settings ∧ s.env.Extends t.env

theorem Env.Extends.refl (e : Env) : e.Extends e := ⟨⟨[], (List.append_nil _).symm⟩, le_rfl⟩

theorem Env.Extends.trans {a b c : Env} (h : a.Extends b) (k : b.Extends c) : a.Extends c := by
  obtain ⟨⟨evs, hab⟩, hnow⟩ := h
  obtain ⟨⟨evs', hbc⟩, hnow'⟩ := k
  exact ⟨⟨evs ++ evs', by rw [hbc, hab, List.append_assoc]⟩, hnow.trans hnow'⟩

/-- An environment with the same history, and no earlier time, extends the one before. -/
theorem Env.Extends.of_trace_eq {e e' : Env} (h : e'.trace = e.trace) (hn : e.now ≤ e'.now) : e.Extends e' :=
  ⟨⟨[], by rw [h, List.append_nil]⟩, hn⟩

theorem Kept.refl (s : State) : Kept s s := ⟨rfl, .refl _⟩

theorem Kept.trans {s t u : State} (h : Kept s t) (k : Kept t u) : Kept s u := ⟨k.1.trans h.1, h.2.trans k.2⟩

theorem getreg_kept (id : RegId) (s : State) : Kept s (getreg id s).2 := by
  obtain ⟨bytes, h⟩ := getreg_trace id s
  exact ⟨rfl, ⟨_, h⟩, (getreg_now id s).ge⟩

theorem setreg_kept (id : RegId) (v : Byte) (s : State) : Kept s (setreg id v s) :=
  ⟨rfl, ⟨_, setreg_trace id v s⟩, (setreg_now id v s).ge⟩

theorem sendCmd_kept (c : Command) (s : State) : Kept s (sendCmd c s) := setreg_kept .cmd _ s

theorem readClock_kept (s : State) : Kept s (readClock s).2 := by
  obtain ⟨h, hle⟩ := readClock_shape s
  rw [h]
  exact ⟨rfl, .of_trace_eq rfl hle⟩

theorem readBuf_kept (m : Message) (i : Nat) (s : State) : Kept s (readBuf m i s).2 := by
  rw [readBuf_shape]
  exact ⟨rfl, .of_trace_eq rfl le_rfl⟩

/-! ### The past through a step of the sequencer -/

theorem fail_kept (e : Err) (s : State) : Kept s (fail e s) := sendCmd_kept .stop { s with phase := .error, err := e }

theorem sendAddress_kept (m : Message) (s : State) : Kept s (sendAddress m s) :=
  (setreg_kept .data _ s).trans (sendCmd_kept .start _)

theorem issue_kept (m : Message) (s : State) : Kept s (issue m s) := by
  unfold issue
  split
  · rw [issueRead_eq]
    exact sendCmd_kept _ s
  · have hread := readBuf_kept m s.position s
    have hdata := setreg_kept .data (readBuf m s.position s).1 (readBuf m s.position s).2
    exact (hread.trans hdata).trans (sendCmd_kept .write { setreg .data _ _ with position := s.position + 1 })

theorem nextMessage_kept (s : State) : Kept s (nextMessage s) := by
  unfold nextMessage
  split
  · exact sendCmd_kept .stop { s with phase := .done }
  · next m _ =>
    split
    · exact issue_kept m { s with phase := m.dirPhase }
    · exact sendAddress_kept m { s with phase := .start }

theorem stepTail_kept (s : State) : Kept s (stepTail s) := by
  unfold stepTail
  split
  · exact .refl s
  · next m _ =>
    split
    · exact nextMessage_kept { s with cursor := s.cursor + 1, position := 0 }
    · exact issue_kept m s

theorem acknowledge_kept (m : Message) (stat : Byte) (s : State) : Kept s (acknowledge m stat s) := by
  unfold acknowledge
  split
  · exact fail_kept .nack s
  · exact stepTail_kept { s with phase := m.dirPhase }

theorem receive_kept (m : Message) (b : Byte) (s : State) : Kept s (receive m b s) := by
  have hstore : Kept s { s.modifyCurrent (·.storeByte s.position b) with position := s.position + 1 } := .refl s
  unfold receive
  dsimp only
  split
  · split
    · exact hstore.trans (fail_kept .blockLength _)
    · exact hstore.trans (stepTail_kept (State.modifyCurrent _ _))
  · exact hstore.trans (stepTail_kept _)

theorem event_kept (stat : Byte) (s : State) : Kept s (event stat s) := by
  unfold event
  split
  · exact fail_kept .arbitration s
  · split
    · exact fail_kept .parameter s
    · next m _ =>
      split
      · exact fail_kept .parameter s
      · split
        · exact (getreg_kept .data s).trans (receive_kept m _ _)
        · exact acknowledge_kept m stat s

theorem process_kept (stat : Byte) (s : State) : Kept s (process stat s).2 := by
  unfold process
  split
  · exact sendCmd_kept .iack s
  · exact event_kept stat s

theorem seqStep_kept (s : State) : Kept s (seqStep s).2 := (getreg_kept .cmd s).trans (process_kept _ _)

/-! ### Stretches that leave State and the error latch alone -/

/-- The settings, State and the error latch stand; the history may grow. -/
def Quiet (s t : State) : Prop := Kept s t ∧ t.phase = s.phase ∧ t.err = s.err

theorem Kept.quiet {s t : State} (h : Kept s t) (hp : t.phase = s.phase := by rfl) (he : t.err = s.err := by rfl) :
    Quiet s t := ⟨h, hp, he⟩

theorem Quiet.refl (s : State) : Quiet s s := (Kept.refl s).quiet

theorem Quiet.trans {s t u : State} (h : Quiet s t) (k : Quiet t u) : Quiet s u :=
  ⟨h.1.trans k.1, k.2.1.trans h.2.1, k.2.2.trans h.2.2⟩

theorem getreg_quiet (id : RegId) (s : State) : Quiet s (getreg id s).2 := (getreg_kept id s).quiet

theorem setreg_quiet (id : RegId) (v : Byte) (s : State) : Quiet s (setreg id v s) := (setreg_kept id v s).quiet

theorem sendCmd_quiet (c : Command) (s : State) : Quiet s (sendCmd c s) := (sendCmd_kept c s).quiet

theorem readClock_quiet (s : State) : Quiet s (readClock s).2 := (readClock_kept s).quiet

theorem acquire_quiet (who : Lock) (s : State) : Quiet s (acquire who s) := .refl s

theorem release_quiet (s : State) : Quiet s (release s) := .refl s

theorem push_quiet (f : Frame) (s : State) : Quiet s (push f s) := .refl s

theorem returns_quiet (r : Ret) (s : State) : Quiet s (s.returns r) := .refl s

theorem claim_quiet (owner : Claim) (s : State) : Quiet s { s with claim := owner } := .refl s

/-- The end of a locked region that returns. -/
theorem release_returns_quiet (r : Ret) (s : State) : Quiet s ((release s).returns r) :=
  (release_quiet s).trans (returns_quiet r _)

theorem environment_quiet (m : EnvMove) (s : State) : Quiet s (environment m s) := by
  obtain ⟨htrace, hnow, -⟩ := applyMove_keeps s.env m
  have hkept : Kept s { s with env := s.env.applyMove m } := ⟨rfl, .of_trace_eq htrace hnow.ge⟩
  unfold environment
  split
  · exact .refl s
  · exact hkept.quiet

theorem recoverMask_quiet (s : State) : Quiet s (recoverMask s) := by
  unfold recoverMask
  split
  · exact (getreg_quiet .control s).trans (setreg_quiet .control _ _)
  · exact .refl s

theorem recoverClear_quiet (s : State) : Quiet s (recoverClear s) := sendCmd_quiet .iack { s with t0Recovery := none }

theorem recoverPass_quiet (s : State) : Quiet s (recoverPass s).2 := by
  have hstatus := getreg_quiet .cmd s
  have hclock := hstatus.trans (readClock_quiet _)
  unfold recoverPass
  dsimp only
  split
  · split
    · exact hclock.trans (recoverClear_quiet _)
    · exact hclock
  · exact hstatus.trans (recoverClear_quiet _)

theorem recoverForce_quiet (s : State) : Quiet s (recoverForce s).2 := by
  have hforce := ((recoverMask_quiet s).trans (sendCmd_quiet .recover _)).trans (readClock_quiet _)
  exact hforce.trans (recoverPass_quiet { (readClock _).2 with t0Recovery := _ })

/-- Recovery leaves State and the error latch alone (R230). -/
theorem recover_quiet (s : State) : Quiet s (recover s).2 := by
  unfold recover
  dsimp only
  split
  · exact (getreg_quiet .cmd s).trans (recoverForce_quiet _)
  · exact getreg_quiet .cmd s

/-- An operation that returns or leaves a frame, according to how its wait stands. -/
theorem Quiet.returns_or_push {s t : State} (h : Quiet s t) (b : Bool) (r : Ret) (f : Frame) :
    Quiet s (if b then t.returns r else push f t) := by
  cases b
  · exact h.trans (push_quiet f t)
  · exact h.trans (returns_quiet r t)

theorem report_quiet (s : State) : Quiet s (report s) := by
  unfold report
  dsimp only
  split <;> exact .refl s

/-! ### The core operations -/

/-- The operations that may change State or the error latch. -/
inductive CoreOp (s : State) : State → Prop
  | nothing : CoreOp s s
  | event : CoreOp s (seqStep s).2
  | begins (m : Message) (rest : List Message) : CoreOp s (begin m rest s)
  | aborts : CoreOp s (abortLocked s)
  | expires : CoreOp s (expireLocked s)

theorem begin_kept (m : Message) (rest : List Message) (s : State) : Kept s (begin m rest s) := by
  have hbind : Kept s { s with
    msgs := some (m :: rest), cursor := 0, position := 0, err := .none, completion := false, phase := .start } := .refl s
  exact hbind.trans (sendAddress_kept m _)

theorem abortLocked_kept (s : State) : Kept s (abortLocked s) := by
  unfold abortLocked
  split
  · exact .refl s
  · exact sendCmd_kept .stop { s with phase := .error, err := .timeout }

theorem expireLocked_kept (s : State) : Kept s (expireLocked s) := by
  unfold expireLocked
  split <;> exact .refl s

theorem CoreOp.kept {s t : State} (h : CoreOp s t) : Kept s t := by
  cases h with
  | nothing => exact .refl s
  | event => exact seqStep_kept s
  | begins m rest => exact begin_kept m rest s
  | aborts => exact abortLocked_kept s
  | expires => exact expireLocked_kept s

/-- With ERROR and a class latched, a core operation leaves both, or it is arm's start of a transaction (R275, R276). -/
theorem CoreOp.latch {s t : State} (h : CoreOp s t) (hp : s.phase = .error) (he : s.err ≠ .none) :
    t.phase = .error ∧ t.err = s.err ∨ t.phase = .start ∧ t.err = .none := by
  cases h with
  | nothing => exact .inl ⟨hp, rfl⟩
  | event =>
    have hterminal : (getreg .cmd s).2.phase.terminal = true := by simp [hp, Phase.terminal]
    left
    unfold seqStep process
    rw [if_pos hterminal]
    exact ⟨hp, rfl⟩
  | begins m rest => exact .inr ⟨rfl, rfl⟩
  | aborts =>
    left
    unfold abortLocked
    rw [hp]
    exact ⟨hp, rfl⟩
  | expires =>
    left
    unfold expireLocked
    rw [if_neg he]
    exact ⟨hp, rfl⟩

/-- A core operation between two quiet stretches. -/
def Effect (s t : State) : Prop := ∃ u v, Quiet s u ∧ CoreOp u v ∧ Quiet v t

theorem Quiet.effect {s t : State} (h : Quiet s t) : Effect s t := ⟨s, s, .refl s, .nothing, h⟩

theorem CoreOp.effect {s u v t : State} (h : CoreOp u v) (pre : Quiet s u) (post : Quiet v t) : Effect s t :=
  ⟨u, v, pre, h, post⟩

theorem Quiet.trans_effect {s t u : State} (h : Quiet s t) (k : Effect t u) : Effect s u := by
  obtain ⟨v, w, pre, core, post⟩ := k
  exact ⟨v, w, h.trans pre, core, post⟩

theorem Effect.trans_quiet {s t u : State} (h : Effect s t) (k : Quiet t u) : Effect s u := by
  obtain ⟨v, w, pre, core, post⟩ := h
  exact ⟨v, w, pre, core, post.trans k⟩

theorem Effect.kept {s t : State} (h : Effect s t) : Kept s t := by
  obtain ⟨u, v, pre, core, post⟩ := h
  exact (pre.1.trans core.kept).trans post.1

theorem Effect.latch {s t : State} (h : Effect s t) (hp : s.phase = .error) (he : s.err ≠ .none) :
    t.phase = .error ∧ t.err = s.err ∨ t.phase = .start ∧ t.err = .none := by
  obtain ⟨u, v, ⟨-, hpu, heu⟩, core, ⟨-, hpt, het⟩⟩ := h
  rw [hpt, het, ← heu]
  exact core.latch (hpu.trans hp) (heu ▸ he)

/-! ### The effect of each operation -/

theorem armTail_effect (owner : Claim) (l : MsgList) (s : State) : Effect s (armTail owner l s) := by
  have hmode := (getreg_quiet .control s).trans
    (setreg_quiet .control (s.params.ctrlForMode s.mode (getreg .control s).1) _)
  unfold armTail
  dsimp only
  split
  · next m rest => exact (CoreOp.begins m rest).effect (hmode.trans (claim_quiet owner _)) (release_returns_quiet .nothing _)
  · exact (hmode.trans (release_returns_quiet .nothing _)).effect
  · exact (hmode.trans (release_returns_quiet .nothing _)).effect

theorem arm_effect (owner : Claim) (l : MsgList) (s : State) : Effect s (arm owner l s) := by
  have hrecover := (acquire_quiet .initiator s).trans (recover_quiet _)
  unfold arm
  split
  · dsimp only
    split
    · exact hrecover.trans_effect (armTail_effect owner l _)
    · exact ((hrecover.trans (push_quiet _ _)).trans (push_quiet _ _)).effect
  · exact (push_quiet _ s).effect

theorem startTransaction_effect (owner : Claim) (l : MsgList) (s : State) : Effect s (startTransaction owner l s) :=
  (claim_quiet owner s).trans_effect (arm_effect owner l _)

theorem irqLocked_effect {s : State} (hl : s.lock = .free) : Effect s (irqLocked s) := by
  rw [irqLocked_eq hl]
  split
  · exact CoreOp.event.effect (.refl s) (.refl _)
  · exact (getreg_quiet .cmd s).effect

theorem irqEntry_effect (s : State) : Effect s (irqEntry s) := by
  unfold irqEntry
  split
  · next hl => exact irqLocked_effect hl
  · exact (Quiet.refl s).effect

theorem resumeIrq_effect (s : State) : Effect s (resumeIrq s) := by
  unfold resumeIrq
  split
  · next hl => exact irqLocked_effect (s := { s with irqWaiting := false }) hl.2
  · exact (Quiet.refl s).effect

theorem suspendedLook_quiet (s : State) : Quiet s (suspendedLook s) := by
  unfold suspendedLook
  dsimp only
  split
  · exact .refl s
  · have hclock := readClock_quiet s
    split
    · exact hclock.trans (push_quiet .abort { (readClock s).2 with t0Irq := none })
    · exact hclock.trans (push_quiet .suspended _)

theorem waitIrq_quiet (s : State) : Quiet s (waitIrq s) :=
  (readClock_quiet s).trans (suspendedLook_quiet { (readClock s).2 with t0Irq := some (readClock s).1 })

theorem pollStep_effect (s : State) : Effect s (pollStep s) := by
  by_cases hl : s.lock = .free
  · rw [pollStep_eq hl]
    split
    · exact CoreOp.event.effect (.refl s) (returns_quiet .nothing _)
    · exact CoreOp.event.effect (.refl s) (push_quiet .pollTop _)
  · unfold pollStep
    rw [if_neg hl]
    exact (push_quiet .pollStep s).effect

theorem waitEnds_effect (ok : Bool) (k : PollFor) (s : State) : Effect s (waitEnds ok k s) := by
  unfold waitEnds
  dsimp only
  split
  · exact (Quiet.refl s).effect
  · split
    · exact pollStep_effect { s with t0Poll := none }
    · split <;> exact (Quiet.refl s).effect

theorem pollPass_effect (mask : Byte) (t : Nat) (k : PollFor) (s : State) : Effect s (pollPass mask t k s) := by
  have hstatus := getreg_quiet .cmd s
  have hclock := hstatus.trans (readClock_quiet _)
  unfold pollPass
  dsimp only
  split
  · split
    · exact hclock.trans_effect (waitEnds_effect false k _)
    · exact (hclock.trans (push_quiet _ _)).effect
  · exact hstatus.trans_effect (waitEnds_effect true k _)

theorem pollWait_effect (mask : Byte) (t : Nat) (k : PollFor) (s : State) : Effect s (pollWait mask t k s) :=
  (readClock_quiet s).trans_effect (pollPass_effect mask t k { (readClock s).2 with t0Poll := some (readClock s).1 })

theorem pollLoop_effect (s : State) : Effect s (pollLoop s) := pollWait_effect _ _ _ s

theorem launch_effect (s : State) : Effect s (launch s) := by
  unfold launch
  split
  · exact (waitIrq_quiet s).effect
  · exact pollLoop_effect s

theorem watchdogAbort_effect (s : State) : Effect s (watchdogAbort s) := by
  unfold watchdogAbort
  split
  · exact CoreOp.aborts.effect (acquire_quiet .initiator s) (release_returns_quiet .nothing _)
  · exact (push_quiet .abort s).effect

theorem terminalWaitExpired_effect (s : State) : Effect s (terminalWaitExpired s) := by
  unfold terminalWaitExpired
  split
  · exact CoreOp.expires.effect (acquire_quiet .initiator s) (release_returns_quiet .nothing _)
  · exact (push_quiet .terminalExpired s).effect

theorem feedMessage_effect (m : Message) (s : State) : Effect s (feedMessage m s).2 :=
  CoreOp.event.effect (u := { s with msgs := some (s.list ++ [m]), claim := .program }) (.refl s) (.refl _)

theorem resumeFrame_effect (f : Frame) (s : State) : Effect s (resumeFrame f s) := by
  cases f with
  | armStart owner l => exact arm_effect owner l s
  | recoverWait => exact ((recoverPass_quiet s).returns_or_push _ _ _).effect
  | armTail owner l => exact armTail_effect owner l s
  | launch => exact launch_effect s
  | suspended => exact (suspendedLook_quiet s).effect
  | abort => exact watchdogAbort_effect s
  | pollTop => exact pollLoop_effect s
  | pollWaiting mask t k => exact pollPass_effect mask t k s
  | pollStep => exact pollStep_effect s
  | terminalExpired => exact terminalWaitExpired_effect s
  | report => exact (report_quiet s).effect

/-! ### Bring-up -/

/-- A configure ran to its end: it was the first, with no transaction open, and State, the error latch, the parameters and the
past stand (R133, R134). -/
structure ConfigureRan (s t : State) : Prop where
  notConfigured : s.configured = false
  notFailed : s.configureFailed = false
  noClaim : s.claim = .free
  params : t.params = s.params
  past : s.env.Extends t.env
  phase : t.phase = s.phase
  err : t.err = s.err

/-- The state in which bring-up reads CONTROL: DeviceConfig and mode are set (R40, R133). -/
def State.withConfig (s : State) (cfg : Surface) (w : Width) (p : Prescale) : State :=
  { s with dev := deviceConfigOf cfg w p, mode := cfg.interruptOrPoll }

/-- The writes of bring-up, after `ctrl` was read from CONTROL (R133). -/
theorem bringUpWrites_kept (ctrl lo hi : Byte) (s : State) : Kept s
    (setreg .control (s.params.enabled (s.params.disabled ctrl))
      (sendCmd .iack (setreg .prehigh hi (setreg .prelow lo (setreg .control (s.params.disabled ctrl) s))))) :=
  ((((setreg_kept .control _ s).trans (setreg_kept .prelow lo _)).trans (setreg_kept .prehigh hi _)).trans
    (sendCmd_kept .iack _)).trans (setreg_kept .control _ _)

theorem bringUp_extends (cfg : Surface) (w : Width) (p : Prescale) (s : State) :
    s.env.Extends (bringUp cfg w p s).env := by
  have hread := getreg_kept .control (s.withConfig cfg w p)
  have hwrites := bringUpWrites_kept (getreg .control (s.withConfig cfg w p)).1 (lowByte p) (highByte p)
    (getreg .control (s.withConfig cfg w p)).2
  exact (hread.trans hwrites).2

/-- What a step does is an effect, or the first configure. -/
theorem Does.effect {s t : State} (d : Does s t) : Effect s t ∨ ConfigureRan s t := by
  cases d with
  | nothing => exact .inl (Quiet.refl s).effect
  | returns r => exact .inl (returns_quiet r s).effect
  | command c => exact .inl (sendCmd_quiet c s).effect
  | reads id => exact .inl ((getreg_quiet id s).trans (returns_quiet _ _)).effect
  | writes id v => exact .inl ((setreg_quiet id v s).trans (returns_quiet _ _)).effect
  | failsConfigure hc hf hcl => exact .inr ⟨hc, hf, hcl, rfl, .refl _, rfl, rfl⟩
  | configures cfg w p hc hf hcl => exact .inr ⟨hc, hf, hcl, rfl, bringUp_extends cfg w p s, rfl, rfl⟩
  | submits l => exact .inl (startTransaction_effect .submission l (push .launch (push .report s)))
  | arms owner l => exact .inl (startTransaction_effect owner l s)
  | feeds m => exact .inl ((feedMessage_effect m s).trans_quiet (returns_quiet _ _))
  | recovers => exact .inl ((recover_quiet s).returns_or_push _ _ _).effect
  | steps => exact .inl (CoreOp.event.effect (.refl s) (returns_quiet _ _))
  | entersIrq => exact .inl (irqEntry_effect s)
  | resumesIrq => exact .inl (resumeIrq_effect s)
  | waitsIrq => exact .inl (waitIrq_quiet s).effect
  | polls => exact .inl (pollLoop_effect s)
  | waitsPoll mask t => exact .inl (pollWait_effect mask t .alone s)
  | aborts => exact .inl (watchdogAbort_effect s)
  | reports => exact .inl (report_quiet s).effect
  | resumes f rest => exact .inl (resumeFrame_effect f { s with todo := rest })
  | environment m => exact .inl (environment_quiet m s).effect

/-- Every step is an effect, or the first configure. -/
theorem step_effect {s t : State} (h : step s = .next t) : Effect s t ∨ ConfigureRan s t := by
  obtain ⟨moves, d⟩ := step_does h
  rcases d.effect with he | hc
  · exact .inl ((Quiet.refl s).trans_effect he)
  · exact .inr ⟨hc.notConfigured, hc.notFailed, hc.noClaim, hc.params, hc.past, hc.phase, hc.err⟩

/-- Settles O58: an effect keeps the settings and the past; a configure that runs is the first, with no transaction open. -/
theorem noStepUndoesThePast : Obligations.NoStepUndoesThePast := by
  intro s t h
  rcases step_effect h with he | hc
  · obtain ⟨hset, htrace, hnow⟩ := he.kept
    simp only [State.settings, Prod.mk.injEq] at hset
    obtain ⟨hparams, hdev, hmode, hconf, hfail⟩ := hset
    exact ⟨hparams, htrace, hnow, fun _ => ⟨hconf, hfail, hdev, hmode⟩, fun _ => ⟨hmode, hdev⟩⟩
  · obtain ⟨htrace, hnow⟩ := hc.past
    refine ⟨hc.params, htrace, hnow, fun hdone => ?_, fun hopen => ?_⟩
    · simp [hc.notConfigured, hc.notFailed] at hdone
    · rcases hopen with hclaim | ⟨hinv, hrunning⟩
      · exact absurd hc.noClaim hclaim
      · simp [hinv.claimed hc.noClaim] at hrunning

/-- Settles O60: the core operation of an effect keeps the latch or starts the next transaction; a configure leaves it. -/
theorem theFirstErrorStays : Obligations.TheFirstErrorStays := by
  intro s t h hp he
  rcases step_effect h with heff | hc
  · exact heff.latch hp he
  · exact .inl ⟨hc.phase.trans hp, hc.err⟩

end Sys2Proof.Machine
end

section
/-! The byte order of a register value (20_memory.md R64, R65). Whatever the order, bytes are a register's byte placed under the
bytes above it (`place`), and the number they are is read off that: both halves of marshalling follow. -/

namespace Sys2Proof.Machine

/-- A byte under the bytes above it, as a number (R64, R65). -/
theorem numberOf_place (v : Byte) (upper : List Byte) (e : Endian) :
    numberOf e (place v upper e) = v.toNat + 256 * numberOf e upper := by
  cases e with
  | little => rfl
  | big => simp [numberOf, place, Nat.add_comm]

theorem numberOf_zeros (n : Nat) (e : Endian) : numberOf e (List.replicate n 0) = 0 := by
  induction n with
  | zero => cases e <;> rfl
  | succ n ih =>
    have hplace : List.replicate (n + 1) (0 : Byte) = place 0 (List.replicate n 0) e := by
      cases e with
      | little => rfl
      | big => exact List.replicate_succ'
    rw [hplace, numberOf_place, ih]
    rfl

/-- The bytes of an access are a register's byte and the bytes above it, in either order. -/
theorem exists_eq_place {bytes : List Byte} (h : bytes ≠ []) (e : Endian) : ∃ v upper, bytes = place v upper e := by
  cases e with
  | little => exact List.exists_cons_of_ne_nil h
  | big => exact ⟨bytes.getLast h, bytes.dropLast, (List.dropLast_append_getLast h).symm⟩

theorem numberOf_marshal (v : Byte) (w : Width) (e : Endian) : numberOf e (marshal v w e) = v.toNat := by
  rw [marshal, numberOf_place, numberOf_zeros, Nat.mul_zero, Nat.add_zero]

theorem unmarshal_toNat {bytes : List Byte} (h : bytes ≠ []) (e : Endian) :
    (unmarshal bytes e).toNat = numberOf e bytes % 256 := by
  obtain ⟨v, upper, rfl⟩ := exists_eq_place h e
  rw [unmarshal_place, numberOf_place, Nat.add_mul_mod_self_left, Nat.mod_eq_of_lt v.isLt]

theorem ne_nil_of_length_width {bytes : List Byte} {w : Width} (h : bytes.length = w.bytes) : bytes ≠ [] := by
  rintro rfl
  cases w <;> cases h

/-- Settles O8: marshalling places the byte under zeros, and unmarshalling takes it from under whatever is above. -/
theorem marshallingIsTheByteOrder : Obligations.MarshallingIsTheByteOrder :=
  ⟨fun v w e => ⟨marshal_length v w e, numberOf_marshal v w e⟩, fun _ => ⟨rfl, rfl, rfl, rfl, rfl, rfl⟩,
    fun _ _ e hlen => unmarshal_toNat (ne_nil_of_length_width hlen) e⟩

end Sys2Proof.Machine
end

section
/-! What a step of the sequencer does to the bound messages (20_memory.md R72): it leaves them alone, or State is READ and the
current message receives the byte read from DATA. The frame of a step is read off that. -/

namespace Sys2Proof

/-! ### The message that receives a byte -/

/-- A message after byte `b` was stored at `position`: byte 0 of a message with `recvlen` extends its length, if it is in
[1,32] (43_sequencer.md R183, R184). -/
def Message.received (position : Nat) (b : Byte) (m : Message) : Message :=
  if m.recvlen = true ∧ position = 0 ∧ 1 ≤ b.toNat ∧ b.toNat ≤ Config.blockMax then
    { m.storeByte position b with len := m.len + b.toNat }
  else m.storeByte position b

namespace Message

variable (position : Nat) (b : Byte) (m : Message)

@[simp] theorem cap_storeByte : (m.storeByte position b).cap = m.cap := by
  unfold storeByte cap
  cases m.buf <;> simp

theorem byteAt_storeByte_of_ne {i : Nat} (h : i ≠ position) : (m.storeByte position b).byteAt i = m.byteAt i := by
  unfold storeByte byteAt
  cases m.buf with
  | none => rfl
  | some l => exact List.getElem?_set_ne h.symm

@[simp] theorem received_addr : (m.received position b).addr = m.addr := by unfold received; split <;> rfl

@[simp] theorem received_rd : (m.received position b).rd = m.rd := by unfold received; split <;> rfl

@[simp] theorem received_nostart : (m.received position b).nostart = m.nostart := by unfold received; split <;> rfl

@[simp] theorem received_recvlen : (m.received position b).recvlen = m.recvlen := by unfold received; split <;> rfl

/-- Only a length byte in [1,32] changes the length (R184). -/
theorem received_len : (m.received position b).len = m.len
    ∨ m.recvlen = true ∧ position = 0 ∧ 1 ≤ b.toNat ∧ b.toNat ≤ Config.blockMax
      ∧ (m.received position b).len = m.len + b.toNat := by
  unfold received
  split
  · next h =>
    obtain ⟨hrecv, hpos, hlo, hhi⟩ := h
    exact .inr ⟨hrecv, hpos, hlo, hhi, rfl⟩
  · exact .inl rfl

/-- The buffer of a message that received a byte is the one the byte was stored in. -/
theorem received_buf : (m.received position b).buf = (m.storeByte position b).buf := by
  unfold received
  split <;> rfl

@[simp] theorem received_cap : (m.received position b).cap = m.cap :=
  (congrArg (fun buf => (buf.getD []).length) (received_buf position b m)).trans (cap_storeByte position b m)

theorem byteAt_received_of_ne {i : Nat} (h : i ≠ position) : (m.received position b).byteAt i = m.byteAt i :=
  (congrArg (fun buf => buf.bind fun l => l[i]?) (received_buf position b m)).trans
    (byteAt_storeByte_of_ne position b m h)

end Message

namespace Machine

/-! ### The bound list under a change of the current message -/

/-- Only what is made of the current message counts. -/
theorem modifyCurrent_congr {s : State} {m : Message} {f g : Message → Message} (hc : s.current = some m)
    (h : f m = g m) : s.modifyCurrent f = s.modifyCurrent g := by
  obtain ⟨l, hl, hm⟩ := msgs_of_current hc
  simp only [State.modifyCurrent, hl, Option.map_some, modify_eq_set hm, h]

theorem modifyCurrent_modifyCurrent (f g : Message → Message) (s : State) :
    (s.modifyCurrent f).modifyCurrent g = s.modifyCurrent (g ∘ f) := by
  unfold State.modifyCurrent
  cases s.msgs <;> simp [List.modify_modify_eq]

theorem msgAt_modifyCurrent (f : Message → Message) (s : State) (k : Nat) :
    (s.modifyCurrent f).msgAt k = if k = s.cursor then (s.msgAt k).map f else s.msgAt k := by
  unfold State.msgAt State.list State.modifyCurrent
  cases s.msgs with
  | none => simp
  | some l =>
    by_cases hk : k = s.cursor
    · subst hk; simp
    · simp [hk, Ne.symm hk]

theorem msgAt_congr {s t : State} (h : t.msgs = s.msgs) (k : Nat) : t.msgAt k = s.msgAt k :=
  congrArg (fun l : MsgList => (l.getD [])[k]?) h

/-! ### The messages through a step of the sequencer -/

@[simp] theorem fail_msgs (e : Err) (s : State) : (fail e s).msgs = s.msgs := rfl

@[simp] theorem issue_msgs (m : Message) (s : State) : (issue m s).msgs = s.msgs := by
  unfold issue
  split
  · rw [issueRead_eq]; rfl
  · exact readBuf_msgs m s.position s

@[simp] theorem nextMessage_msgs (s : State) : (nextMessage s).msgs = s.msgs := by
  unfold nextMessage
  split
  · rfl
  · split
    · exact issue_msgs _ _
    · rfl

@[simp] theorem stepTail_msgs (s : State) : (stepTail s).msgs = s.msgs := by
  unfold stepTail
  split
  · rfl
  · split
    · exact nextMessage_msgs _
    · exact issue_msgs _ s

@[simp] theorem acknowledge_msgs (m : Message) (stat : Byte) (s : State) : (acknowledge m stat s).msgs = s.msgs := by
  unfold acknowledge
  split
  · rfl
  · exact stepTail_msgs _

/-- A byte received changes the current message, and no other (R183, R184). -/
theorem receive_msgs {s : State} {m : Message} (hc : s.current = some m) (b : Byte) :
    (receive m b s).msgs = (s.modifyCurrent (Message.received s.position b)).msgs := by
  have hstored (h : ¬(m.recvlen = true ∧ s.position = 0 ∧ 1 ≤ b.toNat ∧ b.toNat ≤ Config.blockMax)) :
      s.modifyCurrent (·.storeByte s.position b) = s.modifyCurrent (Message.received s.position b) :=
    modifyCurrent_congr hc (if_neg h).symm
  unfold receive
  dsimp only
  split
  · next hrecvlen =>
    split
    · rw [fail_msgs, ← hstored (by omega)]
    · have hextended : (s.modifyCurrent (·.storeByte s.position b)).modifyCurrent
            (fun m => { m with len := m.len + b.toNat }) = s.modifyCurrent (Message.received s.position b) :=
        (modifyCurrent_modifyCurrent _ _ s).trans
          (modifyCurrent_congr hc (if_pos ⟨hrecvlen.1, hrecvlen.2, by omega, by omega⟩).symm)
      have hmsgs := congrArg State.msgs hextended
      exact (stepTail_msgs _).trans hmsgs
  · next hplain =>
    rw [stepTail_msgs, ← hstored fun h => hplain ⟨h.1, h.2.1⟩]

/-- A step leaves the messages alone, or it is in State READ and the current message receives the byte of DATA. -/
theorem seqStep_msgs (s : State) : (seqStep s).2.msgs = s.msgs
    ∨ s.phase = .read ∧ (seqStep s).2.msgs = (s.modifyCurrent (Message.received s.position (dataRead s))).msgs := by
  unfold seqStep process
  split
  · exact .inl rfl
  · unfold event
    split
    · exact .inl rfl
    · split
      · exact .inl rfl
      · next m hc =>
        split
        · exact .inl rfl
        · split
          · next hread => exact .inr ⟨hread, receive_msgs (s := (getreg .data (getreg .cmd s).2).2) hc (dataRead s)⟩
          · exact .inl (acknowledge_msgs m _ _)

/-- Message by message: a step leaves it, or it is the current one in State READ and receives the byte of DATA. -/
theorem seqStep_msgAt (s : State) (k : Nat) : (seqStep s).2.msgAt k = s.msgAt k
    ∨ s.phase = .read ∧ k = s.cursor
      ∧ (seqStep s).2.msgAt k = (s.msgAt k).map (Message.received s.position (dataRead s)) := by
  rcases seqStep_msgs s with hsame | ⟨hread, hreceived⟩
  · exact .inl (msgAt_congr hsame k)
  · rw [msgAt_congr hreceived, msgAt_modifyCurrent]
    split
    · next hk => exact .inr ⟨hread, hk, rfl⟩
    · exact .inl rfl

/-! ### The frame of a step -/

theorem seqStep_bufByte {s : State} {k i : Nat} (h : ¬(s.phase = .read ∧ k = s.cursor ∧ i = s.position)) :
    (seqStep s).2.bufByte k i = s.bufByte k i := by
  unfold State.bufByte
  rcases seqStep_msgAt s k with hsame | ⟨hread, hk, hreceived⟩
  · rw [hsame]
  · have hi : i ≠ s.position := fun hi => h ⟨hread, hk, hi⟩
    simp only [hreceived, Option.bind_map, Function.comp_def, Message.byteAt_received_of_ne _ _ _ hi]

theorem seqStep_msgAt_some {s : State} {k : Nat} {m : Message} (hm : s.msgAt k = some m) :
    ∃ m', (seqStep s).2.msgAt k = some m'
      ∧ m'.addr = m.addr ∧ m'.rd = m.rd ∧ m'.nostart = m.nostart ∧ m'.recvlen = m.recvlen ∧ m'.cap = m.cap
      ∧ (m'.len = m.len ∨ m.recvlen = true ∧ s.phase = .read ∧ k = s.cursor ∧ s.position = 0
          ∧ 1 ≤ (dataRead s).toNat ∧ (dataRead s).toNat ≤ 32 ∧ m'.len = m.len + (dataRead s).toNat) := by
  rcases seqStep_msgAt s k with hsame | ⟨hread, hk, hreceived⟩
  · exact ⟨m, hsame.trans hm, rfl, rfl, rfl, rfl, rfl, .inl rfl⟩
  · rw [hm] at hreceived
    refine ⟨_, hreceived, Message.received_addr .., Message.received_rd .., Message.received_nostart ..,
      Message.received_recvlen .., Message.received_cap .., ?_⟩
    rcases Message.received_len s.position (dataRead s) m with hlen | ⟨hrecv, hpos, hlo, hhi, hlen⟩
    · exact .inl hlen
    · exact .inr ⟨hrecv, hread, hk, hpos, hlo, hhi, hlen⟩

theorem seqStep_msgAt_none {s : State} {k : Nat} (hm : s.msgAt k = none) : (seqStep s).2.msgAt k = none := by
  rcases seqStep_msgAt s k with hsame | ⟨_, _, hreceived⟩
  · exact hsame.trans hm
  · rw [hreceived, hm]; rfl

/-- Settles O32: at most the current message receives the byte of DATA, and the rest is the frame of the sequencer. -/
theorem stepTouchesOneByte : Obligations.StepTouchesOneByte := by
  intro s t h
  obtain ⟨rfl, -⟩ := conclude_next h
  exact ⟨fun _ _ hne => seqStep_bufByte hne, fun _ _ hm => seqStep_msgAt_some hm, fun _ hm => seqStep_msgAt_none hm,
    congrArg (State.returns · (.mark (seqStep s).1)) (seqStep_frame s)⟩

end Machine

end Sys2Proof
end

section
/-! The decoder of a call's bytes (30_encoding.md R95, R99, R103; log 2): what each format byte makes of a word, said once.
The round trip, the table's words, the undecodable calls and the fetch of a call are read off that. -/

namespace Sys2Proof

/-! ### One format at a time -/

theorem decode_fmtCmd {op : Byte} {i : Instr} (h : decodeCommand op.toNat = some i) (r : List Byte) :
    decode (op :: fmtCmd :: r) = .ok (i, r) := by
  simp [decode, h]

theorem decode_fmtCmd_unknown {op : Byte} (h : decodeCommand op.toNat = none) (r : List Byte) :
    decode (op :: fmtCmd :: r) = .error .unknownCommand := by
  simp [decode, h]

theorem decode_fmtMsg (op : Byte) (r : List Byte) : decode (op :: fmtMsg :: r) = decodeMsg op.toNat r := rfl

/-- A bare word that is no command byte is read as a host ordinal (log 2). -/
theorem decode_fmtBare {op : Byte} (h : decodeCommand op.toNat = none) (r : List Byte) :
    decode (op :: fmtBare :: r) = decodeHost op.toNat r := by
  simp [decode, h, fmtBare, fmtCmd, fmtMsg, fmtHost]

theorem decode_unknownFormat {fmt : Byte} (h : 4 ≤ fmt.toNat) (op : Byte) (r : List Byte) :
    decode (op :: fmt :: r) = .error .unknownFormat := by
  have hne : fmt ≠ fmtCmd ∧ fmt ≠ fmtMsg ∧ fmt ≠ fmtHost ∧ fmt ≠ fmtBare := by
    refine ⟨?_, ?_, ?_, ?_⟩ <;> rintro rfl <;> exact absurd h (by decide)
  simp [decode, hne]

/-- A byte that is none of the seven names no command (R104). -/
theorem decodeCommand_eq_none {op : Byte} (h : op ∉ ([0x91, 0x11, 0x21, 0x29, 0x41, 0x01, 0x61] : List Byte)) :
    decodeCommand op.toNat = none := by
  simp only [List.mem_cons, List.not_mem_nil, or_false, not_or, BitVec.ofNat_eq_ofNat, ← BitVec.toNat_inj,
    BitVec.toNat_ofNat] at h
  unfold decodeCommand
  split
  case h_8 => rfl
  all_goals omega

theorem decodeMsg_unknownKind {kind : Nat} (h : 8 ≤ kind) (r : List Byte) : decodeMsg kind r = .error .unknownKind :=
  if_neg (Nat.not_lt.2 h)

/-- Ordinals 14 and above are unused (R103). -/
theorem decodeHost_unknownOperation {ordinal : Nat} (h : 14 ≤ ordinal) (r : List Byte) :
    decodeHost ordinal r = .error .unknownOperation := by
  obtain ⟨n, rfl⟩ := Nat.exists_eq_add_of_le' h
  rfl

/-! ### The round trip -/

/-- A kind has three bits (R99). -/
theorem lt_eight_of_decodeKind {kind : Nat} {o : MsgOperands} {i : Instr} (h : decodeKind kind o = some i) : kind < 8 := by
  by_contra hk
  obtain ⟨n, rfl⟩ := Nat.exists_eq_add_of_le' (Nat.not_lt.1 hk)
  cases h

/-- A message's word, then its operands (R98, R99). -/
theorem decode_message {op : Byte} {o : MsgOperands} {i : Instr} (h : decodeKind op.toNat o = some i) (r : List Byte) :
    decode (op :: fmtMsg :: (putOperands o ++ r)) = .ok (i, r) := by
  rw [decode_fmtMsg]
  simp [decodeMsg, lt_eight_of_decodeKind h, takeOperands_putOperands, h]

/-- A host operation with one operand, which its reader gives back. -/
theorem parsedAs_ok {α : Type} {f : α → Instr} {p : Parsed α} {a : α} {r : List Byte} (h : p = .ok (a, r)) :
    parsedAs f p = .ok (f a, r) := by
  rw [h]; rfl

/-- Settles O2: format by format, each operand's reader gives back what its writer wrote. -/
theorem decodeEncodeRoundTrip : Obligations.DecodeEncodeRoundTrip := by
  intro i rest
  cases i with
  | cmdStart | cmdWrite | cmdReadAck | cmdReadNack | cmdStop | cmdIack | cmdRecover => exact decode_fmtCmd rfl rest
  | msgWrite l o => cases l <;> exact decode_message rfl rest
  | msgWriteNostart l o => cases l <;> exact decode_message rfl rest
  | msgRead o | msgReadRecvlen o | msgReadNostart o | msgReadRecvlenNostart o =>
    exact decode_message rfl rest
  | configure cfg => exact parsedAs_ok (takeSurface_putSurface cfg rest)
  | submit msgs | validate msgs | arm msgs => exact parsedAs_ok (takeMsgList_putMsgList msgs rest)
  | recover | step | irqEntry | waitIrq | pollLoop | watchdogAbort | report => rfl
  | pollWait mask t => exact parsedAs_ok (takeNat_putNat t rest)
  | getreg id => exact parsedAs_ok (takeReg_putReg id rest)
  | setreg id v => cases id <;> rfl

/-- Settles O1: the decoder run on each of the table's words. -/
theorem tableWordsDecode : Obligations.TableWordsDecode := by
  unfold Obligations.TableWordsDecode
  decide

/-! ### Operand bytes that stand for no value -/

theorem takeReg_unknownRegister {b : Byte} (h : 5 ≤ b.toNat) (r : List Byte) :
    takeReg (b :: r) = .error .unknownRegister := by
  obtain ⟨n, hn⟩ := Nat.exists_eq_add_of_le' h
  simp [takeReg, takeByte, hn]

theorem decodeHost_setreg_error {bytes : List Byte} {e : Reject} (h : takeReg bytes = .error e) :
    decodeHost 13 bytes = .error e := by
  simp [decodeHost, h]

theorem takeBool_badOperand {b : Byte} (h : 2 ≤ b.toNat) (r : List Byte) : takeBool (b :: r) = .error .badOperand := by
  have hne : b ≠ 0#8 ∧ b ≠ 1#8 := by
    refine ⟨?_, ?_⟩ <;> rintro rfl <;> exact absurd h (by decide)
  simp [takeBool, takeByte, hne]

theorem takeMsgList_badOperand {b : Byte} (h : 2 ≤ b.toNat) (r : List Byte) :
    takeMsgList (b :: r) = .error .badOperand := by
  simp [takeMsgList, takeBool_badOperand h]

theorem parsedAs_error {α : Type} {f : α → Instr} {p : Parsed α} {e : Reject} (h : p = .error e) :
    parsedAs f p = .error e := by
  rw [h]; rfl

namespace Machine

/-! ### The fetch of a call -/

theorem step_call {s : State} {bytes : List Byte} {moves : List Move} (h : s.schedule = .call bytes :: moves) :
    step s = runCall bytes { s with schedule := moves } := by
  simp [step, h]

theorem runCall_ok {bytes more : List Byte} {i : Instr} (h : decode bytes = .ok (i, more)) (s : State) :
    runCall bytes s = exec i s := by
  simp [runCall, h]

theorem runCall_error {bytes : List Byte} {why : Reject} (h : decode bytes = .error why) (s : State) :
    runCall bytes s = .fault (.undefinedCall why) := by
  simp [runCall, h]

theorem decode_of_decodeTableWord {nbits w : Nat} {i : Instr} (h : decodeTableWord nbits w = some i) :
    ∃ more, decode (tableBytes nbits w) = .ok (i, more) := by
  unfold decodeTableWord at h
  split at h
  · next j more hd =>
    cases h
    exact ⟨more, hd⟩
  · cases h

/-- Settles O53: the call is taken off the schedule and its instruction executed; a placed table word is such a call. -/
theorem stepRunsTheDecodedCall : Obligations.StepRunsTheDecodedCall := by
  refine ⟨fun s bytes more rest i hs hd => (step_call hs).trans (runCall_ok hd _), fun s nbits w i hd => ?_⟩
  obtain ⟨more, hd⟩ := decode_of_decodeTableWord hd
  exact (step_call (s := s.withFetchWord nbits w) rfl).trans (runCall_ok hd s)

theorem step_undefinedCall {s : State} {bytes : List Byte} {why : Reject} {moves : List Move}
    (hs : s.schedule = .call bytes :: moves) (h : decode bytes = .error why) :
    step s = .fault (.undefinedCall why) :=
  (step_call hs).trans (runCall_error h _)

/-- Settles O3: each named case is an error of the decoder, and an error of the decoder is the fault. -/
theorem undecodableCallsFault : Obligations.UndecodableCallsFault := by
  refine ⟨fun _ _ _ _ => step_undefinedCall,
    ⟨rfl, fun _ => rfl, fun r b more => ⟨rfl, rfl, fun hr => ?_, fun hb => ?_⟩⟩,
    fun s op fmt rest moves hs => ⟨?_, ?_, ?_, ?_, fun hf => step_undefinedCall hs (decode_unknownFormat hf op rest)⟩⟩
  · have hreg := takeReg_unknownRegister hr more
    exact ⟨parsedAs_error hreg, decodeHost_setreg_error hreg⟩
  · have hlist := takeMsgList_badOperand hb more
    exact ⟨parsedAs_error hlist, parsedAs_error hlist, parsedAs_error hlist⟩
  · rintro rfl hop hordinal
    have hbare := decode_fmtBare (decodeCommand_eq_none hop) rest
    exact step_undefinedCall hs (hbare.trans (decodeHost_unknownOperation hordinal rest))
  · rintro rfl hop
    exact step_undefinedCall hs (decode_fmtCmd_unknown (decodeCommand_eq_none hop) rest)
  · rintro rfl hkind
    exact step_undefinedCall hs (decodeMsg_unknownKind hkind rest)
  · rintro rfl hordinal
    exact step_undefinedCall hs (decodeHost_unknownOperation hordinal rest)

end Machine

end Sys2Proof
end

section
/-! The bytes of COMMAND and STATUS and the address byte (30_encoding.md R93 to R97, R108; 42_commands.md R141 to R151).
Legal parameters keep the seven commands and the five masks apart, and each statement on a byte is read off that. -/

namespace Sys2Proof

open Machine

/-! ### COMMAND -/

/-- The seven commands (R95), in the order in which a byte is compared with them. -/
def Command.all : List Command := [.start, .write, .readAck, .readNack, .stop, .iack, .recover]

theorem Command.mem_all (c : Command) : c ∈ Command.all := by cases c <;> decide

theorem Params.commandOf_eq (p : Params) (b : Byte) : p.commandOf b = Command.all.find? fun c => p.cmdByte c == b := rfl

/-- Legal parameters give the seven commands seven values (D3). -/
theorem Params.nodup_cmdByte {p : Params} (h : p.legal = true) : (Command.all.map p.cmdByte).Nodup := by
  simp only [Params.legal, Bool.and_eq_true, decide_eq_true_eq] at h
  obtain ⟨⟨⟨⟨⟨-, hcommands⟩, -⟩, -⟩, -⟩, -⟩ := h
  exact hcommands

theorem Params.cmdByte_injective {p : Params} (h : p.legal = true) : Function.Injective p.cmdByte := fun c c' heq =>
  List.inj_on_of_nodup_map (Params.nodup_cmdByte h) c.mem_all c'.mem_all heq

theorem Params.commandOf_eq_some_iff {p : Params} (h : p.legal = true) (b : Byte) (c : Command) :
    p.commandOf b = some c ↔ b = p.cmdByte c := by
  rw [Params.commandOf_eq]
  constructor
  · intro hfound
    have heq : p.cmdByte c = b := by simpa using List.find?_some hfound
    exact heq.symm
  · rintro rfl
    have hsome : (Command.all.find? fun c' => p.cmdByte c' == p.cmdByte c).isSome := by
      simpa using ⟨c, c.mem_all, rfl⟩
    obtain ⟨c', hfound⟩ := Option.isSome_iff_exists.1 hsome
    have heq : p.cmdByte c' = p.cmdByte c := by simpa using List.find?_some hfound
    rwa [Params.cmdByte_injective h heq] at hfound

/-- Settles O5: seven distinct values are found whole, and the default values carry their commands' bits. -/
theorem commandBytesAreComparedWhole : Obligations.CommandBytesAreComparedWhole := by
  refine ⟨fun p h b c => Params.commandOf_eq_some_iff h b c, fun c => ?_⟩
  cases c <;> decide

/-- Settles O4: the bits of each default value are those that the layout composes. -/
theorem commandBytesFollowTheLayout : Obligations.CommandBytesFollowTheLayout := by
  refine ⟨by decide, fun c => ?_⟩
  cases c <;> decide

/-! ### STATUS -/

theorem isSet_or (a b mask : Byte) : isSet (a ||| b) mask = (isSet a mask || isSet b mask) := by
  simp [isSet, BitVec.and_or_distrib_right, bne, Bool.beq_eq_decide_eq]

/-- A byte that is there or not, as a flag says. -/
theorem isSet_ite (x : Bool) (b mask : Byte) : isSet (if x then b else 0#8) mask = (x && isSet b mask) := by
  cases x <;> simp [isSet]

theorem oneBit_iff {mask : Byte} : oneBit mask = true ↔ ∃ i < 8, mask = 1#8 <<< i := by simp [oneBit]

/-- Two masks of one bit meet only if they are the same. -/
theorem isSet_of_oneBit {m mask : Byte} (hm : oneBit m = true) (hmask : oneBit mask = true) :
    isSet m mask = decide (m = mask) := by
  have hplaces : ∀ i < 8, ∀ j < 8, isSet (1#8 <<< i) (1#8 <<< j) = decide (1#8 <<< i = 1#8 <<< j) := by decide
  obtain ⟨i, hi, rfl⟩ := oneBit_iff.1 hm
  obtain ⟨j, hj, rfl⟩ := oneBit_iff.1 hmask
  exact hplaces i hi j hj

/-- The masks of STATUS, in the order of R94. -/
def Params.statusMasks (p : Params) : List Byte := [p.statRxack, p.statBusy, p.statAl, p.statTip, p.statIf]

/-- Legal parameters give STATUS five masks of one bit, of which no two meet (D2). -/
theorem Params.statusMasks_apart {p : Params} (h : p.legal = true) :
    (∀ m ∈ p.statusMasks, isSet m m = true)
      ∧ p.statusMasks.Pairwise fun m mask => isSet m mask = false ∧ isSet mask m = false := by
  simp only [Params.legal, Bool.and_eq_true, decide_eq_true_eq, List.all_eq_true] at h
  obtain ⟨⟨⟨⟨⟨⟨⟨-, hone⟩, hnodup⟩, -⟩, -⟩, -⟩, -⟩, -⟩ := h
  have hmeet : ∀ m ∈ p.statusMasks, ∀ mask ∈ p.statusMasks, isSet m mask = decide (m = mask) :=
    fun m hm mask hmask => isSet_of_oneBit (hone m hm) (hone mask hmask)
  refine ⟨fun m hm => (hmeet m hm m hm).trans (decide_eq_true rfl), List.Pairwise.imp_of_mem ?_ hnodup⟩
  intro m mask hm hmask hne
  exact ⟨(hmeet m hm mask hmask).trans (decide_eq_false hne), (hmeet mask hmask m hm).trans (decide_eq_false hne.symm)⟩

/-- Settles O6: the status byte is the union of the masks whose flags are up, and no mask meets another. -/
theorem statusByteHasItsBits : Obligations.StatusByteHasItsBits := by
  refine ⟨fun p e h => ?_, fun e => ?_⟩
  · obtain ⟨hself, hapart⟩ := Params.statusMasks_apart h
    simp only [Params.statusMasks, List.forall_mem_cons, List.pairwise_cons] at hself hapart
    simp [Params.nack, Params.al, Params.pending, Engine.status, isSet_or, isSet_ite, hself, hapart]
  · unfold Engine.status
    generalize e.rxack = rxack, e.busy = busy, e.al = al, e.tip = tip, e.ifl = ifl
    revert rxack busy al tip ifl
    decide

/-! ### The address byte -/

theorem addrByte_toNat {m : Message} (h : m.addr ≤ 0x7F) : (addrByte m).toNat = m.addr <<< 1 ||| m.rd.toNat := by
  have hlt : m.rd.toNat < 2 ^ 1 := m.rd.toNat_lt
  have hrd : (if m.rd then 1 else 0) = m.rd.toNat := by cases m.rd <;> rfl
  rw [← Nat.shiftLeft_add_eq_or_of_lt hlt, Nat.shiftLeft_eq, addrByte, hrd, BitVec.toNat_ofNat]
  omega

namespace Machine

theorem validateFails_of_longAddress {l : List Message} {m : Message} (hm : m ∈ l) (h : 0x7F < m.addr) :
    validateFails (some l) = true := by
  have hany : l.any (fun m => decide (0x7F < m.addr)) = true := List.any_eq_true.2 ⟨m, hm, decide_eq_true h⟩
  simp [validateFails, hany]

/-- A list that validate refuses is not armed by submit (R201). -/
theorem exec_submit_malformed {l : MsgList} {s : State} (hl : validateFails l = true) (hconf : s.configured = true)
    (hfail : s.configureFailed = false) (hclaim : s.claim = .free) :
    exec (.submit l) s = .next (s.returns (.result none .parameter)) := by
  simp [exec, execSubmit, hl, hconf, hfail, hclaim]

/-- A list that validate refuses is not armed by arm (log 10). -/
theorem exec_arm_malformed {l : MsgList} {s : State} (hl : validateFails l = true) (hfail : s.configureFailed = false)
    (hclaim : s.claim = .free) : exec (.arm l) s = .next (s.returns (.result none .parameter)) := by
  simp [exec, execArm, hl, hfail, hclaim]

/-- Settles O7: the byte's two parts do not overlap, and validate refuses a list with a longer address. -/
theorem addressByteIsAddressAndDirection : Obligations.AddressByteIsAddressAndDirection := by
  refine ⟨fun m h => addrByte_toNat h, fun l m s hm haddr hclaim hfail => ?_⟩
  have hl := validateFails_of_longAddress hm haddr
  exact ⟨fun hconf => exec_submit_malformed hl hconf hfail hclaim, exec_arm_malformed hl hfail hclaim⟩

/-! ### The command calls -/

theorem exec_commandInstr (c : Command) (s : State) : exec c.instr s = conclude s (sendCmd c s) := by cases c <;> rfl

/-- Settles O11: a command call is one write of its byte to COMMAND, whichever command it is. -/
theorem commandsWriteTheirByte : Obligations.CommandsWriteTheirByte := fun s c h =>
  ⟨sendCmd c s, (exec_commandInstr c s).trans (conclude_trusted h _), sendCmd_accessed h c, rfl⟩

end Machine

end Sys2Proof
end

section
/-! What the block writes to COMMAND (30_encoding.md R104, 42_commands.md R140). `Commanded s t` says it of the accesses
between `s` and `t`; every operation extends such a stretch, but for a direct setreg, and so does every step. -/

namespace Sys2Proof.Machine

/-- From `s` to `t`, with the parameters and DeviceConfig unchanged, every byte written to COMMAND was one of the
seven (R104). -/
def Commanded (s t : State) : Prop :=
  t.params = s.params ∧ t.dev = s.dev ∧ ∃ evs, t.env.trace = s.env.trace ++ evs ∧
    ∀ ev ∈ evs, ev.writes .cmd = true → ∃ c : Command, ev = cEvent s c

namespace Commanded

variable {s t : State}

theorem refl (s : State) : Commanded s s := ⟨rfl, rfl, [], (List.append_nil _).symm, nofun⟩

/-- One access more, which is no write to COMMAND or writes one of the seven bytes. -/
theorem access {u : State} (h : Commanded s t) (hp : u.params = t.params) (hd : u.dev = t.dev) {ev : Event}
    (hu : u.env.trace = t.env.trace ++ [ev]) (hev : ev.writes .cmd = true → ∃ c : Command, ev = cEvent t c) :
    Commanded s u := by
  obtain ⟨hparams, hdev, evs, htrace, hevs⟩ := h
  refine ⟨hp.trans hparams, hd.trans hdev, evs ++ [ev], by rw [hu, htrace, List.append_assoc], ?_⟩
  simp only [List.forall_mem_append, List.forall_mem_singleton]
  have hcmd : cEvent t = cEvent s := by
    funext c
    unfold cEvent wEvent
    rw [hparams, hdev]
  exact ⟨hevs, hcmd ▸ hev⟩

/-- No access more. -/
theorem same_trace {u : State} (h : Commanded s t) (hp : u.params = t.params) (hd : u.dev = t.dev)
    (hu : u.env.trace = t.env.trace) : Commanded s u := by
  unfold Commanded
  rw [hp, hd, hu]
  exact h

/-! ### The named operations -/

theorem getreg (h : Commanded s t) (id : RegId) : Commanded s (getreg id t).2 := by
  obtain ⟨bytes, htrace⟩ := getreg_trace id t
  exact h.access rfl rfl htrace nofun

theorem setreg (h : Commanded s t) {id : RegId} (hid : id ≠ .cmd) (v : Byte) : Commanded s (setreg id v t) :=
  h.access rfl rfl (setreg_trace id v t) fun hw => absurd (eq_of_beq hw) hid

theorem sendCmd (h : Commanded s t) (c : Command) : Commanded s (sendCmd c t) :=
  h.access rfl rfl (sendCmd_trace c t) fun _ => ⟨c, rfl⟩

theorem setControl (h : Commanded s t) (v : Byte) : Commanded s (Machine.setreg .control v t) := h.setreg (by decide) v

theorem setData (h : Commanded s t) (v : Byte) : Commanded s (Machine.setreg .data v t) := h.setreg (by decide) v

theorem readClock (h : Commanded s t) : Commanded s (readClock t).2 :=
  h.same_trace rfl rfl (congrArg (fun u => u.env.trace) (readClock_shape t).1)

theorem readBuf (h : Commanded s t) (m : Message) (i : Nat) : Commanded s (readBuf m i t).2 :=
  h.same_trace (readBuf_params m i t) (readBuf_dev m i t) (congrArg (fun u => u.env.trace) (readBuf_shape m i t))

theorem environment (h : Commanded s t) (m : EnvMove) : Commanded s (environment m t) := by
  unfold Machine.environment
  split
  · exact h
  · exact h.same_trace rfl rfl (applyMove_keeps t.env m).1

theorem fail (h : Commanded s t) (e : Err) : Commanded s (fail e t) :=
  sendCmd (t := { t with phase := .error, err := e }) h .stop

theorem sendAddress (h : Commanded s t) (m : Message) : Commanded s (sendAddress m t) := (h.setData _).sendCmd .start

/-! ### The sequencer -/

theorem issue (h : Commanded s t) (m : Message) : Commanded s (issue m t) := by
  unfold Machine.issue
  split
  · rw [issueRead_eq]
    exact h.sendCmd _
  · have hdata := (h.readBuf m t.position).setData (Machine.readBuf m t.position t).1
    exact sendCmd (t := { Machine.setreg .data _ _ with position := t.position + 1 }) hdata .write

theorem nextMessage (h : Commanded s t) : Commanded s (nextMessage t) := by
  unfold Machine.nextMessage
  split
  · exact sendCmd (t := { t with phase := .done }) h .stop
  · next m _ =>
    split
    · exact issue (t := { t with phase := m.dirPhase }) h m
    · exact sendAddress (t := { t with phase := .start }) h m

theorem stepTail (h : Commanded s t) : Commanded s (stepTail t) := by
  unfold Machine.stepTail
  split
  · exact h
  · next m _ =>
    split
    · exact nextMessage (t := { t with cursor := t.cursor + 1, position := 0 }) h
    · exact h.issue m

theorem acknowledge (h : Commanded s t) (m : Message) (stat : Byte) : Commanded s (acknowledge m stat t) := by
  unfold Machine.acknowledge
  split
  · exact h.fail .nack
  · exact stepTail (t := { t with phase := m.dirPhase }) h

theorem receive (h : Commanded s t) (m : Message) (b : Byte) : Commanded s (receive m b t) := by
  have hstored : Commanded s { t.modifyCurrent (·.storeByte t.position b) with position := t.position + 1 } := h
  unfold Machine.receive
  dsimp only
  split
  · split
    · exact hstored.fail .blockLength
    · exact stepTail (t := State.modifyCurrent _ _) hstored
  · exact hstored.stepTail

theorem event (h : Commanded s t) (stat : Byte) : Commanded s (event stat t) := by
  unfold Machine.event
  split
  · exact h.fail .arbitration
  · split
    · exact h.fail .parameter
    · next m _ =>
      split
      · exact h.fail .parameter
      · split
        · exact (h.getreg .data).receive m _
        · exact h.acknowledge m stat

theorem process (h : Commanded s t) (stat : Byte) : Commanded s (process stat t).2 := by
  unfold Machine.process
  split
  · exact h.sendCmd .iack
  · exact h.event stat

theorem seqStep (h : Commanded s t) : Commanded s (seqStep t).2 := (h.getreg .cmd).process _

/-! ### Recovery and arm -/

theorem recoverMask (h : Commanded s t) : Commanded s (recoverMask t) := by
  unfold Machine.recoverMask
  split
  · exact (h.getreg .control).setControl _
  · exact h

theorem recoverClear (h : Commanded s t) : Commanded s (recoverClear t) :=
  sendCmd (t := { t with t0Recovery := none }) h .iack

theorem recoverPass (h : Commanded s t) : Commanded s (recoverPass t).2 := by
  unfold Machine.recoverPass
  dsimp only
  split
  · split
    · exact (h.getreg .cmd).readClock.recoverClear
    · exact (h.getreg .cmd).readClock
  · exact (h.getreg .cmd).recoverClear

theorem recoverForce (h : Commanded s t) : Commanded s (recoverForce t).2 :=
  recoverPass (t := { (Machine.readClock _).2 with t0Recovery := _ }) (h.recoverMask.sendCmd .recover).readClock

theorem recover (h : Commanded s t) : Commanded s (recover t).2 := by
  unfold Machine.recover
  dsimp only
  split
  · exact (h.getreg .cmd).recoverForce
  · exact h.getreg .cmd

/-- An operation that returns or leaves a frame, according to how its wait stands. -/
theorem returns_or_push (h : Commanded s t) (b : Bool) (r : Ret) (f : Frame) :
    Commanded s (if b then t.returns r else push f t) := by
  cases b <;> exact h

theorem claim (h : Commanded s t) (owner : Claim) : Commanded s { t with claim := owner } := h

/-- The end of a locked region that returns. -/
theorem release_returns (h : Commanded s t) (r : Ret) : Commanded s ((release t).returns r) := h

theorem begin (h : Commanded s t) (m : Message) (rest : List Message) : Commanded s (begin m rest t) :=
  sendAddress (t := { t with
    msgs := some (m :: rest), cursor := 0, position := 0, err := .none, completion := false, phase := .start }) h m

theorem armTail (h : Commanded s t) (owner : Claim) (l : MsgList) : Commanded s (armTail owner l t) := by
  have hmode := (h.getreg .control).setControl (t.params.ctrlForMode t.mode (Machine.getreg .control t).1)
  unfold Machine.armTail
  dsimp only
  split
  · next m rest => exact ((hmode.claim owner).begin m rest).release_returns .nothing
  · exact hmode
  · exact hmode

theorem arm (h : Commanded s t) (owner : Claim) (l : MsgList) : Commanded s (arm owner l t) := by
  have hrecover := recover (t := acquire .initiator t) h
  unfold Machine.arm
  dsimp only
  split
  · split
    · exact hrecover.armTail owner l
    · exact hrecover
  · exact h

theorem startTransaction (h : Commanded s t) (owner : Claim) (l : MsgList) : Commanded s (startTransaction owner l t) :=
  (h.claim owner).arm owner l

/-! ### The adapters and the watchdog -/

theorem irqLocked (h : Commanded s t) : Commanded s (irqLocked t) := by
  have hstatus := getreg (t := acquire .interrupt t) h .cmd
  unfold Machine.irqLocked
  dsimp only
  split
  · exact hstatus.process _
  · exact hstatus

theorem irqEntry (h : Commanded s t) : Commanded s (irqEntry t) := by
  unfold Machine.irqEntry
  split
  · exact h.irqLocked
  · exact h

theorem resumeIrq (h : Commanded s t) : Commanded s (resumeIrq t) := by
  unfold Machine.resumeIrq
  split
  · exact irqLocked (t := { t with irqWaiting := false }) h
  · exact h

theorem suspendedLook (h : Commanded s t) : Commanded s (suspendedLook t) := by
  unfold Machine.suspendedLook
  dsimp only
  split
  · exact h
  · split <;> exact h.readClock

theorem waitIrq (h : Commanded s t) : Commanded s (waitIrq t) :=
  suspendedLook (t := { (Machine.readClock t).2 with t0Irq := _ }) h.readClock

theorem pollStep (h : Commanded s t) : Commanded s (pollStep t) := by
  have hstep := seqStep (t := acquire .initiator t) h
  unfold Machine.pollStep
  dsimp only
  split
  · split <;> exact hstep
  · exact h

theorem waitEnds (h : Commanded s t) (ok : Bool) (k : PollFor) : Commanded s (waitEnds ok k t) := by
  unfold Machine.waitEnds
  dsimp only
  split
  · exact h
  · split
    · exact pollStep (t := { t with t0Poll := none }) h
    · split <;> exact h

theorem pollPass (h : Commanded s t) (mask : Byte) (bound : Nat) (k : PollFor) : Commanded s (pollPass mask bound k t) := by
  have hstatus := h.getreg .cmd
  unfold Machine.pollPass
  dsimp only
  split
  · split
    · exact hstatus.readClock.waitEnds false k
    · exact hstatus.readClock
  · exact hstatus.waitEnds true k

theorem pollWait (h : Commanded s t) (mask : Byte) (bound : Nat) (k : PollFor) : Commanded s (pollWait mask bound k t) :=
  pollPass (t := { (Machine.readClock t).2 with t0Poll := some _ }) h.readClock mask bound k

theorem pollLoop (h : Commanded s t) : Commanded s (pollLoop t) := h.pollWait _ _ _

theorem launch (h : Commanded s t) : Commanded s (launch t) := by
  unfold Machine.launch
  split
  · exact h.waitIrq
  · exact h.pollLoop

theorem abortLocked (h : Commanded s t) : Commanded s (abortLocked t) := by
  unfold Machine.abortLocked
  split
  · exact h
  · exact sendCmd (t := { t with phase := .error, err := .timeout }) h .stop

theorem watchdogAbort (h : Commanded s t) : Commanded s (watchdogAbort t) := by
  unfold Machine.watchdogAbort
  split
  · exact abortLocked (t := acquire .initiator t) h
  · exact h

theorem expireLocked (h : Commanded s t) : Commanded s (expireLocked t) := by
  unfold Machine.expireLocked
  split <;> exact h

theorem terminalWaitExpired (h : Commanded s t) : Commanded s (terminalWaitExpired t) := by
  unfold Machine.terminalWaitExpired
  split
  · exact expireLocked (t := acquire .initiator t) h
  · exact h

theorem report (h : Commanded s t) : Commanded s (report t) := by
  unfold Machine.report
  dsimp only
  split <;> exact h

theorem resumeFrame (h : Commanded s t) (f : Frame) : Commanded s (resumeFrame f t) := by
  cases f with
  | armStart owner l => exact h.arm owner l
  | recoverWait => exact h.recoverPass.returns_or_push _ _ _
  | armTail owner l => exact h.armTail owner l
  | launch => exact h.launch
  | suspended => exact h.suspendedLook
  | abort => exact h.watchdogAbort
  | pollTop => exact h.pollLoop
  | pollWaiting mask bound k => exact h.pollPass mask bound k
  | pollStep => exact h.pollStep
  | terminalExpired => exact h.terminalWaitExpired
  | report => exact h.report

theorem feedMessage (h : Commanded s t) (m : Message) : Commanded s (feedMessage m t).2 :=
  seqStep (t := { t with msgs := some (t.list ++ [m]), claim := .program }) h

/-- The writes of bring-up, after `ctrl` was read from CONTROL (R133). -/
theorem bringUpWrites (h : Commanded s t) (ctrl lo hi : Byte) : Commanded s
    (Machine.setreg .control (t.params.enabled (t.params.disabled ctrl))
      (Machine.sendCmd .iack (Machine.setreg .prehigh hi (Machine.setreg .prelow lo
        (Machine.setreg .control (t.params.disabled ctrl) t))))) := by
  have hcontrol := h.setControl (t.params.disabled ctrl)
  have hprelow := hcontrol.setreg (id := .prelow) (by decide) lo
  have hprehigh := hprelow.setreg (id := .prehigh) (by decide) hi
  exact (hprehigh.sendCmd .iack).setControl _

/-- Bring-up, seen from the DeviceConfig it sets (R133). -/
theorem bringUp (cfg : Surface) (w : Width) (p : Prescale) (s : State) :
    Commanded (s.withConfig cfg w p) (bringUp cfg w p s) :=
  (bringUpWrites ((refl (s.withConfig cfg w p)).getreg .control) (Machine.getreg .control (s.withConfig cfg w p)).1
    (lowByte p) (highByte p)).same_trace rfl rfl rfl

/-- The accesses of the stretch, as the configuration at its end has them. -/
theorem eventsSince (h : Commanded s t) {ev : Event} (hev : ev ∈ eventsSince s t) (hw : ev.writes .cmd = true) :
    ∃ c : Command, ev = cEvent t c := by
  obtain ⟨hparams, hdev, evs, htrace, hevs⟩ := h
  rw [Sys2Proof.eventsSince, htrace, List.drop_left] at hev
  obtain ⟨c, rfl⟩ := hevs ev hev hw
  refine ⟨c, ?_⟩
  unfold cEvent wEvent
  rw [hparams, hdev]

end Commanded

/-! ### Every instruction but setreg, every move -/

/-- If the outcome is a next state, no byte but one of the seven was written to COMMAND since `s`. -/
def OnlyCommands (s : State) (o : Host.Outcome State Fault Refusal) : Prop :=
  ∀ t, o = .next t → ∀ ev ∈ eventsSince s t, ev.writes .cmd = true → ∃ c : Command, ev = cEvent t c

namespace OnlyCommands

variable {s t : State}

theorem next (h : Commanded s t) : OnlyCommands s (.next t) := by
  rintro _ ⟨⟩ ev hev hw
  exact h.eventsSince hev hw

theorem conclude (u : State) (h : Commanded s t) : OnlyCommands s (conclude u t) := by
  intro t' ht'
  obtain ⟨rfl, -⟩ := conclude_next ht'
  exact next h t' rfl

theorem refused (why : Refusal) : OnlyCommands s (.refused why) := by
  rintro _ ⟨⟩

theorem execConfigure (cfg : Surface) (s : State) : OnlyCommands s (execConfigure cfg s) := by
  unfold Machine.execConfigure
  split
  · exact refused _
  · split
    · exact refused _
    · split
      · exact next (.refl s)
      · next w p _ => exact conclude (s := s.withConfig cfg w p) s (.bringUp cfg w p s)

theorem execSubmit (l : MsgList) (s : State) : OnlyCommands s (execSubmit l s) := by
  unfold Machine.execSubmit
  split
  · split
    · split
      · exact next (.refl s)
      · exact conclude s (Commanded.startTransaction (t := push .launch (push .report s)) (.refl s) .submission l)
    · exact refused _
  · exact refused _

theorem execArm (l : MsgList) (s : State) : OnlyCommands s (execArm l s) := by
  unfold Machine.execArm
  split
  · exact refused _
  · split
    · split
      · exact next (.refl s)
      · exact conclude s ((Commanded.refl s).startTransaction .submission l)
    · exact refused _

theorem runMessage (m : Message) (s : State) : OnlyCommands s (runMessage m s) := by
  unfold Machine.runMessage
  split
  · exact refused _
  · split
    · exact refused _
    · split
      · exact refused _
      · split
        · exact next (.refl s)
        · split
          · exact conclude s ((Commanded.refl s).startTransaction .program _)
          · exact conclude s ((Commanded.refl s).feedMessage m)

theorem exec {i : Instr} (hi : ∀ id v, i ≠ .setreg id v) (s : State) : OnlyCommands s (exec i s) := by
  have start := Commanded.refl s
  cases i with
  | cmdStart | cmdWrite | cmdReadAck | cmdReadNack | cmdStop | cmdIack | cmdRecover => exact conclude s (start.sendCmd _)
  | msgWrite | msgRead | msgReadRecvlen | msgWriteNostart | msgReadNostart | msgReadRecvlenNostart => exact runMessage _ s
  | configure cfg => exact execConfigure cfg s
  | submit l => exact execSubmit l s
  | validate l => exact next start
  | arm l => exact execArm l s
  | recover => exact conclude s (start.recover.returns_or_push _ _ _)
  | step => exact conclude s start.seqStep
  | irqEntry => exact conclude s start.irqEntry
  | waitIrq => exact conclude s start.waitIrq
  | pollLoop => exact conclude s start.pollLoop
  | pollWait mask bound => exact conclude s (start.pollWait mask bound .alone)
  | watchdogAbort => exact conclude s start.watchdogAbort
  | report => exact next start.report
  | getreg id => exact conclude s (start.getreg id)
  | setreg id v => exact absurd rfl (hi id v)

theorem runCall {bytes : List Byte} (h : ∀ more id v, decode bytes ≠ .ok (.setreg id v, more)) (s : State) :
    OnlyCommands s (runCall bytes s) := by
  unfold Machine.runCall
  split
  · next i more hd => exact exec (fun id v hi => h more id v (hi ▸ hd)) s
  · rintro _ ⟨⟩

end OnlyCommands

namespace Commanded

theorem resumeInitiator (s : State) : Commanded s (resumeInitiator s) := by
  unfold Machine.resumeInitiator
  split
  · exact .refl s
  · next f rest _ => exact resumeFrame (t := { s with todo := rest }) (.refl s) f

theorem idleMove (s : State) : Commanded s (idleMove s) := by
  unfold Machine.idleMove
  split
  · exact (refl s).resumeIrq
  · next f rest _ => exact resumeFrame (t := { s with todo := rest }) (.refl s) f

theorem deliver (s : State) : Commanded s (deliver s) := by
  unfold Machine.deliver
  split
  · exact (refl s).irqEntry
  · exact .refl s

end Commanded

/-- Settles O59: a move that is no setreg call does operations that write only commands. -/
theorem onlyTheSevenCommandsAreWritten : Obligations.OnlyTheSevenCommandsAreWritten := by
  intro s t h hcall
  suffices OnlyCommands s (step s) from this t h
  unfold step
  split
  · exact .conclude s (.idleMove s)
  · next bytes rest hs =>
    exact OnlyCommands.runCall (fun more id v => hcall bytes rest more id v hs) { s with schedule := rest }
  · next rest _ => exact .conclude _ (.resumeInitiator { s with schedule := rest })
  · next rest _ => exact .conclude _ (Commanded.refl { s with schedule := rest }).resumeIrq
  · next rest _ => exact .conclude _ (.deliver { s with schedule := rest })
  · next m rest _ => exact .conclude _ ((Commanded.refl { s with schedule := rest }).environment m)

end Sys2Proof.Machine
end

section
/-! One register access called directly (40_register_access.md R120, R121): at the trusted level it always concludes, and the
state lemmas of the register port say what it does. -/

namespace Sys2Proof.Machine

theorem exec_getreg {s : State} (h : s.env.level = .oracle) (id : RegId) :
    exec (.getreg id) s = .next ((getreg id s).2.returns (.byte (getreg id s).1)) := conclude_trusted h _

theorem exec_setreg {s : State} (h : s.env.level = .oracle) (id : RegId) (v : Byte) :
    exec (.setreg id v) s = .next ((setreg id v s).returns .nothing) := conclude_trusted h _

/-- `RegOffset` with the shift written as a product (20_memory.md R61). -/
theorem regOffset_eq (p : Params) (d : DeviceConfig) (id : RegId) :
    regOffset p d id = d.baseOffset + p.regNum id * 2 ^ d.registerShift := by
  rw [regOffset, Nat.shiftLeft_eq]

/-- Settles O9: the call is the port's one read, and its value is handed back. -/
theorem getregIsOneRead : Obligations.GetregIsOneRead := by
  intro s id h
  obtain ⟨ev, hread, haccessed⟩ := getreg_accessed h id
  refine ⟨_, _, ev, exec_getreg h id, hread, haccessed, rfl, fun bytes more hanswers hlength => ?_⟩
  have hlisted := getreg_answers h id bytes more hanswers hlength
  rw [hlisted]
  exact ⟨rfl, rfl⟩

/-- Settles O10: the call is the port's one write, at the register's offset. -/
theorem setregIsOneWrite : Obligations.SetregIsOneWrite := by
  intro s id v h
  refine ⟨_, exec_setreg h id v, rfl, ?_⟩
  rw [← regOffset_eq]
  exact setreg_accessed h id v

end Sys2Proof.Machine
end

section
/-! The clock arithmetic of bring-up (41_clock_config.md R130, R131): the clamp as a maximum of a minimum, and the tolerance check
against any positive divisor. -/

namespace Sys2Proof.Machine

theorem clamp_eq_max_min {lo hi : Int} (h : lo ≤ hi) (x : Int) : clamp x lo hi = max lo (min x hi) := by
  unfold clamp
  split
  · omega
  · split <;> omega

/-- The clamp keeps the prescale in its 16 bits (R130). -/
theorem computePrescale_toNat (ip bus : Nat) :
    ((computePrescale ip bus).toNat : Int) = clamp (((ip / (5 * bus) : Nat) : Int) - 1) 0 0xFFFF := by
  rw [computePrescale, BitVec.toNat_ofNat, clamp_eq_max_min (by decide)]
  omega

/-- Settles O16: the prescale is the clamped quotient, and the clamp a maximum of a minimum. -/
theorem prescaleIsTheClampedQuotient : Obligations.PrescaleIsTheClampedQuotient := fun ip bus _ =>
  (computePrescale_toNat ip bus).trans (clamp_eq_max_min (by decide) _)

theorem distance_cast (a b : Nat) : (distance a b : Int) = |(a : Int) - b| := Int.natCast_natAbs _

/-- The exact check is the rational one, the division cleared (D7). -/
theorem toleranceFails_exact {d : Nat} (hd : 0 < d) (ip bus : Nat) :
    toleranceFails .exact ip bus d = true ↔ |(ip : ℚ) / d - bus| > (bus : ℚ) / 10 := by
  have hd' : (0 : ℚ) < d := Nat.cast_pos.2 hd
  have hdist : ((distance ip (bus * d) : Nat) : ℚ) = |(ip : ℚ) - bus * d| := by
    exact_mod_cast congrArg (Int.cast : Int → ℚ) (distance_cast ip (bus * d))
  have hdev : |(ip : ℚ) / d - bus| = |(ip : ℚ) - bus * d| / d := by
    rw [div_sub' hd'.ne', abs_div, abs_of_pos hd', mul_comm (d : ℚ)]
  calc toleranceFails .exact ip bus d = true
      ↔ ((bus * d : Nat) : ℚ) < ((10 * distance ip (bus * d) : Nat) : ℚ) := by
        rw [Nat.cast_lt, toleranceFails, decide_eq_true_iff]
    _ ↔ (bus : ℚ) * d < 10 * |(ip : ℚ) - bus * d| := by rw [← hdist]; push_cast; rfl
    _ ↔ (bus : ℚ) / 10 < |(ip : ℚ) - bus * d| / d := by
        rw [div_lt_div_iff₀ (by norm_num) hd', mul_comm (10 : ℚ)]
    _ ↔ |(ip : ℚ) / d - bus| > (bus : ℚ) / 10 := by rw [hdev]

theorem toleranceFails_truncating (ip bus d : Nat) :
    toleranceFails .truncating ip bus d = true ↔ |((ip / d : Nat) : Int) - bus| > ((bus / 10 : Nat) : Int) := by
  rw [toleranceFails, decide_eq_true_iff, ← distance_cast, gt_iff_lt, Nat.cast_lt]

theorem clockDivisor_pos (p : Prescale) : 0 < clockDivisor p := Nat.mul_pos (by decide) p.toNat.succ_pos

/-- Settles O17: both checks, at the divisor of the achieved clock. -/
theorem toleranceIsATenthOfTheTarget : Obligations.ToleranceIsATenthOfTheTarget := by
  intro ip bus p
  have hd : (clockDivisor p : ℚ) = 5 * ((p.toNat : ℚ) + 1) := by rw [clockDivisor]; push_cast; rfl
  exact ⟨hd ▸ toleranceFails_exact (clockDivisor_pos p) ip bus, toleranceFails_truncating ip bus _⟩

end Sys2Proof.Machine
end

section
/-! configure (41_clock_config.md R132 to R134): which configurations it takes, what a failing one leaves behind, and the accesses
of the bring-up sequence. -/

namespace Sys2Proof.Machine

/-! ### The choice -/

theorem widthOf_eq_none {n : Nat} : widthOf n = none ↔ n ∉ [1, 2, 4] := by
  unfold widthOf
  split <;> simp_all

theorem widthOf_bytes (w : Width) : widthOf w.bytes = some w := by cases w <;> rfl

/-- A configuration fails on its bus clock, its width or its tolerance (R131, R132). -/
theorem configChoice_none {arith : ClockArith} {cfg : Surface}
    (h : cfg.busClockKHz = 0 ∨ cfg.registerWidth ∉ [1, 2, 4]
      ∨ toleranceFails arith cfg.ipClockKHz cfg.busClockKHz
          (clockDivisor (computePrescale cfg.ipClockKHz cfg.busClockKHz)) = true) :
    configChoice arith cfg = none := by
  unfold configChoice
  rcases h with hbus | hwidth | htol
  · cases widthOf cfg.registerWidth <;> simp [hbus]
  · rw [widthOf_eq_none.2 hwidth]
  · cases widthOf cfg.registerWidth <;> simp [htol]

/-- Any other configuration passes, with its width and prescale. -/
theorem configChoice_some {arith : ClockArith} {cfg : Surface} {w : Width} (hbus : cfg.busClockKHz ≠ 0)
    (hw : w.bytes = cfg.registerWidth)
    (htol : toleranceFails arith cfg.ipClockKHz cfg.busClockKHz
      (clockDivisor (computePrescale cfg.ipClockKHz cfg.busClockKHz)) = false) :
    configChoice arith cfg = some (w, computePrescale cfg.ipClockKHz cfg.busClockKHz) := by
  simp [configChoice, ← hw, widthOf_bytes, hbus, htol]

/-! ### The calls -/

theorem exec_configure_fails {s : State} {cfg : Surface} (hconf : s.configured = false) (hfail : s.configureFailed = false)
    (hclaim : s.claim = .free) (hchoice : configChoice s.params.clockArith cfg = none) :
    exec (.configure cfg) s = .next { s with configureFailed := true, ret := .configured .configuration } := by
  simp [exec, execConfigure, hconf, hfail, hclaim, hchoice]

theorem exec_configure_bringsUp {s : State} {cfg : Surface} {w : Width} {p : Prescale} (hconf : s.configured = false)
    (hfail : s.configureFailed = false) (hclaim : s.claim = .free)
    (hchoice : configChoice s.params.clockArith cfg = some (w, p)) :
    exec (.configure cfg) s = conclude s (bringUp cfg w p s) := by
  simp [exec, execConfigure, hconf, hfail, hclaim, hchoice]

/-- Every configure after the first is refused (R134; log 14). -/
theorem exec_configure_again {s : State} (h : s.configured = true ∨ s.configureFailed = true) (cfg : Surface) :
    exec (.configure cfg) s = .refused .secondConfigure := by
  rcases h with h | h <;> simp [exec, execConfigure, h]

/-- No submit is accepted without a successful configure (R134, 44_adapters.md R200). -/
theorem exec_submit_unconfigured {s : State} (h : s.configured = false ∨ s.configureFailed = true) (l : MsgList) :
    exec (.submit l) s = .refused .notConfigured := by
  rcases h with h | h <;> simp [exec, execSubmit, h]

/-! ### A run of accesses in one configuration -/

/-- From `s` to `t`, at the trusted level and with the parameters and DeviceConfig standing, exactly the accesses `evs`. -/
structure TrustedRun (s t : State) (evs : List Event) : Prop where
  level : t.env.level = .oracle
  params : t.params = s.params
  dev : t.dev = s.dev
  accessed : Accessed s t evs

namespace TrustedRun

variable {s t : State} {evs : List Event}

theorem refl (h : s.env.level = .oracle) : TrustedRun s s [] := ⟨h, rfl, rfl, .refl s⟩

/-- The events of the run read the same in the configuration at its end. -/
theorem wEvent_eq (h : TrustedRun s t evs) (id : RegId) (v : Byte) : wEvent t id v = wEvent s id v := by
  rw [wEvent, wEvent, h.params, h.dev]

theorem cEvent_eq (h : TrustedRun s t evs) (c : Command) : cEvent t c = cEvent s c := by
  rw [cEvent, cEvent, h.wEvent_eq, h.params]

theorem readOf_iff (h : TrustedRun s t evs) {ev : Event} {id : RegId} {v : Byte} :
    ev.readOf t id v ↔ ev.readOf s id v := by
  rw [Event.readOf, Event.readOf, h.params, h.dev]

theorem getreg (h : TrustedRun s t evs) (id : RegId) :
    ∃ ev, ev.readOf s id (Machine.getreg id t).1 ∧ TrustedRun s (Machine.getreg id t).2 (evs ++ [ev]) := by
  obtain ⟨ev, hread, haccessed⟩ := getreg_accessed h.level id
  exact ⟨ev, h.readOf_iff.1 hread, haccessed.level.trans h.level, h.params, h.dev, h.accessed.trans haccessed⟩

theorem setreg (h : TrustedRun s t evs) (id : RegId) (v : Byte) :
    TrustedRun s (Machine.setreg id v t) (evs ++ [wEvent s id v]) :=
  ⟨(setreg_level id v t).trans h.level, h.params, h.dev, h.wEvent_eq id v ▸ h.accessed.trans (setreg_accessed h.level id v)⟩

theorem sendCmd (h : TrustedRun s t evs) (c : Command) : TrustedRun s (Machine.sendCmd c t) (evs ++ [cEvent s c]) := by
  rw [cEvent, ← h.params]
  exact h.setreg .cmd (t.params.cmdByte c)

end TrustedRun

/-! ### The bring-up sequence -/

/-- The writes of bring-up, after `ctrl` was read from CONTROL, in the configuration of `s` (R133). -/
def bringUpEvents (s : State) (ctrl : Byte) (p : Prescale) : List Event :=
  [wEvent s .control (s.params.disabled ctrl), wEvent s .prelow (lowByte p), wEvent s .prehigh (highByte p), cEvent s .iack,
    wEvent s .control (s.params.enabled (s.params.disabled ctrl))]

/-- Bring-up reads CONTROL once and makes its five writes, all under the DeviceConfig it sets (R133). -/
theorem bringUp_run {s : State} (h : s.env.level = .oracle) (cfg : Surface) (w : Width) (p : Prescale) :
    ∃ ev ctrl, ev.readOf (s.withConfig cfg w p) .control ctrl
      ∧ TrustedRun (s.withConfig cfg w p) (bringUp cfg w p s) (ev :: bringUpEvents (s.withConfig cfg w p) ctrl p) := by
  obtain ⟨ev, hread, hrun⟩ := (TrustedRun.refl (s := s.withConfig cfg w p) h).getreg .control
  let ctrl := (getreg .control (s.withConfig cfg w p)).1
  have hwrites := ((((hrun.setreg .control (s.params.disabled ctrl)).setreg .prelow (lowByte p)).setreg .prehigh
    (highByte p)).sendCmd .iack).setreg .control (s.params.enabled (s.params.disabled ctrl))
  exact ⟨ev, ctrl, hread, hwrites.level, hwrites.params, hwrites.dev, hwrites.accessed⟩

theorem bringUp_accessed {s : State} (h : s.env.level = .oracle) (cfg : Surface) (w : Width) (p : Prescale) :
    ∃ ev ctrl, ev.readOf (bringUp cfg w p s) .control ctrl
      ∧ Accessed s (bringUp cfg w p s) (ev :: bringUpEvents (bringUp cfg w p s) ctrl p) := by
  obtain ⟨ev, ctrl, hread, hrun⟩ := bringUp_run h cfg w p
  have hevents : bringUpEvents (bringUp cfg w p s) ctrl p = bringUpEvents (s.withConfig cfg w p) ctrl p := by
    simp only [bringUpEvents, hrun.wEvent_eq, hrun.cEvent_eq, hrun.params]
  exact ⟨ev, ctrl, hrun.readOf_iff.2 hread, hevents ▸ hrun.accessed⟩

/-- After the accesses of bring-up the engine holds the prescale (R96). -/
theorem prer_of_bringUpEvents {s t u : State} {ev : Event} {ctrl : Byte} {p : Prescale} (hread : ev.readOf u .control ctrl)
    (h : Accessed s t (ev :: bringUpEvents u ctrl p)) : t.env.eng.prer = p := by
  obtain ⟨bytes, rfl, -, -⟩ := hread
  rw [h]
  simp [bringUpEvents, cEvent, wEvent, Engine.stored]

/-- Settles O18: a configuration that the choice turns down fails for good, any other makes the accesses of bring-up. -/
theorem configureBringsUp : Obligations.ConfigureBringsUp := by
  intro s cfg hconf hfail hclaim
  refine ⟨fun hbad => ⟨exec_configure_fails hconf hfail hclaim (configChoice_none hbad), fun cfg' l =>
      ⟨exec_configure_again (.inr rfl) cfg', exec_submit_unconfigured (.inr rfl) l⟩⟩, fun w hlevel hbus hwidth htol => ?_⟩
  obtain ⟨ev, ctrl, hread, haccessed⟩ :=
    bringUp_accessed hlevel cfg w (computePrescale cfg.ipClockKHz cfg.busClockKHz)
  have hexec := exec_configure_bringsUp hconf hfail hclaim (configChoice_some hbus hwidth htol)
  rw [conclude_trusted hlevel] at hexec
  exact ⟨_, ev, ctrl, hexec, hread, rfl, haccessed, prer_of_bringUpEvents hread haccessed⟩

end Sys2Proof.Machine
end

section
/-! The reference engine behind one access (42_commands.md R150 to R157): a read or write called directly sees the engine after
the environment's batch of moves, and each reaction of the engine is said once. -/

namespace Sys2Proof.Machine

/-! ### The environment before an access -/

theorem advance_of_still {e : Env} (h : e.moves = []) : e.advance = e := by
  unfold Env.advance
  split
  · rfl
  · rw [h]

theorem advance_of_one_move {e : Env} {m : EnvMove} {rest : List (List EnvMove)} (hlevel : e.level = .reference)
    (h : e.moves = [m] :: rest) : e.advance = Env.applyMove { e with moves := rest } m := by
  simp [Env.advance, hlevel, h]

/-! ### A read -/

/-- A read answers the engine's register, and leaves the engine and the target as the environment's moves left them (R151). -/
theorem read_reference {e : Env} (h : e.level = .reference) (p : Params) (d : DeviceConfig) (id : RegId) :
    (e.read p d id).1 = e.advance.eng.read p id ∧ (e.read p d id).2.eng = e.advance.eng
      ∧ (e.read p d id).2.target = e.advance.target := by
  obtain ⟨-, -, hlevel, -⟩ := advance_keeps e
  obtain ⟨hbyte, henv⟩ := ioRead_reference (hlevel.trans h) p d id
  refine ⟨hbyte, ?_, ?_⟩ <;> simp only [Env.read, Env.record] <;> rw [henv]

/-- A getreg call is a run with a meaning: no read is refused. -/
theorem exec_getreg_reference {s : State} (hlevel : s.env.level = .reference) (hrefusal : s.env.refusal = none) (id : RegId) :
    ∃ t, exec (.getreg id) s = .next t ∧ t.ret = .byte (s.env.advance.eng.read s.params id)
      ∧ t.env.eng = s.env.advance.eng ∧ t.env.target = s.env.advance.target := by
  obtain ⟨-, -, -, hkeeps⟩ := read_keeps s.params s.dev id s.env
  obtain ⟨hbyte, heng, htarget⟩ := read_reference hlevel s.params s.dev id
  exact ⟨_, conclude_accepted (.inr (hkeeps.trans hrefusal)), congrArg Ret.byte hbyte, heng, htarget⟩

/-- Settles O12: with no move before it, the read answers the engine's register as it stands. -/
theorem referenceReads : Obligations.ReferenceReads := by
  intro s id hlevel hrefusal hmoves
  obtain ⟨t, hexec, hret, heng, -⟩ := exec_getreg_reference hlevel hrefusal id
  rw [advance_of_still hmoves] at hret heng
  refine ⟨t, hexec, heng, hret.trans ?_⟩
  cases id <;> rfl

/-! ### A write -/

theorem write_of_still {e : Env} (h : e.moves = []) (p : Params) (d : DeviceConfig) (id : RegId) (v : Byte) :
    e.write p d id v = (e.record (.write id (regOffset p d id) (marshal v d.registerWidth d.endianness) v)).store p id v := by
  rw [Env.write, advance_of_still h]

section
variable {s t : State} {id : RegId} {v : Byte} {eng : Engine}

/-- A call whose access is one write that the engine takes. -/
theorem conclude_write (hmoves : s.env.moves = []) (hrefusal : s.env.refusal = none)
    (ht : t.env = s.env.write s.params s.dev id v)
    (hstore : (s.env.record (wEvent s id v)).store s.params id v = { s.env.record (wEvent s id v) with eng := eng }) :
    ∃ t', conclude s t = .next t' ∧ t'.env.eng = eng := by
  have henv := (ht.trans (write_of_still hmoves _ _ id v)).trans hstore
  exact ⟨t, conclude_accepted (.inr (henv ▸ hrefusal)), henv ▸ rfl⟩

/-- A call whose access is one write that the engine refuses. -/
theorem conclude_write_refused {why : EngineRefusal} (hlevel : s.env.level = .reference) (hmoves : s.env.moves = [])
    (hrefusal : s.env.refusal = none) (ht : t.env = s.env.write s.params s.dev id v)
    (hstore : (s.env.record (wEvent s id v)).store s.params id v
      = { s.env.record (wEvent s id v) with eng := eng }.refuse why) : conclude s t = .refused (.engine why) := by
  have henv := (ht.trans (write_of_still hmoves _ _ id v)).trans hstore
  simp [conclude, hlevel, henv, Env.refuse, Env.record, hrefusal]

end

/-! ### CONTROL and COMMAND -/

section
variable {p : Params} {e : Env} {b : Byte}

/-- EN cleared over a command in flight is the one write to CONTROL that is refused (R163). -/
theorem store_control_disabling (hlevel : e.level = .reference)
    (h : e.eng.inflight ≠ none ∧ isSet e.eng.ctr p.ctrlEn = true ∧ isSet b p.ctrlEn = false) :
    e.store p .control b = { e with eng := { e.eng with ctr := b } }.refuse .disabledInFlight := by
  simp [Env.store, Env.writeControl, hlevel, Option.isSome_iff_ne_none, h]

theorem store_control_plain (hlevel : e.level = .reference)
    (h : ¬(e.eng.inflight ≠ none ∧ isSet e.eng.ctr p.ctrlEn = true ∧ isSet b p.ctrlEn = false)) :
    e.store p .control b = { e with eng := { e.eng with ctr := b } } := by
  have hguard : (e.eng.inflight.isSome && isSet e.eng.ctr p.ctrlEn && !isSet b p.ctrlEn) = false := by
    rw [← Bool.not_eq_true]
    simpa [Option.isSome_iff_ne_none, and_assoc] using h
  simp [Env.store, Env.writeControl, hlevel, hguard]

theorem store_cmd_disabled (hlevel : e.level = .reference) (hen : isSet e.eng.ctr p.ctrlEn = false) :
    e.store p .cmd b = e := by
  simp [Env.store, Env.command, hlevel, hen]

theorem store_cmd_unknown (hlevel : e.level = .reference) (hen : isSet e.eng.ctr p.ctrlEn = true)
    (hb : p.commandOf b = none) : e.store p .cmd b = e.refuse .unknownCommand := by
  simp [Env.store, Env.command, hlevel, hen, hb]

theorem action_iff (c : Command) : c.action = true ↔ c ≠ .iack := by cases c <;> decide

theorem store_cmd_inFlight (hlevel : e.level = .reference) (hen : isSet e.eng.ctr p.ctrlEn = true) {c : Command}
    (hb : p.commandOf b = some c) (h : c ≠ .iack ∧ e.eng.inflight ≠ none) :
    e.store p .cmd b = e.refuse .commandInFlight := by
  simp [Env.store, Env.command, hlevel, hen, hb, action_iff, Option.isSome_iff_ne_none, h]

theorem store_cmd_accepted (hlevel : e.level = .reference) (hen : isSet e.eng.ctr p.ctrlEn = true) {c : Command}
    (hb : p.commandOf b = some c) (h : ¬(c ≠ .iack ∧ e.eng.inflight ≠ none)) :
    e.store p .cmd b = { e with eng := e.eng.accept p c } := by
  have hguard : (c.action && e.eng.inflight.isSome) = false := by
    rw [← Bool.not_eq_true]
    simpa [action_iff, Option.isSome_iff_ne_none] using h
  simp [Env.store, Env.command, hlevel, hen, hb, hguard]

end

/-- The reaction to a command, by its name (R152). -/
theorem accept_eq (p : Params) (c : Command) (e : Engine) : e.accept p c = { e with
    ifl := false
    al := if p.iackClearsAl = true ∨ c = .start then false else e.al
    inflight := if c = .iack then e.inflight else some c
    tip := if c = .stop ∨ c = .iack then e.tip else true
    busy := if c = .start ∨ c = .recover then true else e.busy
    otherMaster := if c = .start ∨ c = .recover then false else e.otherMaster } := by
  cases c <;> simp [Engine.accept, Command.sta, Command.rd, Command.wr, Command.action]

/-- Settles O13: the four registers that store, then COMMAND by whether the engine is enabled, knows the byte and is free. -/
theorem referenceWrites : Obligations.ReferenceWrites := by
  intro s hlevel hrefusal hmoves hlegal
  refine ⟨fun v => conclude_write (id := .prelow) hmoves hrefusal rfl rfl,
    fun v => conclude_write (id := .prehigh) hmoves hrefusal rfl rfl,
    fun v => conclude_write (id := .data) hmoves hrefusal rfl rfl, fun v => ?_, fun hen b => ?_,
    fun hen => ⟨fun b hb => ?_, fun c => ?_⟩⟩
  · split
    · next h => exact conclude_write_refused hlevel hmoves hrefusal rfl (store_control_disabling hlevel h)
    · next h => exact conclude_write hmoves hrefusal rfl (store_control_plain hlevel h)
  · exact conclude_write hmoves hrefusal rfl (store_cmd_disabled hlevel hen)
  · have hnone : s.params.commandOf b = none :=
      Option.eq_none_iff_forall_ne_some.2 fun c hc => hb c ((Params.commandOf_eq_some_iff hlegal b c).1 hc)
    exact conclude_write_refused hlevel hmoves hrefusal rfl (store_cmd_unknown hlevel hen hnone)
  · have hc : s.params.commandOf (s.params.cmdByte c) = some c := (Params.commandOf_eq_some_iff hlegal _ c).2 rfl
    rw [exec_commandInstr, ← accept_eq]
    split
    · next h => exact conclude_write_refused hlevel hmoves hrefusal rfl (store_cmd_inFlight hlevel hen hc h)
    · next h => exact conclude_write hmoves hrefusal rfl (store_cmd_accepted (e := s.env.record _) hlevel hen hc h)

/-! ### The moves of the environment -/

/-- What the next access sees after one move: the engine and the target as the move leaves them. -/
theorem exec_getreg_after_move {s : State} {m : EnvMove} {rest : List (List EnvMove)} (hlevel : s.env.level = .reference)
    (hrefusal : s.env.refusal = none) (hmoves : s.env.moves = [m] :: rest) (id : RegId) :
    ∃ t, exec (.getreg id) s = .next t ∧ t.env.eng = (Env.applyMove { s.env with moves := rest } m).eng
      ∧ t.env.target = (Env.applyMove { s.env with moves := rest } m).target := by
  obtain ⟨t, hexec, -, heng, htarget⟩ := exec_getreg_reference hlevel hrefusal id
  rw [advance_of_one_move hlevel hmoves] at heng htarget
  exact ⟨t, hexec, heng, htarget⟩

/-- The effect of a command on its completion, by its name (R153). -/
theorem complete_eq (c : Command) (ack : Bool) (rx : Byte) (e : Engine) : e.complete c ack rx = { e with
    rxack := (match c with
      | .start => !ack | .write => !ack | .readAck => false | .readNack => true | .recover => false
      | .stop => e.rxack | .iack => e.rxack)
    rxr := if c = .readAck ∨ c = .readNack ∨ c = .recover then rx else e.rxr
    busy := if c = .stop ∨ c = .recover then false else e.busy
    tip := false
    ifl := true
    inflight := none } := by
  cases c <;> simp [Engine.complete]

/-- Settles O14: each of the three moves is enabled, and the next read sees its effect. -/
theorem referenceEnvironmentMoves : Obligations.ReferenceEnvironmentMoves := by
  intro s rest hlevel hrefusal
  refine ⟨fun c ack rx hc hmoves => ?_, fun hflight hmoves => ?_, fun hother hmoves => ?_⟩ <;>
    obtain ⟨t, hexec, heng, -⟩ := exec_getreg_after_move hlevel hrefusal hmoves .cmd <;>
    refine ⟨t, hexec, heng.trans ?_⟩
  · simp only [Env.applyMove, hc]
    exact complete_eq c ack rx s.env.eng
  · obtain ⟨c, hc⟩ := Option.ne_none_iff_exists'.1 hflight
    simp only [Env.applyMove, hc, Engine.lose]
  · simp [Env.applyMove, Engine.release, hother]

/-! ### The simulated target -/

/-- An address byte is acknowledged by its own target alone. -/
theorem targetAck_start {txr : Byte} {target : Option Target} : (targetAck .start txr target).1 = true
    ↔ ∃ tg, target = some tg ∧ (txr.toNat = 2 * tg.addr ∨ txr.toNat = 2 * tg.addr + 1) := by
  cases target with
  | none => simp [targetAck]
  | some tg =>
    have hhalf : txr.toNat / 2 = tg.addr ↔ txr.toNat = 2 * tg.addr ∨ txr.toNat = 2 * tg.addr + 1 := by omega
    simp [targetAck, Command.sta, Target.addressed, hhalf]

/-- A data byte is acknowledged by a selected target that has an acknowledge left (log 18). -/
theorem targetAck_write {txr : Byte} {target : Option Target} : (targetAck .write txr target).1 = true
    ↔ ∃ tg, target = some tg ∧ tg.selected = true ∧ tg.acksLeft ≠ some 0 := by
  cases target with
  | none => simp [targetAck]
  | some tg => cases h : tg.acksLeft <;> simp [targetAck, Command.sta, Target.dataAck, h, Nat.pos_iff_ne_zero]

theorem targetByte_unselected {target : Option Target} (h : ∀ tg, target = some tg → tg.selected = false) :
    (targetByte target).1 = 0xFF := by
  cases target with
  | none => rfl
  | some tg => simp [targetByte, h tg rfl]

theorem targetByte_selected {tg : Target} {b : Byte} {out : List Byte} (hsel : tg.selected = true) (hout : tg.out = b :: out) :
    targetByte (some tg) = (b, some { tg with out := out }) := by
  simp [targetByte, hsel, hout]

/-- A byte out completes with the target's acknowledge. -/
theorem completeByTarget_sends {e : Env} {c : Command} (hc : e.eng.inflight = some c) (h : c = .start ∨ c = .write) :
    (e.applyMove .completeByTarget).eng.rxack = !(targetAck c e.eng.txr e.target).1 := by
  rcases h with rfl | rfl <;> simp [Env.applyMove, hc, Command.wr, complete_eq]

/-- A byte in completes with the target's byte, and the target has sent it. -/
theorem completeByTarget_receives {e : Env} (h : e.eng.inflight = some .readAck ∨ e.eng.inflight = some .readNack) :
    (e.applyMove .completeByTarget).eng.rxr = (targetByte e.target).1
      ∧ (e.applyMove .completeByTarget).target = (targetByte e.target).2 := by
  rcases h with h | h <;> simp [Env.applyMove, h, Command.wr, Command.rd, Command.sto, complete_eq]

/-- Settles O15: the command in flight completes with what the target answers it. -/
theorem simulatedTargetAnswers : Obligations.SimulatedTargetAnswers := by
  intro s rest hlevel hrefusal hmoves
  obtain ⟨t, hexec, heng, htarget⟩ := exec_getreg_after_move hlevel hrefusal hmoves .cmd
  refine ⟨fun hc => ⟨t, hexec, ?_⟩, fun hc => ⟨t, hexec, ?_⟩, fun hc => ⟨t, hexec, fun hnone => ?_,
    fun tg b out htg hsel hout => ?_⟩⟩
  · have hrxack := completeByTarget_sends (e := { s.env with moves := rest }) hc (.inl rfl)
    rw [heng, hrxack, Bool.not_eq_false', targetAck_start]
  · have hrxack := completeByTarget_sends (e := { s.env with moves := rest }) hc (.inr rfl)
    rw [heng, hrxack, Bool.not_eq_false', targetAck_write]
  · obtain ⟨hrxr, -⟩ := completeByTarget_receives (e := { s.env with moves := rest }) hc
    rw [heng, hrxr, targetByte_unselected hnone]
  · obtain ⟨hrxr, hleft⟩ := completeByTarget_receives (e := { s.env with moves := rest }) hc
    rw [heng, htarget, hrxr, hleft, htg, targetByte_selected hsel hout]
    exact ⟨rfl, rfl⟩

end Sys2Proof.Machine
end

section
/-! A step of the sequencer at the trusted level, branch by branch (43_sequencer.md R178 to R184): which branch of `event` a
step takes, and what the branches that fail access. -/

namespace Sys2Proof.Machine

theorem Phase.terminal_iff {p : Phase} : p.terminal = true ↔ p = .done ∨ p = .error := by
  cases p <;> simp [Phase.terminal]

theorem Phase.not_terminal {p : Phase} (hdone : p ≠ .done) (herror : p ≠ .error) : p.terminal = false := by
  rw [Bool.eq_false_iff, ne_eq, Phase.terminal_iff, not_or]
  exact ⟨hdone, herror⟩

theorem Phase.sending {p : Phase} (h : p = .start ∨ p = .write) : p.terminal = false ∧ p ≠ .read := by
  rcases h with rfl | rfl <;> simp [Phase.terminal]

/-! ### The branches -/

theorem seqStep_terminal {s : State} (h : s.phase.terminal = true) :
    seqStep s = (.terminal, { sendCmd .iack (getreg .cmd s).2 with completion := true }) := if_pos h

theorem seqStep_running {s : State} (h : s.phase.terminal = false) :
    seqStep s = (.goesOn, event (statusRead s) (getreg .cmd s).2) := if_neg (by simp [h])

section

variable {s : State} {m : Message} {stat : Byte}

/-- The bound list after a change of its current message. -/
theorem modifyCurrent_eq (hc : s.current = some m) (f : Message → Message) :
    s.modifyCurrent f = { s with msgs := some (s.list.set s.cursor (f m)) } := by
  obtain ⟨l, hl, hm⟩ := msgs_of_current hc
  simp [State.modifyCurrent, State.list, hl, modify_eq_set hm]

theorem event_arbitrationLost (hal : s.params.al stat = true) : event stat s = fail .arbitration s := if_pos hal

theorem event_noMessage (hal : s.params.al stat = false) (hc : s.current = none) : event stat s = fail .parameter s := by
  simp [event, hal, hc]

theorem event_noBuffer (hal : s.params.al stat = false) (hc : s.current = some m) (hbuf : m.buf = none) :
    event stat s = fail .parameter s := by simp [event, hal, hc, hbuf]

theorem event_read (hal : s.params.al stat = false) (hc : s.current = some m) (hbuf : m.buf ≠ none)
    (hread : s.phase = .read) : event stat s = receive m (getreg .data s).1 (getreg .data s).2 := by
  simp [event, hal, hc, hbuf, hread]

theorem event_send (hal : s.params.al stat = false) (hc : s.current = some m) (hbuf : m.buf ≠ none)
    (hread : s.phase ≠ .read) : event stat s = acknowledge m stat s := by
  simp [event, hal, hc, hbuf, hread]

/-- Byte 0 of a length-prefixed message is no legal length: it is stored and counted all the same (R183, R184). -/
theorem receive_badLength {b : Byte} (hc : s.current = some m) (hrecvlen : m.recvlen = true) (hpos : s.position = 0)
    (hb : b.toNat < 1 ∨ Config.blockMax < b.toNat) :
    receive m b s = fail .blockLength { s with msgs := some (s.list.set s.cursor (m.storeByte 0 b)), position := 1 } := by
  unfold receive
  dsimp only
  rw [hpos, if_pos ⟨hrecvlen, rfl⟩, if_pos hb, modifyCurrent_eq hc]

end

/-! ### The accesses of a step at the trusted level -/

theorem exec_step {s : State} (h : s.env.level = .oracle) :
    exec .step s = .next ((seqStep s).2.returns (.mark (seqStep s).1)) := conclude_trusted h _

/-- The STATUS read a step begins with (R178). -/
theorem statusRead_run {s : State} (h : s.env.level = .oracle) :
    ∃ ev, ev.readOf s .cmd (statusRead s) ∧ TrustedRun s (getreg .cmd s).2 [ev] := (TrustedRun.refl h).getreg .cmd

/-- The two reads of a step that takes a byte (R178, R183). -/
theorem dataRead_run {s : State} (h : s.env.level = .oracle) :
    ∃ e1 e2, e1.readOf s .cmd (statusRead s) ∧ e2.readOf s .data (dataRead s)
      ∧ TrustedRun s (getreg .data (getreg .cmd s).2).2 [e1, e2] := by
  obtain ⟨e1, hstatus, hrun⟩ := statusRead_run h
  obtain ⟨e2, hdata, hrun'⟩ := hrun.getreg .data
  exact ⟨e1, e2, hstatus, hdata, hrun'⟩

/-- A run looks at the parameters, DeviceConfig and the environment alone. -/
theorem TrustedRun.congr {s t u : State} {evs : List Event} (h : TrustedRun s t evs) (hp : u.params = t.params)
    (hd : u.dev = t.dev) (he : u.env = t.env) : TrustedRun s u evs := by
  obtain ⟨hlevel, hparams, hdev, haccessed⟩ := h
  unfold Accessed at haccessed
  rw [← he] at hlevel haccessed
  exact ⟨hlevel, hp.trans hparams, hd.trans hdev, haccessed⟩

/-- An error writes one STOP (60_exceptions.md R266). -/
theorem TrustedRun.fail {s t : State} {evs : List Event} (h : TrustedRun s t evs) (e : Err) :
    TrustedRun s (Machine.fail e t) (evs ++ [cEvent s .stop]) := (h.sendCmd .stop).congr rfl rfl rfl

theorem TrustedRun.returns {s t : State} {evs : List Event} (h : TrustedRun s t evs) (r : Ret) :
    TrustedRun s (t.returns r) evs := h.congr rfl rfl rfl

/-- A step whose event fails before it takes a byte: ERROR, the error class, one STOP, completion (R266). -/
theorem exec_step_fails {s : State} {e : Err} (h : s.env.level = .oracle) (hphase : s.phase.terminal = false)
    (hevent : event (statusRead s) (getreg .cmd s).2 = fail e (getreg .cmd s).2) :
    ∃ t ev, exec .step s = .next t ∧ ev.readOf s .cmd (statusRead s) ∧ Accessed s t [ev, cEvent s .stop]
      ∧ t = { s with phase := .error, err := e, completion := true, ret := .mark .goesOn, env := t.env } := by
  obtain ⟨ev, hread, hrun⟩ := statusRead_run h
  refine ⟨_, ev, exec_step h, hread, ?_, ?_⟩ <;> rw [seqStep_running hphase, hevent]
  · exact ((hrun.fail e).returns _).accessed
  · rfl

/-- Settles O20: the terminal branch of `process`, after its STATUS read. -/
theorem stepInTerminalState : Obligations.StepInTerminalState := by
  intro s h hphase
  obtain ⟨ev, hread, hrun⟩ := statusRead_run h
  refine ⟨_, ev, exec_step h, hread, ?_, ?_⟩ <;> rw [seqStep_terminal (Phase.terminal_iff.2 hphase)]
  · exact (hrun.sendCmd .iack).accessed
  · rfl

/-- Settles O21: arbitration lost is tested before anything else. -/
theorem stepSeesArbitrationLost : Obligations.StepSeesArbitrationLost := fun _ h hdone herror hal =>
  exec_step_fails h (Phase.not_terminal hdone herror) (event_arbitrationLost hal)

/-- Settles O22: no list means no current message, and a message may lack its buffer. -/
theorem stepFindsTheListMalformed : Obligations.StepFindsTheListMalformed := by
  intro s h hdone herror hal hmissing
  refine exec_step_fails h (Phase.not_terminal hdone herror) ?_
  rcases hmissing with hmsgs | ⟨m, hc, hbuf⟩
  · exact event_noMessage hal (show s.current = none by simp [State.current, State.msgAt, State.list, hmsgs])
  · exact event_noBuffer hal hc hbuf

/-- Settles O23: the acknowledge test comes after the list's. -/
theorem stepIsNotAcknowledged : Obligations.StepIsNotAcknowledged := by
  intro s m h hphase hal hc hbuf hnack
  obtain ⟨hrunning, hsending⟩ := Phase.sending hphase
  refine exec_step_fails h hrunning ((event_send (s := (getreg .cmd s).2) hal hc hbuf hsending).trans ?_)
  exact if_pos hnack

/-- Settles O24: byte 0 is stored and counted before its value is tested. -/
theorem stepRefusesABlockLength : Obligations.StepRefusesABlockLength := by
  intro s m h hread hal hc hbuf hrecvlen hpos hb
  obtain ⟨e1, e2, hstatus, hdata, hrun⟩ := dataRead_run h
  let v := (getreg .data (getreg .cmd s).2).2
  let u : State := { v with msgs := some (s.list.set s.cursor (m.storeByte 0 (dataRead s))), position := 1 }
  have hevent : event (statusRead s) (getreg .cmd s).2 = fail .blockLength u :=
    (event_read (s := (getreg .cmd s).2) hal hc hbuf hread).trans (receive_badLength (s := v) hc hrecvlen hpos hb)
  have hstored : TrustedRun s u [e1, e2] := hrun.congr rfl rfl rfl
  refine ⟨_, e1, e2, exec_step h, hstatus, hdata, ?_, ?_⟩ <;>
    rw [seqStep_running (by simp [hread, Phase.terminal]), hevent]
  · exact ((hstored.fail .blockLength).returns _).accessed
  · rfl

end Sys2Proof.Machine
end

section
/-! The tail of a step whose event passed every test (43_sequencer.md R185 to R190): `Taken` names the state it starts from, and
each case of the tail is one equation of `stepTail`. -/

namespace Sys2Proof.Machine

/-! ### The cases of the tail -/

theorem issue_read (m : Message) {s : State} (h : s.phase = .read) : issue m s = sendCmd (readCommand m s.position) s :=
  (if_pos h).trans (issueRead_eq m s)

theorem issue_write (m : Message) {s : State} (h : s.phase ≠ .read) : issue m s = issueWrite m s := if_neg h

/-- A write byte: to DATA, then WRITE (R190). -/
theorem issue_writes {s : State} (h : s.env.level = .oracle) (m : Message) (hphase : s.phase ≠ .read) :
    ∃ b, (∀ b', m.byteAt s.position = some b' → b = b') ∧ Accessed s (issue m s) [wEvent s .data b, cEvent s .write]
      ∧ issue m s = { s with position := s.position + 1, env := (issue m s).env } := by
  rw [issue_write m hphase]
  exact issueWrite_accessed h m

theorem dirPhase_of_read {m : Message} (h : m.rd = true) : m.dirPhase = .read := if_pos h

theorem dirPhase_of_write {m : Message} (h : m.rd = false) : m.dirPhase = .write := if_neg (by simp [h])

section

variable {u : State} {m next : Message}

theorem stepTail_within (hc : u.current = some m) (hpos : u.position ≠ m.len) : stepTail u = issue m u := by
  simp [stepTail, hc, hpos]

theorem stepTail_atEnd (hc : u.current = some m) (hpos : u.position = m.len) :
    stepTail u = nextMessage { u with cursor := u.cursor + 1, position := 0 } := by simp [stepTail, hc, hpos]

/-- The queue is exhausted (R186). -/
theorem stepTail_last (hc : u.current = some m) (hpos : u.position = m.len) (hlast : u.msgAt (u.cursor + 1) = none) :
    stepTail u
      = { sendCmd .stop { u with cursor := u.cursor + 1, position := 0, phase := .done } with completion := true } := by
  have hcur : ({ u with cursor := u.cursor + 1, position := 0 } : State).current = none := hlast
  rw [stepTail_atEnd hc hpos, nextMessage, hcur]

/-- The next message needs a START (R187). -/
theorem stepTail_start (hc : u.current = some m) (hpos : u.position = m.len) (hnext : u.msgAt (u.cursor + 1) = some next)
    (hstart : next.nostart = false) :
    stepTail u = sendAddress next { u with cursor := u.cursor + 1, position := 0, phase := .start } := by
  have hcur : ({ u with cursor := u.cursor + 1, position := 0 } : State).current = some next := hnext
  rw [stepTail_atEnd hc hpos, nextMessage, hcur]
  exact if_neg (by simp [hstart])

/-- The next message goes on without one (R188). -/
theorem stepTail_nostart (hc : u.current = some m) (hpos : u.position = m.len)
    (hnext : u.msgAt (u.cursor + 1) = some next) (hnostart : next.nostart = true) :
    stepTail u = issue next { u with cursor := u.cursor + 1, position := 0, phase := next.dirPhase } := by
  have hcur : ({ u with cursor := u.cursor + 1, position := 0 } : State).current = some next := hnext
  rw [stepTail_atEnd hc hpos, nextMessage, hcur]
  exact if_pos hnostart

end

/-! ### A step whose event was taken -/

section

variable {s u : State} {m : Message}

theorem exec_step_taken (h : s.env.level = .oracle) (ht : Taken s m u) :
    exec .step s = .next ((stepTail u).returns (.mark .goesOn)) := by rw [exec_step h, taken_seqStep ht]

/-- The run of accesses that starts after the reads of the step. -/
theorem taken_run (h : s.env.level = .oracle) (ht : Taken s m u) : TrustedRun u u [] :=
  have hkeeps := taken_keeps ht
  .refl (hkeeps.2.2.trans h)

/-- Events read the same in the configurations before and after the reads of the step. -/
theorem taken_wEvent (ht : Taken s m u) (id : RegId) (v : Byte) : wEvent u id v = wEvent s id v := by
  obtain ⟨hp, hd, -⟩ := taken_keeps ht
  rw [wEvent, wEvent, hp, hd]

theorem taken_cEvent (ht : Taken s m u) (c : Command) : cEvent u c = cEvent s c := by
  obtain ⟨hp, -, -⟩ := taken_keeps ht
  rw [cEvent, cEvent, taken_wEvent ht, hp]

/-- After the reads of the step, one command. -/
theorem taken_command (h : s.env.level = .oracle) (ht : Taken s m u) {v : State} (hp : v.params = u.params)
    (hd : v.dev = u.dev) (he : v.env = u.env) (c : Command) : Accessed u (sendCmd c v) [cEvent s c] :=
  taken_cEvent ht c ▸ (((taken_run h ht).congr hp hd he).sendCmd c).accessed

end

/-- Settles O25: the message after the last one does not exist. -/
theorem stepEndsTheList : Obligations.StepEndsTheList := by
  intro s m u m' h ht hc hpos hlast
  have htail := stepTail_last hc hpos hlast
  refine ⟨_, exec_step_taken h ht, ?_, ?_⟩ <;> rw [htail]
  · exact taken_command h ht rfl rfl rfl .stop
  · rfl

/-- Settles O26: the next message's address byte, then START. -/
theorem stepStartsTheNextMessage : Obligations.StepStartsTheNextMessage := by
  intro s m u m' next h ht hc hpos hnext hstart
  have htail := stepTail_start hc hpos hnext hstart
  have hmoved : TrustedRun u { u with cursor := u.cursor + 1, position := 0, phase := .start } [] :=
    (taken_run h ht).congr rfl rfl rfl
  have haddress := (hmoved.setreg .data (addrByte next)).sendCmd .start
  rw [taken_wEvent ht, taken_cEvent ht] at haddress
  refine ⟨_, exec_step_taken h ht, ?_, ?_⟩ <;> rw [htail]
  · exact (haddress.returns _).accessed
  · rfl

/-- Settles O27: the cursor has moved on, and byte 0 of the next message is issued by its direction. -/
theorem stepContinuesWithoutStart : Obligations.StepContinuesWithoutStart := by
  intro s m u m' next h ht hc hpos hnext hnostart
  have htail := stepTail_nostart hc hpos hnext hnostart
  refine ⟨fun hrd => ?_, fun hrd => ?_⟩
  · rw [dirPhase_of_read hrd, issue_read next rfl] at htail
    refine ⟨_, exec_step_taken h ht, ?_, ?_⟩ <;> rw [htail]
    · exact taken_command h ht rfl rfl rfl _
    · rfl
  · rw [dirPhase_of_write hrd] at htail
    obtain ⟨b, hb, haccessed, hissued⟩ := issue_writes
      (s := { u with cursor := u.cursor + 1, position := 0, phase := .write }) (taken_run h ht).level next (by simp)
    refine ⟨_, b, exec_step_taken h ht, hb, ?_, ?_⟩ <;> rw [htail]
    · exact taken_wEvent ht .data b ▸ taken_cEvent ht .write ▸ haccessed
    · exact congrArg (State.returns · (.mark .goesOn)) hissued

/-- Settles O28: a read in progress issues the command `readCommand` names. -/
theorem stepAsksForTheNextByte : Obligations.StepAsksForTheNextByte := by
  intro s m u m' h ht hc hpos hread
  have htail : stepTail u = sendCmd (readCommand m' u.position) u :=
    (stepTail_within hc hpos).trans (issue_read m' hread)
  refine ⟨_, exec_step_taken h ht, ?_, ?_⟩ <;> rw [htail]
  · rfl
  · exact taken_command h ht rfl rfl rfl _

/-- Settles O29: a write in progress issues its next byte. -/
theorem stepSendsTheNextByte : Obligations.StepSendsTheNextByte := by
  intro s m u m' h ht hc hpos hwrite
  obtain ⟨b, hb, haccessed, hissued⟩ := issue_writes (taken_run h ht).level m' (by simp [hwrite])
  refine ⟨_, b, exec_step_taken h ht, hb, ?_, ?_⟩ <;> rw [stepTail_within hc hpos]
  · exact taken_wEvent ht .data b ▸ taken_cEvent ht .write ▸ haccessed
  · exact congrArg (State.returns · (.mark .goesOn)) hissued

end Sys2Proof.Machine
end

section
/-! What a step of the sequencer accesses, at both levels (43_sequencer.md R178, R193): its reads first, then at most one byte to
DATA, then one command. `Sends` says it of a stretch without a read, `Ends` also how the stretch leaves State. -/

namespace Sys2Proof.Machine

/-! ### A stretch that ends in its one command -/

/-- From `s` to `t` at most one byte was written to DATA, then the command `c`, and no time passed. -/
def Sends (c : Command) (s t : State) : Prop :=
  t.env.now = s.env.now ∧
    ∃ ws, (ws = [] ∨ ∃ b, ws = [wEvent s .data b]) ∧ t.env.trace = s.env.trace ++ (ws ++ [cEvent s c])

/-- The stretch ends with State terminal and a STOP, or with State not terminal and a byte-moving command (R193). -/
def Ends (s t : State) : Prop :=
  ∃ c, Sends c s t ∧ (t.phase.terminal = true ∧ c = .stop
    ∨ t.phase.terminal = false ∧ c ∈ [.start, .write, .readAck, .readNack])

theorem sendCmd_sends (c : Command) (s : State) : Sends c s (sendCmd c s) :=
  ⟨sendCmd_now c s, [], .inl rfl, sendCmd_trace c s⟩

theorem data_sends (c : Command) (b : Byte) (s : State) : Sends c s (sendCmd c (setreg .data b s)) := by
  refine ⟨by simp, [wEvent s .data b], .inr ⟨b, rfl⟩, ?_⟩
  rw [sendCmd_trace, setreg_trace, List.append_assoc]
  rfl

theorem fail_ends (e : Err) (s : State) : Ends s (fail e s) :=
  ⟨.stop, sendCmd_sends .stop { s with phase := .error, err := e }, .inl ⟨rfl, rfl⟩⟩

theorem readCommand_mem (m : Message) (i : Nat) : readCommand m i ∈ [Command.start, .write, .readAck, .readNack] := by
  unfold readCommand
  split <;> simp

/-- A buffer byte that is not there costs a free value, and no access. -/
theorem issueWrite_sends (m : Message) (s : State) : Sends .write s (issueWrite m s) := by
  have hread := readBuf_shape m s.position s
  unfold issueWrite
  dsimp only
  generalize (readBuf m s.position s).1 = b, (readBuf m s.position s).2 = u at hread
  rw [hread]
  exact data_sends .write b
    { s with position := s.position + 1, env := { s.env with answers := u.env.answers, draws := u.env.draws } }

theorem issue_ends (m : Message) {s : State} (h : s.phase.terminal = false) : Ends s (issue m s) := by
  unfold issue
  split
  · rw [issueRead_eq]
    exact ⟨_, sendCmd_sends _ s, .inr ⟨h, readCommand_mem m s.position⟩⟩
  · have hphase : (issueWrite m s).phase = s.phase := readBuf_phase m s.position s
    exact ⟨.write, issueWrite_sends m s, .inr ⟨hphase ▸ h, by simp⟩⟩

theorem dirPhase_running (m : Message) : m.dirPhase.terminal = false := by
  unfold Message.dirPhase
  split <;> rfl

theorem nextMessage_ends (s : State) : Ends s (nextMessage s) := by
  unfold nextMessage
  split
  · exact ⟨.stop, sendCmd_sends .stop { s with phase := .done }, .inl ⟨rfl, rfl⟩⟩
  · next m _ =>
    split
    · exact issue_ends m (s := { s with phase := m.dirPhase }) (dirPhase_running m)
    · exact ⟨.start, data_sends .start (addrByte m) { s with phase := .start }, .inr ⟨rfl, by simp⟩⟩

theorem stepTail_ends {s : State} {m : Message} (hc : s.current = some m) (h : s.phase.terminal = false) :
    Ends s (stepTail s) := by
  by_cases hpos : s.position = m.len
  · rw [stepTail_atEnd hc hpos]
    exact nextMessage_ends _
  · rw [stepTail_within hc hpos]
    exact issue_ends m h

theorem acknowledge_ends {s : State} {m : Message} (hc : s.current = some m) (stat : Byte) :
    Ends s (acknowledge m stat s) := by
  unfold acknowledge
  split
  · exact fail_ends .nack s
  · exact stepTail_ends (s := { s with phase := m.dirPhase }) hc (dirPhase_running m)

/-- The current message stays there whatever is made of it. -/
theorem modifyCurrent_current {s : State} {m : Message} (hc : s.current = some m) (f : Message → Message) :
    (s.modifyCurrent f).current = some (f m) := by
  have hat := msgAt_modifyCurrent f s s.cursor
  rw [if_pos rfl, show s.msgAt s.cursor = some m from hc] at hat
  exact hat

theorem receive_ends {s : State} {m : Message} (hc : s.current = some m) (h : s.phase = .read) (b : Byte) :
    Ends s (receive m b s) := by
  have hphase : s.phase.terminal = false := by rw [h]; rfl
  have hstored := modifyCurrent_current hc (·.storeByte s.position b)
  unfold receive
  dsimp only
  split
  · split
    · exact fail_ends .blockLength { s.modifyCurrent _ with position := s.position + 1 }
    · exact stepTail_ends
        (modifyCurrent_current (s := { s.modifyCurrent _ with position := s.position + 1 }) hstored _) hphase
  · exact stepTail_ends (s := { s.modifyCurrent _ with position := s.position + 1 }) hstored hphase

/-! ### The reads of a step -/

/-- The step takes a byte from DATA (R183). -/
def TakesByte (s : State) : Prop :=
  s.phase = .read ∧ s.params.al (statusRead s) = false ∧ ∃ m, s.current = some m ∧ m.buf ≠ none

/-- `v` is the state after the reads of a step: STATUS, then DATA where the step takes a byte. -/
def AfterReads (s v : State) : Prop :=
  TakesByte s ∧ v = (getreg .data (getreg .cmd s).2).2 ∨ ¬TakesByte s ∧ v = (getreg .cmd s).2

/-- What a running step does once it has read. -/
theorem event_ends (s : State) : ∃ v, AfterReads s v ∧ Ends v (event (statusRead s) (getreg .cmd s).2) := by
  by_cases hal : s.params.al (statusRead s) = true
  · rw [event_arbitrationLost (s := (getreg .cmd s).2) hal]
    exact ⟨_, .inr ⟨fun h => by simp [h.2.1] at hal, rfl⟩, fail_ends _ _⟩
  rw [Bool.not_eq_true] at hal
  cases hc : s.current with
  | none =>
    rw [event_noMessage (s := (getreg .cmd s).2) hal hc]
    refine ⟨_, .inr ⟨?_, rfl⟩, fail_ends _ _⟩
    rintro ⟨-, -, m, hm, -⟩
    simp [hc] at hm
  | some m =>
    by_cases hbuf : m.buf = none
    · rw [event_noBuffer (s := (getreg .cmd s).2) hal hc hbuf]
      refine ⟨_, .inr ⟨?_, rfl⟩, fail_ends _ _⟩
      rintro ⟨-, -, m', hm, hbuf'⟩
      obtain rfl := Option.some.inj (hc.symm.trans hm)
      exact hbuf' hbuf
    by_cases hread : s.phase = .read
    · rw [event_read (s := (getreg .cmd s).2) hal hc hbuf hread]
      exact ⟨_, .inl ⟨⟨hread, hal, m, hc, hbuf⟩, rfl⟩,
        receive_ends (s := (getreg .data (getreg .cmd s).2).2) hc hread _⟩
    · rw [event_send (s := (getreg .cmd s).2) hal hc hbuf hread]
      exact ⟨_, .inr ⟨fun h => hread h.1, rfl⟩, acknowledge_ends (s := (getreg .cmd s).2) hc _⟩

/-- Every step reads, then sends its one command; from a State that is not terminal it ends as R193 has it. -/
theorem seqStep_sends (s : State) : ∃ v c, AfterReads s v ∧ Sends c v (seqStep s).2
    ∧ (s.phase.terminal = false → (seqStep s).2.phase.terminal = true ∧ c = .stop
        ∨ (seqStep s).2.phase.terminal = false ∧ c ∈ [.start, .write, .readAck, .readNack]) := by
  cases hphase : s.phase.terminal with
  | true =>
    rw [seqStep_terminal hphase]
    refine ⟨_, .iack, .inr ⟨fun h => ?_, rfl⟩, sendCmd_sends .iack _, nofun⟩
    simp [h.1, Phase.terminal] at hphase
  | false =>
    rw [seqStep_running hphase]
    obtain ⟨v, hreads, c, hsends, hends⟩ := event_ends s
    exact ⟨v, c, hreads, hsends, fun _ => hends⟩

theorem AfterReads.now {s v : State} (h : AfterReads s v) : v.env.now = s.env.now := by
  rcases h with ⟨-, rfl⟩ | ⟨-, rfl⟩ <;> simp

theorem AfterReads.cEvent_eq {s v : State} (h : AfterReads s v) (c : Command) : cEvent v c = cEvent s c := by
  rcases h with ⟨-, rfl⟩ | ⟨-, rfl⟩ <;> rfl

/-! ### The accesses counted -/

/-- The reads of a step, counted. -/
theorem AfterReads.counts {s v : State} (h : AfterReads s v) : ∃ evs, v.env.trace = s.env.trace ++ evs
    ∧ evs.countP (Event.reads .cmd) = 1
    ∧ (evs.countP (Event.reads .data) = 0 ∨ evs.countP (Event.reads .data) = 1 ∧ TakesByte s)
    ∧ ∀ id, evs.countP (Event.writes id) = 0 := by
  obtain ⟨bytes, hstatus⟩ := getreg_trace .cmd s
  rcases h with ⟨htakes, rfl⟩ | ⟨-, rfl⟩
  · obtain ⟨bytes', hdata⟩ := getreg_trace .data (getreg .cmd s).2
    rw [hstatus, List.append_assoc] at hdata
    exact ⟨_, hdata, rfl, .inr ⟨rfl, htakes⟩, fun _ => rfl⟩
  · exact ⟨_, hstatus, rfl, .inl rfl, fun _ => rfl⟩

/-- What follows the reads, counted. -/
theorem Sends.counts {c : Command} {s t : State} (h : Sends c s t) : ∃ evs, t.env.trace = s.env.trace ++ evs
    ∧ evs.getLast? = some (cEvent s c) ∧ (∀ id, evs.countP (Event.reads id) = 0)
    ∧ evs.countP (Event.writes .data) ≤ 1 ∧ evs.countP (Event.writes .cmd) = 1
    ∧ ∀ id, id ≠ .data → id ≠ .cmd → evs.countP (Event.writes id) = 0 := by
  obtain ⟨-, ws, hws, htrace⟩ := h
  refine ⟨_, htrace, List.getLast?_concat, ?_⟩
  rcases hws with rfl | ⟨b, rfl⟩
  · exact ⟨fun _ => rfl, Nat.zero_le 1, rfl, fun id _ hc => by simp [Event.writes, cEvent, wEvent, hc.symm]⟩
  · exact ⟨fun _ => rfl, Nat.le_refl 1, rfl, fun id hd hc => by simp [Event.writes, cEvent, wEvent, hd.symm, hc.symm]⟩

/-- Settles O31: the reads of the step and what it sends after them, counted together. -/
theorem stepCountsItsAccesses : Obligations.StepCountsItsAccesses := by
  refine fun s => ⟨fun h => ⟨_, exec_step h⟩, fun t ht => ?_⟩
  obtain ⟨rfl, -⟩ := conclude_next ht
  obtain ⟨v, c, hreads, hsends, hends⟩ := seqStep_sends s
  obtain ⟨evs, hv, hstatus, hdata, hnone⟩ := hreads.counts
  obtain ⟨evs', ht', hlast, hnoRead, hdataWrite, hcmdWrite, hnoWrite⟩ := hsends.counts
  have hsince : eventsSince s ((seqStep s).2.returns (.mark (seqStep s).1)) = evs ++ evs' := by
    rw [eventsSince, returns_env, ht', hv, List.append_assoc, List.drop_left]
  have hother : ∀ id, id ≠ .data → id ≠ .cmd → ∀ ev ∈ evs ++ evs', ev.writes id = false := by
    intro id hd hc ev hev
    have hzero : (evs ++ evs').countP (Event.writes id) = 0 := by rw [List.countP_append, hnone, hnoWrite id hd hc]
    exact Bool.not_eq_true _ ▸ List.countP_eq_zero.1 hzero ev hev
  rw [hreads.cEvent_eq] at hlast
  rw [hsince]
  simp only [List.countP_append, hstatus, hnone, hnoRead, hcmdWrite, Nat.add_zero, Nat.zero_add, returns_phase]
  refine ⟨trivial, by omega, fun hone => ?_, hdataWrite, trivial, fun ev hev => ?_, hsends.1.trans hreads.now,
    fun hrun => ?_⟩
  · exact (hdata.resolve_left (by omega)).2
  · exact ⟨hother .prelow (by decide) (by decide) ev hev, hother .prehigh (by decide) (by decide) ev hev,
      hother .control (by decide) (by decide) ev hev⟩
  · exact ⟨c, by rw [List.getLast?_append, hlast]; rfl, hends hrun⟩

/-- Settles O30: the reads are those of `AfterReads`, and after them only writes are made. -/
theorem stepReadsBeforeItWrites : Obligations.StepReadsBeforeItWrites := by
  refine ⟨fun s h => ?_, fun s m u h ht => ?_⟩
  · obtain ⟨v, c, hreads, ⟨-, ws, hws, htrace⟩, -⟩ := seqStep_sends s
    have hwritten : ∀ ev ∈ ws ++ [cEvent v c], ev.written.isSome = true := by
      rcases hws with rfl | ⟨b, rfl⟩ <;> simp [cEvent, wEvent, Event.written]
    rcases hreads with ⟨htakes, rfl⟩ | ⟨hplain, rfl⟩
    · obtain ⟨e1, e2, hstatus, hdata, hrun⟩ := dataRead_run h
      have hv : (getreg .data (getreg .cmd s).2).2.env.trace = s.env.trace ++ [e1, e2] := by rw [hrun.accessed]
      rw [hv, List.append_assoc] at htrace
      exact ⟨_, e1, _, exec_step h, htrace, hstatus, fun _ => ⟨e2, _, rfl, hdata, hwritten⟩, fun hn => absurd htakes hn⟩
    · obtain ⟨e1, hstatus, hrun⟩ := statusRead_run h
      have hv : (getreg .cmd s).2.env.trace = s.env.trace ++ [e1] := by rw [hrun.accessed]
      rw [hv, List.append_assoc] at htrace
      exact ⟨_, e1, _, exec_step h, htrace, hstatus, fun hn => absurd hn hplain, fun _ => hwritten⟩
  · obtain ⟨-, -, -, -, hcase⟩ := ht
    rcases hcase with ⟨hread, -, rfl⟩ | ⟨hread, -, rfl⟩
    · obtain ⟨e1, hstatus, hrun⟩ := statusRead_run h
      exact ⟨fun _ => ⟨e1, hstatus, hrun.accessed⟩, fun hn => absurd hn hread⟩
    · obtain ⟨e1, e2, hstatus, hdata, hrun⟩ := dataRead_run h
      exact ⟨fun hn => absurd hread hn, fun _ => ⟨e1, e2, hstatus, hdata, hrun.accessed⟩⟩

end Sys2Proof.Machine
end

section
/-! Message instructions (43_sequencer.md R170 to R176; log 9): in a terminal State they are arm's, inside a program they append
their message and take one step. -/

namespace Sys2Proof.Machine

/-! ### The calls -/

section

variable {s : State} {m : Message}

/-- In a terminal State a message is armed (R171, 60_exceptions.md R275). -/
theorem exec_message_arms (hphase : s.phase.terminal = true) (hclaim : s.claim = .free) (hfail : s.configureFailed = false)
    (hm : m.legal false = true) : exec m.instr s = conclude s (startTransaction .program (some [m]) s) := by
  simp [exec_messageInstr, runMessage, messageFails_eq, hfail, hclaim, hphase, hm]

/-- Inside a program a message is appended, and one step taken (R170). -/
theorem exec_message_feeds (hphase : s.phase.terminal = false) (hclaim : s.claim ≠ .submission)
    (hfail : s.configureFailed = false) (hm : m.legal true = true) :
    exec m.instr s = exec .step { s with msgs := some (s.list ++ [m]), claim := .program } := by
  have hfeed : runMessage m s = conclude s ((feedMessage m s).2.returns (.mark (feedMessage m s).1)) := by
    simp [runMessage, messageFails_eq, hfail, hclaim, hphase, hm]
  exact (exec_messageInstr m s).trans hfeed

/-- A message that cannot stand at its place changes nothing (44_adapters.md R201). -/
theorem exec_message_illegal (hclaim : s.claim ≠ .submission) (hfail : s.configureFailed = false)
    (hplace : s.phase.terminal = false ∨ s.claim = .free) (hm : m.legal (!s.phase.terminal) = false) :
    exec m.instr s = .next { s with ret := .result none .parameter } := by
  have hopen : ¬(s.phase.terminal = true ∧ s.claim ≠ .free) := by
    rcases hplace with hphase | hfree
    · simp [hphase]
    · simp [hfree]
  rw [exec_messageInstr, runMessage, if_neg (by simp [hfail]), if_neg hclaim, if_neg hopen, messageFails_eq, hm]
  rfl

end

/-- Settles O34: feeding is a step on the longer list, which completes at the trusted level. -/
theorem messageFollowsInOrder : Obligations.MessageFollowsInOrder := by
  intro s m hclaim hfail
  refine ⟨fun hphase hm => ?_, fun hplace hm => exec_message_illegal hclaim hfail hplace hm⟩
  have hfeeds := exec_message_feeds hphase hclaim hfail hm
  refine ⟨hfeeds, fun h => ?_⟩
  have hstep := exec_step (s := { s with msgs := some (s.list ++ [m]), claim := .program }) h
  exact ⟨_, hfeeds.trans hstep⟩

/-! ### A no-start message inside a program -/

/-- A legal no-start message has a byte 0 (R174). -/
theorem byteAt_zero_of_legal {m : Message} (hm : m.legal true = true) (hnostart : m.nostart = true) :
    ∃ b, m.byteAt 0 = some b := by
  simp only [Message.legal, hnostart, Bool.and_eq_true, decide_eq_true_eq, Bool.and_true, Bool.not_true, Bool.false_or] at hm
  obtain ⟨⟨⟨⟨hbuf, -⟩, hcap⟩, -⟩, hlen⟩ := hm
  obtain ⟨l, hl⟩ := Option.isSome_iff_exists.1 hbuf
  rw [hl, capOf] at hcap
  exact ⟨l[0], by simp [Message.byteAt, hl]⟩

/-- A step leaves the places after the cursor alone until its tail. -/
theorem taken_msgAt_next {s u : State} {m : Message} (ht : Taken s m u) :
    u.msgAt (u.cursor + 1) = s.msgAt (s.cursor + 1) := by
  obtain ⟨-, -, -, -, hcase⟩ := ht
  rcases hcase with ⟨-, -, rfl⟩ | ⟨-, -, rfl⟩
  · rfl
  · simp [State.msgAt, State.list]

/-- The read command for byte 0 (R189). -/
theorem readCommand_zero (m : Message) :
    readCommand m 0 = if m.len = 1 ∧ m.recvlen = false then .readNack else .readAck := by
  have hlast : (0 : Int) = (m.len : Int) - 1 ↔ m.len = 1 := by omega
  simp [readCommand, hlast]

/-- Settles O35: the message fed is the next one, and the step goes on with it. -/
theorem nostartMessageContinues : Obligations.NostartMessageContinues := by
  intro s m before u before' h hclaim hfail hnostart hm hcursor ht hc hpos
  have hfeeds := exec_message_feeds (s := s) ht.1 hclaim hfail hm
  have hnext : u.msgAt (u.cursor + 1) = some m := by
    rw [taken_msgAt_next ht]
    simp [State.msgAt, State.list, hcursor]
  obtain ⟨hread, hwrite⟩ := stepContinuesWithoutStart
    { s with msgs := some (s.list ++ [m]), claim := .program } before u before' m h ht hc hpos hnext hnostart
  rw [hfeeds]
  refine ⟨fun hrd => ?_, fun hrd => ?_⟩
  · obtain ⟨t, b, hexec, hb, haccessed, hstate⟩ := hwrite hrd
    obtain ⟨b', hb'⟩ := byteAt_zero_of_legal hm hnostart
    exact ⟨t, b, hexec, hb b' hb' ▸ hb', haccessed, hstate⟩
  · obtain ⟨t, hexec, haccessed, hstate⟩ := hread hrd
    rw [readCommand_zero] at haccessed
    exact ⟨t, hexec, haccessed, hstate⟩

/-! ### arm -/

theorem ctrlForMode_eq (p : Params) (mode : Mode) (ctrl : Byte) :
    p.ctrlForMode mode ctrl = if mode = .interrupt then ctrl ||| p.ctrlIen else ctrl &&& ~~~p.ctrlIen := by
  cases mode <;> rfl

theorem recover_notLost {s : State} (h : s.params.al (statusRead s) = false) : recover s = (true, (getreg .cmd s).2) :=
  if_neg (by rw [Bool.not_eq_true]; exact h)

/-- arm's update of CONTROL: IEN by mode, by read-modify-write (44_adapters.md R202). -/
def setIen (s : State) : State :=
  setreg .control (s.params.ctrlForMode s.mode (getreg .control s).1) (getreg .control s).2

/-- Once recovery has returned arm sets IEN, sends the address byte and START, binds the list and gives the lock back. -/
theorem armTail_eq (owner : Claim) (m : Message) (rest : List Message) (s : State) :
    armTail owner (some (m :: rest)) s = { setIen s with
      msgs := some (m :: rest), cursor := 0, position := 0, phase := .start, err := .none, completion := false,
      lock := .free, claim := owner, ret := .nothing, env := (sendAddress m (setIen s)).env } := by
  change (release (begin m rest { setIen s with claim := owner })).returns .nothing = _
  generalize setIen s = u
  rfl

theorem armTail_owner (owner owner' : Claim) (m : Message) (rest : List Message) (s : State) :
    armTail owner (some (m :: rest)) s = { armTail owner' (some (m :: rest)) s with claim := owner } := by
  rw [armTail_eq, armTail_eq]

theorem armTail_claim (owner claim : Claim) (m : Message) (rest : List Message) (s : State) :
    armTail owner (some (m :: rest)) { s with claim := claim } = armTail owner (some (m :: rest)) s := by
  rw [armTail_eq, armTail_eq]
  rfl

/-! ### Recovery does not look at the claim -/

section

variable (owner : Claim) (s : State)

theorem recoverMask_claim : recoverMask { s with claim := owner } = { recoverMask s with claim := owner } := by
  unfold recoverMask
  dsimp only
  split <;> rfl

theorem recoverPass_claim :
    recoverPass { s with claim := owner } = ((recoverPass s).1, { (recoverPass s).2 with claim := owner }) := by
  unfold recoverPass
  dsimp only
  rw [show (getreg .cmd { s with claim := owner }).1 = (getreg .cmd s).1 from rfl]
  split
  · rw [show (readClock (getreg .cmd { s with claim := owner }).2).1 = (readClock (getreg .cmd s).2).1 from rfl]
    split <;> rfl
  · rfl

theorem recoverForce_claim :
    recoverForce { s with claim := owner } = ((recoverForce s).1, { (recoverForce s).2 with claim := owner }) := by
  unfold recoverForce
  dsimp only
  rw [recoverMask_claim]
  exact recoverPass_claim owner { (readClock (sendCmd .recover (recoverMask s))).2 with
    t0Recovery := some (readClock (sendCmd .recover (recoverMask s))).1 }

theorem recover_claim : recover { s with claim := owner } = ((recover s).1, { (recover s).2 with claim := owner }) := by
  unfold recover
  dsimp only
  rw [show (getreg .cmd { s with claim := owner }).1 = (getreg .cmd s).1 from rfl]
  split
  · exact recoverForce_claim owner (getreg .cmd s).2
  · rfl

end

theorem recover_todo (s : State) : (recover s).2.todo = s.todo := by
  rcases recover_cases s with ⟨-, e, t0, -, h⟩ | ⟨-, e, t0, h⟩ <;> rw [h]

/-! ### arm of a free lock -/

/-- What recovery leaves decides how far arm goes (R202); whose list it is does not. -/
theorem startTransaction_free {s : State} (hlock : s.lock = .free) (owner : Claim) (m : Message) (rest : List Message) :
    startTransaction owner (some (m :: rest)) s = if (recover (acquire .initiator s)).1
      then armTail owner (some (m :: rest)) (recover (acquire .initiator s)).2
      else { (recover (acquire .initiator s)).2 with
        todo := .recoverWait :: .armTail owner (some (m :: rest)) :: s.todo, claim := owner } := by
  have hacquire : acquire .initiator { s with claim := owner } = { acquire .initiator s with claim := owner } := rfl
  have hfree : ({ s with claim := owner } : State).lock = .free := hlock
  rw [startTransaction, arm, if_pos hfree, hacquire, recover_claim]
  dsimp only
  rw [armTail_claim]
  simp only [push, recover_todo, acquire_todo]

theorem startTransaction_returned {s : State} (hlock : s.lock = .free)
    (hreturned : (recover (acquire .initiator s)).1 = true) (owner : Claim) (m : Message) (rest : List Message) :
    startTransaction owner (some (m :: rest)) s = armTail owner (some (m :: rest)) (recover (acquire .initiator s)).2 :=
  (startTransaction_free hlock owner m rest).trans (if_pos hreturned)

theorem startTransaction_waits {s : State} (hlock : s.lock = .free) (hwaits : (recover (acquire .initiator s)).1 = false)
    (owner : Claim) (m : Message) (rest : List Message) :
    startTransaction owner (some (m :: rest)) s = { (recover (acquire .initiator s)).2 with
      todo := .recoverWait :: .armTail owner (some (m :: rest)) :: s.todo, claim := owner } :=
  (startTransaction_free hlock owner m rest).trans (if_neg (by simp [hwaits]))

/-- The accesses of an arm that need not recover: STATUS and CONTROL read, then CONTROL, the address byte and START. -/
def armAccesses (m : Message) (s : State) : State := sendAddress m (setIen (getreg .cmd s).2)

theorem armAccesses_run {s : State} (h : s.env.level = .oracle) (m : Message) :
    ∃ e1 e2 ctrl, e1.readOf s .cmd (statusRead s) ∧ e2.readOf s .control ctrl ∧ TrustedRun s (armAccesses m s)
      [e1, e2, wEvent s .control (s.params.ctrlForMode s.mode ctrl), wEvent s .data (addrByte m), cEvent s .start] := by
  obtain ⟨e1, hstatus, hrun⟩ := statusRead_run h
  obtain ⟨e2, hcontrol, hrun'⟩ := hrun.getreg .control
  exact ⟨e1, e2, _, hstatus, hcontrol, ((hrun'.setreg .control _).setreg .data (addrByte m)).sendCmd .start⟩

/-- Arm with the lock free and no arbitration lost (R202). -/
theorem startTransaction_notLost {s : State} (hlock : s.lock = .free) (hal : s.params.al (statusRead s) = false)
    (owner : Claim) (m : Message) (rest : List Message) :
    startTransaction owner (some (m :: rest)) s = { s with
      msgs := some (m :: rest), cursor := 0, position := 0, phase := .start, err := .none, completion := false,
      claim := owner, ret := .nothing, env := (armAccesses m s).env } := by
  have hrecover := recover_notLost (s := acquire .initiator s) hal
  rw [startTransaction_returned hlock (by rw [hrecover]), hrecover, armTail_eq]
  apply State.ext
  case lock => exact hlock.symm
  all_goals rfl

/-- A legal list is armed (R202). -/
theorem exec_arm_starts {s : State} {l : MsgList} (hfail : s.configureFailed = false) (hclaim : s.claim = .free)
    (hl : listLegal l = true) : exec (.arm l) s = conclude s (startTransaction .submission l s) := by
  simp [exec, execArm, hfail, hclaim, validateFails_eq, hl]

/-- Settles O33: the message is armed as the one-message list it is, and arm does not look at whose list it is. -/
theorem messageStartsAProgram : Obligations.MessageStartsAProgram := by
  intro s m h hphase hclaim hfail hm
  have harms := exec_message_arms (Phase.terminal_iff.2 hphase) hclaim hfail hm
  rw [conclude_trusted h] at harms
  refine ⟨fun hlock hal => ?_, fun hlock => ?_, fun hlock => ?_⟩
  · obtain ⟨e1, e2, ctrl, hstatus, hcontrol, hrun⟩ := armAccesses_run h m
    rw [ctrlForMode_eq] at hrun
    rw [startTransaction_notLost hlock hal] at harms
    have haccessed := hrun.accessed
    unfold Accessed at haccessed
    generalize (armAccesses m s).env = e at harms haccessed
    exact ⟨_, e1, e2, ctrl, harms, hstatus, hcontrol, haccessed, rfl⟩
  · have harm := exec_arm_starts hfail hclaim (l := some [m]) (by simp [listLegal, hm])
    rw [conclude_trusted h] at harm
    refine ⟨_, harm, ?_⟩
    cases hrecover : (recover (acquire .initiator s)).1 with
    | true =>
      rw [startTransaction_returned hlock hrecover] at harms ⊢
      refine ⟨fun _ => harms.trans (congrArg _ (armTail_owner ..)), fun hne => absurd ?_ hne⟩
      rw [armTail_eq]
      exact recover_todo _
    | false =>
      rw [startTransaction_waits hlock hrecover] at harms ⊢
      have hlonger : ∀ f g : Frame, f :: g :: s.todo ≠ s.todo := fun f g h => by
        simpa [Nat.add_assoc] using congrArg List.length h
      exact ⟨fun heq => absurd heq (hlonger _ _), fun _ => harms⟩
  · rw [startTransaction, arm, if_neg hlock] at harms
    exact harms

end Sys2Proof.Machine
end

section
/-! A fed message run to its end at the trusted level (43_sequencer.md R171, R172; programs P1 and P2), the oracle's answers
being given. `Session` keeps the account of the register port: the values it still answers and what has been written to it. Each
step of a run starts at the tail of the one before, so the two runs are inductions over the bytes from a tail on. -/

namespace Sys2Proof.Machine

/-! ### The register port with its answers given -/

theorem setreg_answers_eq {s : State} (h : s.env.level = .oracle) (id : RegId) (v : Byte) :
    (setreg id v s).env.answers = s.env.answers := by
  cases id <;> simp [setreg, Env.write, Env.advance, h, Env.record, Env.store, Env.writeControl]

/-- From `s` to `t`, in one configuration at the trusted level, the register port was written `ws`; the registers still read,
in order, as `vs`, and `more` follows in the oracle's list. -/
structure Session (s : State) (more : List Byte) (t : State) (vs : List Byte) (ws : List (RegId × Byte)) : Prop where
  level : t.env.level = .oracle
  params : t.params = s.params
  dev : t.dev = s.dev
  answers : t.env.answers = answersOf s.dev vs ++ more
  written : ∃ evs, t.env.trace = s.env.trace ++ evs ∧ evs.filterMap Event.written = ws

namespace Session

variable {s t u : State} {more vs : List Byte} {ws : List (RegId × Byte)}

theorem refl (h : s.env.level = .oracle) (ha : s.env.answers = answersOf s.dev vs ++ more) : Session s more s vs [] :=
  ⟨h, rfl, rfl, ha, [], (List.append_nil _).symm, rfl⟩

theorem congr (h : Session s more t vs ws) (hp : u.params = t.params) (hd : u.dev = t.dev) (he : u.env = t.env) :
    Session s more u vs ws := by
  obtain ⟨hlevel, hparams, hdev, hanswers, hwritten⟩ := h
  rw [← he] at hlevel hanswers hwritten
  exact ⟨hlevel, hp.trans hparams, hd.trans hdev, hanswers, hwritten⟩

theorem getreg {v : Byte} (h : Session s more t (v :: vs) ws) (id : RegId) :
    (Machine.getreg id t).1 = v ∧ Session s more (Machine.getreg id t).2 vs ws := by
  obtain ⟨hlevel, hparams, hdev, hanswers, evs, htrace, hevs⟩ := h
  have hread := getreg_answers hlevel id (marshal v t.dev.registerWidth t.dev.endianness) (answersOf s.dev vs ++ more)
    (by rw [hanswers, hdev]; simp [answersOf]) (marshal_length ..)
  rw [hread]
  exact ⟨unmarshal_marshal .., hlevel, hparams, hdev, rfl, evs ++ [_], by rw [htrace, List.append_assoc],
    by simp [List.filterMap_append, hevs, Event.written]⟩

theorem setreg (h : Session s more t vs ws) (id : RegId) (v : Byte) :
    Session s more (Machine.setreg id v t) vs (ws ++ [(id, v)]) := by
  obtain ⟨hlevel, hparams, hdev, hanswers, evs, htrace, hevs⟩ := h
  exact ⟨(setreg_level id v t).trans hlevel, hparams, hdev, (setreg_answers_eq hlevel id v).trans hanswers,
    evs ++ [wEvent t id v], by rw [setreg_trace, htrace, List.append_assoc],
    by simp [List.filterMap_append, hevs, Event.written, wEvent]⟩

theorem sendCmd (h : Session s more t vs ws) (c : Command) :
    Session s more (Machine.sendCmd c t) vs (ws ++ [(.cmd, s.params.cmdByte c)]) := by
  rw [← h.params]
  exact h.setreg .cmd _

theorem sendAddress (h : Session s more t vs ws) (m : Message) :
    Session s more (Machine.sendAddress m t) vs (ws ++ [(.data, addrByte m), (.cmd, s.params.cmdStart)]) := by
  have hsent := (h.setreg .data (addrByte m)).sendCmd .start
  rwa [List.append_assoc] at hsent

theorem writesSince_eq (h : Session s more t vs ws) : writesSince s t = ws := by
  obtain ⟨evs, htrace, hevs⟩ := h.written
  rw [writesSince, eventsSince, htrace, List.drop_left, hevs]

/-- arm's accesses (44_adapters.md R202). -/
theorem armAccesses {stat ctrl : Byte} (h : Session s more s (stat :: ctrl :: vs) []) (m : Message) :
    statusRead s = stat ∧ Session s more (Machine.armAccesses m s) vs
      [(.control, s.params.ctrlForMode s.mode ctrl), (.data, addrByte m), (.cmd, s.params.cmdStart)] := by
  obtain ⟨hstatus, hread⟩ := h.getreg .cmd
  obtain ⟨hcontrol, hread'⟩ := hread.getreg .control
  have hsent := (hread'.setreg .control (s.params.ctrlForMode s.mode ctrl)).sendAddress m
  refine ⟨hstatus, ?_⟩
  rw [← hcontrol] at hsent ⊢
  exact hsent

end Session

/-! ### One message and its end -/

/-- The one message `m` is bound and under way, with State `p` and position `i`, and no error. -/
structure OnMessage (u : State) (m : Message) (p : Phase) (i : Nat) : Prop where
  msgs : u.msgs = some [m]
  cursor : u.cursor = 0
  err : u.err = .none
  phase : u.phase = p
  position : u.position = i

/-- The program of the one message `m` has ended well. -/
structure Ended (t : State) (m : Message) : Prop where
  phase : t.phase = .done
  err : t.err = .none
  completion : t.completion = true
  msgs : t.msgs = some [m]

/-- From `w` the instructions run to the good end of the program of `m`, every answer used and `ws` written since `s`. -/
def RunsTo (s : State) (more : List Byte) (is : List Instr) (w : State) (m : Message) (ws : List (RegId × Byte)) : Prop :=
  ∃ t, runAll is w = .next t ∧ Ended t m ∧ Session s more t [] ws

theorem runAll_cons {s t : State} {i : Instr} (h : exec i s = .next t) (is : List Instr) :
    runAll (i :: is) s = runAll is t := by rw [runAll, h]

theorem RunsTo.step_taken {s w u : State} {m m' : Message} {more : List Byte} {is : List Instr} {ws : List (RegId × Byte)}
    (h : w.env.level = .oracle) (ht : Taken w m u)
    (hrun : RunsTo s more is ((stepTail u).returns (.mark .goesOn)) m' ws) : RunsTo s more (.step :: is) w m' ws := by
  unfold RunsTo
  rw [runAll_cons (exec_step_taken h ht)]
  exact hrun

section

variable {s u : State} {m : Message} {p : Phase} {i : Nat} {more vs : List Byte} {ws : List (RegId × Byte)}

theorem OnMessage.current (h : OnMessage u m p i) : u.current = some m := by
  simp [State.current, State.msgAt, State.list, h.msgs, h.cursor]

theorem OnMessage.noNext (h : OnMessage u m p i) : u.msgAt (u.cursor + 1) = none := by
  simp [State.msgAt, State.list, h.msgs, h.cursor]

/-- The tail at the end of the one message: STOP (R186). -/
theorem stepTail_ended (hm : OnMessage u m p i) (hi : i = m.len) (h : Session s more u [] ws) (r : Ret) :
    RunsTo s more [] ((stepTail u).returns r) m (ws ++ [(.cmd, s.params.cmdStop)]) := by
  have hmoved : Session s more { u with cursor := u.cursor + 1, position := 0, phase := .done } [] ws := h.congr rfl rfl rfl
  rw [stepTail_last hm.current (hm.position.trans hi) hm.noNext]
  exact ⟨_, rfl, ⟨rfl, hm.err, rfl, hm.msgs⟩, (hmoved.sendCmd .stop).congr rfl rfl rfl⟩

/-- An acknowledged address or data byte (R182). -/
theorem taken_acknowledged {v : Byte} (hm : OnMessage u m p i) (hp : p = .start ∨ p = .write) (hbuf : m.buf ≠ none)
    (h : Session s more u (v :: vs) ws) (hal : s.params.al v = false) (hnack : s.params.nack v = false) :
    ∃ u', Taken u m u' ∧ OnMessage u' m m.dirPhase i ∧ Session s more u' vs ws := by
  obtain ⟨hstatus, hread⟩ := h.getreg .cmd
  obtain ⟨hrunning, hsending⟩ := hm.phase ▸ Phase.sending hp
  rw [← hstatus, ← h.params] at hal hnack
  exact ⟨_, ⟨hrunning, hal, hm.current, hbuf, .inl ⟨hsending, hnack, rfl⟩⟩,
    ⟨hm.msgs, hm.cursor, hm.err, rfl, hm.position⟩, hread.congr rfl rfl rfl⟩

/-- A byte received by a message that is not length-prefixed (R183). -/
theorem taken_received {v b : Byte} {buf : List Byte} (hm : OnMessage u m .read i) (hrecvlen : m.recvlen = false)
    (hbuf : m.buf = some buf) (h : Session s more u (v :: b :: vs) ws) (hal : s.params.al v = false) :
    ∃ u', Taken u m u' ∧ OnMessage u' { m with buf := some (buf.set i b) } .read (i + 1) ∧ Session s more u' vs ws := by
  obtain ⟨hstatus, hread⟩ := h.getreg .cmd
  obtain ⟨hdata, hread'⟩ := hread.getreg .data
  have hbyte : dataRead u = b := hdata
  rw [← hstatus, ← h.params] at hal
  refine ⟨_, ⟨by simp [hm.phase, Phase.terminal], hal, hm.current, by simp [hbuf],
    .inr ⟨hm.phase, by simp [hrecvlen], rfl⟩⟩, ⟨?_, hm.cursor, hm.err, hm.phase, by simp [hm.position]⟩,
    hread'.congr rfl rfl rfl⟩
  simp [State.list, hm.msgs, hm.cursor, hm.position, hbuf, hbyte, hrecvlen]

/-- The tail of a read: the command for the next byte (R189). -/
theorem stepTail_asks (hm : OnMessage u m .read i) (hi : i ≠ m.len) (h : Session s more u vs ws) (r : Ret) :
    OnMessage ((stepTail u).returns r) m .read i
      ∧ Session s more ((stepTail u).returns r) vs (ws ++ [(.cmd, s.params.cmdByte (readCommand m i))]) := by
  rw [stepTail_within hm.current (by rwa [hm.position]), issue_read m hm.phase, hm.position]
  exact ⟨⟨hm.msgs, hm.cursor, hm.err, hm.phase, hm.position⟩, (h.sendCmd _).congr rfl rfl rfl⟩

theorem issueWrite_byte {b : Byte} (h : m.byteAt u.position = some b) :
    issueWrite m u = sendCmd .write { setreg .data b u with position := u.position + 1 } := by
  simp [issueWrite, readBuf, h]

/-- The tail of a write: the next byte, then WRITE (R190). -/
theorem stepTail_sends {b : Byte} (hm : OnMessage u m .write i) (hi : i ≠ m.len) (hb : m.byteAt i = some b)
    (h : Session s more u vs ws) (r : Ret) :
    OnMessage ((stepTail u).returns r) m .write (i + 1)
      ∧ Session s more ((stepTail u).returns r) vs (ws ++ [(.data, b), (.cmd, s.params.cmdWrite)]) := by
  have hdata : Session s more { setreg .data b u with position := u.position + 1 } vs (ws ++ [(.data, b)]) :=
    (h.setreg .data b).congr rfl rfl rfl
  have hsent := hdata.sendCmd .write
  rw [List.append_assoc] at hsent
  rw [stepTail_within hm.current (by rwa [hm.position]), issue_write m (by simp [hm.phase]),
    issueWrite_byte (by rwa [hm.position])]
  exact ⟨⟨hm.msgs, hm.cursor, hm.err, hm.phase, congrArg (· + 1) hm.position⟩, hsent.congr rfl rfl rfl⟩

/-- A fed message is armed: the address byte and START are out (44_adapters.md R202). -/
theorem exec_message_armed {stat ctrl : Byte} (h : s.env.level = .oracle) (hphase : s.phase.terminal = true)
    (hclaim : s.claim = .free) (hfail : s.configureFailed = false) (hlock : s.lock = .free) (hm : m.legal false = true)
    (hal : s.params.al stat = false) (ha : s.env.answers = answersOf s.dev (stat :: ctrl :: vs) ++ more) :
    ∃ t, exec m.instr s = .next t ∧ OnMessage t m .start 0 ∧ Session s more t vs
      [(.control, s.params.ctrlForMode s.mode ctrl), (.data, addrByte m), (.cmd, s.params.cmdStart)] := by
  obtain ⟨hstatus, hsession⟩ := (Session.refl h ha).armAccesses m
  have harms := exec_message_arms hphase hclaim hfail hm
  rw [conclude_trusted h, startTransaction_notLost hlock (hstatus ▸ hal)] at harms
  exact ⟨_, harms, ⟨rfl, rfl, rfl, rfl, rfl⟩, hsession.congr hsession.params.symm hsession.dev.symm rfl⟩

end

/-! ### A write -/

/-- The trace lines of the bytes of a write (P1). -/
def writeLines (p : Params) (bytes : List Byte) : List (RegId × Byte) :=
  bytes.flatMap fun b => [(.data, b), (.cmd, p.cmdWrite)]

/-- From the tail of a step on, with `bytes` still to send from place `i`: each byte, then STOP. -/
theorem runAll_sends {s : State} {m : Message} {more buf spare : List Byte} (hrd : m.rd = false) (hbuf : m.buf = some buf)
    (bytes : List Byte) : ∀ (u : State) (i : Nat) (stats : List Byte) (ws : List (RegId × Byte)), OnMessage u m .write i →
      buf.drop i = bytes ++ spare → m.len = i + bytes.length → stats.length = bytes.length →
      (∀ v ∈ stats, s.params.al v = false ∧ s.params.nack v = false) → Session s more u stats ws →
      RunsTo s more (List.replicate bytes.length .step) ((stepTail u).returns (.mark .goesOn)) m
        (ws ++ (writeLines s.params bytes ++ [(.cmd, s.params.cmdStop)])) := by
  induction bytes with
  | nil =>
    intro u i stats ws hm _ hlen hstats _ h
    obtain rfl := List.length_eq_zero_iff.1 hstats
    exact stepTail_ended hm hlen.symm h _
  | cons b bytes ih =>
    intro u i stats ws hm hdrop hlen hstats hgood h
    obtain ⟨v, stats, rfl⟩ := List.exists_cons_of_length_eq_add_one hstats
    obtain ⟨⟨hal, hnack⟩, hgood⟩ := List.forall_mem_cons.1 hgood
    simp only [List.length_cons] at hlen hstats
    have hbyte : m.byteAt i = some b := by
      have hhead := congrArg (·[0]?) hdrop
      simpa [Message.byteAt, hbuf] using hhead
    have hdrop' : buf.drop (i + 1) = bytes ++ spare := by rw [← List.tail_drop, hdrop]; rfl
    obtain ⟨hmw, hsent⟩ := stepTail_sends hm (by omega) hbyte h (.mark .goesOn)
    obtain ⟨u', htaken, hmu, hnext⟩ := taken_acknowledged hmw (.inr rfl) (by simp [hbuf]) hsent hal hnack
    rw [dirPhase_of_write hrd] at hmu
    have hrun := ih u' (i + 1) stats _ hmu hdrop' (by omega) (by omega) hgood hnext
    rw [List.append_assoc, ← List.append_assoc _ (writeLines _ _)] at hrun
    exact hrun.step_taken hsent.level htaken

/-! ### A read -/

/-- The trace lines of the read commands for `n` bytes from place `i` of a message of length `len` (P2). -/
def readLines (p : Params) (len i n : Nat) : List (RegId × Byte) :=
  (List.range' i n).map fun j => (.cmd, if j + 1 = len then p.cmdReadNack else p.cmdReadAck)

theorem cmdByte_readCommand {m : Message} (h : m.recvlen = false) (p : Params) (i : Nat) :
    p.cmdByte (readCommand m i) = if i + 1 = m.len then p.cmdReadNack else p.cmdReadAck := by
  have hlast : (i : Int) = (m.len : Int) - 1 ↔ i + 1 = m.len := by omega
  unfold readCommand
  simp only [hlast, h, Bool.false_eq_true, false_and, not_false_eq_true, and_true]
  split <;> rfl

/-- A byte stored at place `i`, before the bytes stored from `i + 1` on. -/
theorem store_then_rest {buf : List Byte} {i : Nat} (h : i < buf.length) (b : Byte) (bytes : List Byte) :
    (buf.set i b).take (i + 1) ++ bytes ++ (buf.set i b).drop (i + 1 + bytes.length)
      = buf.take i ++ b :: bytes ++ buf.drop (i + (b :: bytes).length) := by
  have hlater : i < i + 1 + bytes.length := by omega
  rw [List.take_add_one, List.take_set_of_le (Nat.le_refl i), List.getElem?_set_self h, List.drop_set_of_lt hlater]
  simp [Nat.add_assoc, Nat.add_comm 1]

/-- From the tail of a step on, with the bytes of `pairs` still to come from place `i`: a read command for each, then STOP. -/
theorem runAll_reads {s : State} {more : List Byte} (pairs : List (Byte × Byte)) :
    ∀ (u : State) (m : Message) (buf : List Byte) (i : Nat) (ws : List (RegId × Byte)), OnMessage u m .read i →
      m.recvlen = false → m.buf = some buf → i + pairs.length ≤ buf.length → m.len = i + pairs.length →
      (∀ vb ∈ pairs, s.params.al vb.1 = false) → Session s more u (pairs.flatMap fun vb => [vb.1, vb.2]) ws →
      RunsTo s more (List.replicate pairs.length .step) ((stepTail u).returns (.mark .goesOn))
        { m with buf := some (buf.take i ++ pairs.map (·.2) ++ buf.drop (i + pairs.length)) }
        (ws ++ (readLines s.params m.len i pairs.length ++ [(.cmd, s.params.cmdStop)])) := by
  induction pairs with
  | nil =>
    intro u m buf i ws hm _ hbuf _ hlen _ h
    have hsame : { m with buf := some (buf.take i ++ [] ++ buf.drop (i + 0)) } = m := by simp [← hbuf]
    exact hsame ▸ stepTail_ended hm hlen.symm h _
  | cons vb pairs ih =>
    intro u m buf i ws hm hrecvlen hbuf hroom hlen hgood h
    obtain ⟨v, b⟩ := vb
    obtain ⟨hal, hgood⟩ := List.forall_mem_cons.1 hgood
    simp only [List.length_cons] at hlen hroom
    obtain ⟨hmw, hsent⟩ := stepTail_asks hm (by omega) h (.mark .goesOn)
    obtain ⟨u', htaken, hmu, hnext⟩ := taken_received hmw hrecvlen hbuf hsent hal
    have hrun := ih u' _ (buf.set i b) (i + 1) _ hmu hrecvlen rfl (by simp; omega) (by simp; omega) hgood hnext
    have hstored := store_then_rest (show i < buf.length by omega) b (pairs.map (·.2))
    rw [List.length_map] at hstored
    rw [cmdByte_readCommand hrecvlen, hstored] at hrun
    simpa [readLines, List.range'_succ, List.replicate_succ] using hrun.step_taken hsent.level htaken

/-! ### The two programs -/

/-- The address byte is the address shifted past the direction bit, cut to a byte (30_encoding.md R97). -/
theorem addrByte_eq (m : Message) : addrByte m = BitVec.ofNat 8 (2 * m.addr + m.rd.toNat) := by
  apply BitVec.eq_of_toNat_eq
  have hlt : m.rd.toNat < 2 := m.rd.toNat_lt
  have hrd : (if m.rd then 1 else 0) = m.rd.toNat := by cases m.rd <;> rfl
  rw [addrByte, hrd, BitVec.toNat_ofNat, BitVec.toNat_ofNat]
  omega

/-- Settles O36: the message is armed, and each step sends a byte; the last sends STOP. -/
theorem writeMessageRunsToDone : Obligations.WriteMessageRunsToDone := by
  intro s l o bytes spare stat ctrl stats more h hphase hclaim hfail hlock haddr hbuf hlen hal hstats hgood ha
  let m : Message := { addr := o.addr, rd := false, nostart := false, recvlen := l, len := o.len, buf := o.buf }
  have hm : m.legal false = true := by simp [m, Message.legal, haddr, hbuf, hlen, capOf]
  obtain ⟨v, stats, rfl⟩ := List.exists_cons_of_length_eq_add_one hstats
  obtain ⟨⟨hv, hack⟩, hgood⟩ := List.forall_mem_cons.1 hgood
  obtain ⟨t, hexec, hmt, hsession⟩ := exec_message_armed h hphase hclaim hfail hlock hm hal ha
  obtain ⟨u, htaken, hmu, hnext⟩ := taken_acknowledged hmt (.inl rfl) (by simp [m, hbuf]) hsession hv hack
  have hrun := runAll_sends rfl hbuf bytes u 0 stats _ hmu rfl (by simp [m, hlen]) (by simpa using hstats) hgood hnext
  obtain ⟨t', hrun', hended, hsession'⟩ := hrun.step_taken hsession.level htaken
  refine ⟨t', (runAll_cons hexec _).trans hrun', hended.phase, hended.err, hended.completion, ?_⟩
  rw [hsession'.writesSince_eq, addrByte_eq m]
  simp [m, writeLines]

/-- Settles O37: the message is armed, and each step after the first takes a byte; the last sends STOP. -/
theorem readMessageRunsToDone : Obligations.ReadMessageRunsToDone := by
  intro s o old stat ctrl stat0 pairs more h hphase hclaim hfail hlock haddr hbuf hlen hroom hal hal0 hack hgood ha
  let m : Message := { addr := o.addr, rd := true, nostart := false, recvlen := false, len := o.len, buf := o.buf }
  have hm : m.legal false = true := by simp [m, Message.legal, haddr, hbuf, hlen, hroom, capOf]
  obtain ⟨t, hexec, hmt, hsession⟩ := exec_message_armed h hphase hclaim hfail hlock hm hal ha
  obtain ⟨u, htaken, hmu, hnext⟩ := taken_acknowledged hmt (.inl rfl) (by simp [m, hbuf]) hsession hal0 hack
  have hrun := runAll_reads pairs u m old 0 _ hmu rfl hbuf (by simpa using hroom) (by simp [m, hlen]) hgood hnext
  obtain ⟨t', hrun', hended, hsession'⟩ := hrun.step_taken hsession.level htaken
  refine ⟨t', (runAll_cons hexec _).trans hrun', hended.phase, hended.err, hended.completion, ?_, ?_⟩
  · simpa [m] using hended.msgs
  · rw [hsession'.writesSince_eq, addrByte_eq m]
    simp [m, readLines, hlen, List.range_eq_range']

end Sys2Proof.Machine
end

section
/-! The sequencer, recovery and arm do not look at the bookkeeping of the contexts around them (lock, claim, pending work, results,
schedule): beside any other bookkeeping they do the same. -/

namespace Sys2Proof.Machine

/-- The block of `s`, with the bookkeeping of `h` around it. -/
def State.beside (s h : State) : State :=
  { s with
    configured := h.configured, configureFailed := h.configureFailed, lock := h.lock, claim := h.claim, todo := h.todo,
    irqWaiting := h.irqWaiting, ret := h.ret, irqRet := h.irqRet, t0Irq := h.t0Irq, t0Poll := h.t0Poll,
    schedule := h.schedule }

variable (s h : State)

@[simp] theorem beside_params : (s.beside h).params = s.params := rfl
@[simp] theorem beside_mode : (s.beside h).mode = s.mode := rfl
@[simp] theorem beside_phase : (s.beside h).phase = s.phase := rfl
@[simp] theorem beside_position : (s.beside h).position = s.position := rfl
@[simp] theorem beside_current : (s.beside h).current = s.current := rfl
@[simp] theorem beside_t0Recovery : (s.beside h).t0Recovery = s.t0Recovery := rfl
@[simp] theorem getreg_beside (id : RegId) : getreg id (s.beside h) = ((getreg id s).1, (getreg id s).2.beside h) := rfl
@[simp] theorem readClock_beside : readClock (s.beside h) = ((readClock s).1, (readClock s).2.beside h) := rfl

/-! ### The sequencer -/

theorem issueWrite_beside (m : Message) : issueWrite m (s.beside h) = (issueWrite m s).beside h := by
  unfold issueWrite readBuf
  rw [beside_position]
  cases m.byteAt s.position <;> rfl

theorem issue_beside (m : Message) : issue m (s.beside h) = (issue m s).beside h := by
  unfold issue
  rw [beside_phase, issueRead_eq, issueRead_eq, issueWrite_beside]
  split <;> rfl

theorem nextMessage_beside : nextMessage (s.beside h) = (nextMessage s).beside h := by
  unfold nextMessage
  rw [beside_current]
  split
  · rfl
  · next m _ =>
    split
    · exact issue_beside { s with phase := m.dirPhase } h m
    · rfl

theorem stepTail_beside : stepTail (s.beside h) = (stepTail s).beside h := by
  unfold stepTail
  rw [beside_current, beside_position]
  split
  · rfl
  · next m _ =>
    split
    · exact nextMessage_beside { s with cursor := s.cursor + 1, position := 0 } h
    · exact issue_beside s h m

theorem acknowledge_beside (m : Message) (stat : Byte) : acknowledge m stat (s.beside h) = (acknowledge m stat s).beside h := by
  unfold acknowledge
  rw [beside_params]
  split
  · rfl
  · exact stepTail_beside { s with phase := m.dirPhase } h

theorem receive_beside (m : Message) (b : Byte) : receive m b (s.beside h) = (receive m b s).beside h := by
  let stored : State := { s.modifyCurrent (·.storeByte s.position b) with position := s.position + 1 }
  unfold receive
  dsimp only
  rw [beside_position]
  split
  · split
    · rfl
    · exact stepTail_beside (stored.modifyCurrent fun m => { m with len := m.len + b.toNat }) h
  · exact stepTail_beside stored h

theorem event_beside (stat : Byte) : event stat (s.beside h) = (event stat s).beside h := by
  unfold event
  rw [beside_params, beside_current, beside_phase, getreg_beside]
  split
  · rfl
  · split
    · rfl
    · split
      · rfl
      · split
        · exact receive_beside _ h _ _
        · exact acknowledge_beside s h _ stat

theorem seqStep_beside : seqStep (s.beside h) = ((seqStep s).1, (seqStep s).2.beside h) := by
  unfold seqStep process
  rw [getreg_beside, beside_phase, event_beside]
  split <;> rfl

/-! ### Recovery -/

theorem recoverMask_beside : recoverMask (s.beside h) = (recoverMask s).beside h := by
  unfold recoverMask
  rw [beside_mode]
  split <;> rfl

theorem recoverPass_beside : recoverPass (s.beside h) = ((recoverPass s).1, (recoverPass s).2.beside h) := by
  unfold recoverPass
  rw [getreg_beside, beside_params, beside_t0Recovery]
  dsimp only
  split
  · rw [readClock_beside]
    dsimp only
    split <;> rfl
  · rfl

theorem recoverForce_beside : recoverForce (s.beside h) = ((recoverForce s).1, (recoverForce s).2.beside h) := by
  unfold recoverForce
  rw [recoverMask_beside]
  exact recoverPass_beside { (readClock (sendCmd .recover (recoverMask s))).2 with t0Recovery := some _ } h

theorem recover_beside : recover (s.beside h) = ((recover s).1, (recover s).2.beside h) := by
  unfold recover
  simp only [getreg_beside, beside_params, recoverForce_beside]
  split <;> rfl

/-- Recovery keeps the bookkeeping it finds. -/
theorem beside_recover : (recover s).2.beside s = (recover s).2 := by
  rcases recover_cases s with ⟨-, e, t0, -, heq⟩ | ⟨-, e, t0, heq⟩ <;> rw [heq] <;> rfl

/-! ### Recovery and arm beside one change -/

/-- Recovery under the lock is recovery, with the lock held. -/
theorem recover_acquire (w : Lock) : recover (acquire w s) = ((recover s).1, acquire w (recover s).2) := by
  have hlocked : (recover s).2.beside (acquire w s) = acquire w (recover s).2 := congrArg (acquire w) (beside_recover s)
  rw [← hlocked]
  exact recover_beside s (acquire w s)

/-- A step whose caller has been answered something else before it. -/
theorem seqStep_returns (r : Ret) : seqStep (s.returns r) = ((seqStep s).1, (seqStep s).2.returns r) := by
  have hreturns : (seqStep s).2.beside (s.returns r) = (seqStep s).2.returns r := by
    rw [seqStep_frame s]
    rfl
  rw [← hreturns]
  exact seqStep_beside s (s.returns r)

theorem recover_configureFailed (failed : Bool) :
    recover { s with configureFailed := failed } = ((recover s).1, { (recover s).2 with configureFailed := failed }) := by
  have hfailed : (recover s).2.beside { s with configureFailed := failed }
      = { (recover s).2 with configureFailed := failed } :=
    congrArg (fun t : State => { t with configureFailed := failed }) (beside_recover s)
  rw [← hfailed]
  exact recover_beside s { s with configureFailed := failed }

theorem armTail_configureFailed (failed : Bool) (owner : Claim) (l : MsgList) :
    armTail owner l { s with configureFailed := failed } = { armTail owner l s with configureFailed := failed } := by
  unfold armTail
  dsimp only
  split <;> rfl

/-- arm does not look at whether a configure has failed (log 14). -/
theorem arm_configureFailed (failed : Bool) (owner : Claim) (l : MsgList) :
    arm owner l { s with configureFailed := failed } = { arm owner l s with configureFailed := failed } := by
  have hacquire : acquire .initiator { s with configureFailed := failed }
      = { acquire .initiator s with configureFailed := failed } := rfl
  unfold arm
  dsimp only
  split
  · rw [hacquire, recover_configureFailed]
    dsimp only
    split
    · exact armTail_configureFailed _ failed owner l
    · rfl
  · rfl

end Sys2Proof.Machine
end

section
/-! Submission and arm (44_adapters.md R200 to R202, R207, R208): what validate, submit, arm and report answer, and the
operations that are refused. -/

namespace Sys2Proof

open Machine

/-- What was accessed is a matter of the environment alone. -/
theorem Accessed.of_env {s t u : State} {evs : List Event} (h : Accessed s t evs) (he : u.env = t.env) :
    Accessed s u evs := by
  unfold Accessed at *
  rwa [he]

end Sys2Proof

namespace Sys2Proof.Machine

/-! ### validate -/

/-- A message after the first is one of the list's tail (R201). -/
theorem mem_tail_iff {l : List Message} {m : Message} : m ∈ l.tail ↔ ∃ i, 1 ≤ i ∧ l[i]? = some m := by
  simp only [List.mem_iff_getElem?, List.getElem?_tail]
  constructor
  · rintro ⟨i, hi⟩
    exact ⟨i + 1, by omega, hi⟩
  · rintro ⟨i, hpos, hi⟩
    exact ⟨i - 1, by rwa [Nat.sub_add_cancel hpos]⟩

theorem validateFails_some_iff (l : List Message) : validateFails (some l) = true ↔
    l.length = 0 ∨ (∃ m ∈ l, m.buf = none) ∨ (∃ m ∈ l, 0x7F < m.addr) ∨ (∃ m ∈ l, m.cap < m.len)
      ∨ (∃ m ∈ l, m.recvlen = true ∧ m.rd = true ∧ m.cap < m.len + 32)
      ∨ ∃ i m, 1 ≤ i ∧ l[i]? = some m ∧ m.nostart = true ∧ m.len = 0 := by
  have hlater : (∃ m ∈ l.tail, m.nostart = true ∧ m.len = 0)
      ↔ ∃ i m, 1 ≤ i ∧ l[i]? = some m ∧ m.nostart = true ∧ m.len = 0 := by
    simp only [mem_tail_iff]
    grind
  rw [← hlater]
  simp only [validateFails, Bool.or_eq_true, List.any_eq_true, Bool.and_eq_true, decide_eq_true_eq, List.isEmpty_iff,
    List.length_eq_zero_iff, Option.isNone_iff_eq_none, and_assoc, or_assoc]
  exact Iff.rfl

/-- Settles O38: the answer is the negation of validateFails, which the rule's conditions spell out. -/
theorem validateChecksTheList : Obligations.ValidateChecksTheList := by
  intro s msgs
  refine ⟨!validateFails msgs, rfl, ?_⟩
  rw [Bool.not_eq_false']
  cases msgs with
  | none => exact iff_true_intro rfl
  | some l => exact validateFails_some_iff l

/-! ### Lists that are not armed, operations that are refused -/

/-- Settles O39: a list that is not legal is one that validate refuses. -/
theorem malformedListsAreNotArmed : Obligations.MalformedListsAreNotArmed := by
  intro s msgs hclaim hfail hl
  have hrefused : validateFails msgs = true := by rw [validateFails_eq, hl]; rfl
  exact ⟨fun hconf => exec_submit_malformed hrefused hconf hfail hclaim, exec_arm_malformed hrefused hfail hclaim⟩

section

variable {s : State}

theorem exec_configure_open (hconf : s.configured = false) (hfail : s.configureFailed = false) (hclaim : s.claim ≠ .free)
    (cfg : Surface) : exec (.configure cfg) s = .refused .transactionOpen := by
  simp [exec, execConfigure, hconf, hfail, hclaim]

/-- No second transaction while one is not yet reported (R200, R208). -/
theorem exec_submit_active (hconf : s.configured = true) (hfail : s.configureFailed = false) (hclaim : s.claim ≠ .free)
    (l : MsgList) : exec (.submit l) s = .refused .submissionActive := by
  simp [exec, execSubmit, hconf, hfail, hclaim]

theorem exec_arm_active (hfail : s.configureFailed = false) (hclaim : s.claim ≠ .free) (l : MsgList) :
    exec (.arm l) s = .refused .submissionActive := by
  simp [exec, execArm, hfail, hclaim]

/-- A failed configure leaves the block unusable (70_reset_and_hazards.md R292). -/
theorem exec_arm_unusable (hfail : s.configureFailed = true) (l : MsgList) : exec (.arm l) s = .refused .unusable :=
  if_pos hfail

theorem exec_message_unusable (hfail : s.configureFailed = true) (m : Message) : exec m.instr s = .refused .unusable := by
  rw [exec_messageInstr]
  exact if_pos hfail

/-- A submitted list is the block's (20_memory.md R80). -/
theorem exec_message_listOwned (hfail : s.configureFailed = false) (hclaim : s.claim = .submission) (m : Message) :
    exec m.instr s = .refused .listOwned := by
  simp [exec_messageInstr, runMessage, hfail, hclaim]

theorem exec_message_active (hfail : s.configureFailed = false) (hclaim : s.claim = .program)
    (hphase : s.phase.terminal = true) (m : Message) : exec m.instr s = .refused .submissionActive := by
  simp [exec_messageInstr, runMessage, hfail, hclaim, hphase]

end

/-- Settles O19: each operation by the first of its guards that fails. -/
theorem refusedByTheSpec : Obligations.RefusedByTheSpec := by
  intro s
  refine ⟨fun cfg h => exec_configure_again h cfg, fun cfg hconf hfail hclaim => exec_configure_open hconf hfail hclaim cfg,
    fun l h => exec_submit_unconfigured h l, fun hfail => ⟨exec_arm_unusable hfail, exec_message_unusable hfail⟩,
    fun hfail => ⟨fun l hconf hclaim => exec_submit_active hconf hfail hclaim l,
      fun l hclaim => exec_arm_active hfail hclaim l, fun hinv hreport l => ?_,
      fun m hclaim => exec_message_listOwned hfail hclaim m,
      fun m hclaim hphase => exec_message_active hfail hclaim hphase m⟩⟩
  have hclaim := claim_of_report hinv hreport
  exact ⟨fun hconf => exec_submit_active hconf hfail hclaim l, exec_arm_active hfail hclaim l⟩

/-! ### arm -/

/-- What arm still has to do once recovery has returned (R202): CONTROL by mode, the address byte and START. -/
theorem armTail_starts {s : State} (h : s.env.level = .oracle) (owner : Claim) (m : Message) (rest : List Message) :
    ∃ ev ctrl, ev.readOf s .control ctrl
      ∧ Accessed s (armTail owner (some (m :: rest)) s) [ev,
          wEvent s .control (if s.mode = .interrupt then ctrl ||| s.params.ctrlIen else ctrl &&& ~~~s.params.ctrlIen),
          wEvent s .data (addrByte m), cEvent s .start]
      ∧ armTail owner (some (m :: rest)) s = { s with
          msgs := some (m :: rest), cursor := 0, position := 0, phase := .start, err := .none, completion := false,
          claim := owner, lock := .free, ret := .nothing, env := (armTail owner (some (m :: rest)) s).env } := by
  obtain ⟨ev, hread, hcontrol⟩ := (TrustedRun.refl h).getreg .control
  have hrun : TrustedRun s (sendAddress m (setIen s)) [ev,
      wEvent s .control (s.params.ctrlForMode s.mode (getreg .control s).1), wEvent s .data (addrByte m), cEvent s .start] :=
    ((hcontrol.setreg .control _).setreg .data (addrByte m)).sendCmd .start
  rw [ctrlForMode_eq] at hrun
  rw [armTail_eq]
  exact ⟨ev, _, hread, hrun.accessed.of_env rfl, rfl⟩

/-- Settles O40: a legal list is armed, and with no arbitration lost arm goes through at once. -/
theorem armStartsTheTransaction : Obligations.ArmStartsTheTransaction := by
  intro s m l h hclaim hfail hl hlock hal
  have harm := exec_arm_starts hfail hclaim hl
  rw [conclude_trusted h, startTransaction_notLost hlock hal] at harm
  obtain ⟨e1, e2, ctrl, hstatus, hcontrol, hrun⟩ := armAccesses_run h m
  rw [ctrlForMode_eq] at hrun
  exact ⟨_, e1, e2, ctrl, harm, hstatus, hcontrol, hrun.accessed.of_env rfl, rfl⟩

/-- The call of recover: its own return, or the frame of its wait (45_recovery.md R230, R235). -/
theorem exec_recover {s : State} (h : s.env.level = .oracle) : exec .recover s
    = .next (if (recover s).1 then (recover s).2.returns .nothing else push .recoverWait (recover s).2) :=
  conclude_trusted h _

/-! ### arm after recovery -/

section

variable (s : State)

theorem recoverMask_level : (recoverMask s).env.level = s.env.level := by
  unfold recoverMask
  split
  · rw [setreg_level, getreg_level]
  · rfl

theorem recoverPass_level : (recoverPass s).2.env.level = s.env.level := by
  have hread : (getreg .cmd s).2.env.level = s.env.level := getreg_level .cmd s
  have hclock : (readClock (getreg .cmd s).2).2.env.level = s.env.level :=
    (readClock_accessed (getreg .cmd s).2).level.trans hread
  unfold recoverPass recoverClear
  dsimp only
  split
  · split
    · exact (sendCmd_level ..).trans hclock
    · exact hclock
  · exact (sendCmd_level ..).trans hread

/-- Recovery stays with the environment it began with. -/
theorem recover_level : (recover s).2.env.level = s.env.level := by
  unfold recover
  dsimp only
  split
  · have hforce : (sendCmd .recover (recoverMask (getreg .cmd s).2)).env.level = s.env.level := by
      rw [sendCmd_level, recoverMask_level, getreg_level]
    exact (recoverPass_level _).trans ((readClock_accessed _).level.trans hforce)
  · exact getreg_level .cmd s

end

/-- Recovery leaves the configuration as it was. -/
theorem recover_config (s : State) :
    (recover s).2.params = s.params ∧ (recover s).2.dev = s.dev ∧ (recover s).2.mode = s.mode := by
  rcases recover_cases s with ⟨-, e, t0, -, heq⟩ | ⟨-, e, t0, heq⟩ <;> rw [heq] <;> exact ⟨rfl, rfl, rfl⟩

theorem exec_arm_trusted {s : State} {l : MsgList} (h : s.env.level = .oracle) (hfail : s.configureFailed = false)
    (hclaim : s.claim = .free) (hl : listLegal l = true) : exec (.arm l) s = .next (startTransaction .submission l s) :=
  (exec_arm_starts hfail hclaim hl).trans (conclude_trusted h _)

/-- Settles O41: arm is recovery under the lock, then its own tail or the frames of the wait. -/
theorem armRecoversFirst : Obligations.ArmRecoversFirst := by
  intro s m l h hclaim hfail hl
  have harm := exec_arm_trusted h hfail hclaim hl
  refine ⟨fun r hlock _ hr => ?_, fun hlock => ?_⟩
  · rw [startTransaction_free hlock, recover_acquire] at harm
    rw [exec_recover h, Host.Outcome.next.injEq] at hr
    cases hover : (recover s).1 with
    | true =>
      rw [if_pos hover] at harm hr
      subst hr
      refine ⟨fun _ => ?_, fun hne => absurd (recover_todo s) hne⟩
      obtain ⟨ev, ctrl, hread, haccessed, hstate⟩ :=
        armTail_starts (s := acquire .initiator (recover s).2) ((recover_level s).trans h) .submission m l
      obtain ⟨hparams, hdev, hmode⟩ := recover_config s
      simp only [Event.readOf, wEvent, cEvent, acquire_params, acquire_dev, acquire_mode, hparams, hdev, hmode]
        at hread haccessed
      have hfree : (recover s).2.lock = .free := (congrArg State.lock (beside_recover s)).symm.trans hlock
      refine ⟨_, ev, ctrl, harm, hread, haccessed, hstate.trans ?_⟩
      apply State.ext
      case lock => exact hfree.symm
      all_goals rfl
    | false =>
      rw [if_neg (by simp [hover])] at harm hr
      subst hr
      have hlonger : (push .recoverWait (recover s).2).todo ≠ s.todo := by simp [recover_todo]
      exact ⟨fun heq => absurd heq hlonger, fun _ => harm⟩
  · rw [startTransaction, arm, if_neg hlock] at harm
    exact harm

/-! ### submit -/

/-- The transaction is claimed, and what was pending stays pending under what arm leaves. -/
theorem startTransaction_pending (owner : Claim) (m : Message) (rest : List Message) (s : State) :
    (startTransaction owner (some (m :: rest)) s).claim = owner
      ∧ ∃ w, (startTransaction owner (some (m :: rest)) s).todo = w ++ s.todo := by
  by_cases hlock : s.lock = .free
  · rw [startTransaction_free hlock]
    split
    · rw [armTail_eq]
      exact ⟨rfl, [], recover_todo (acquire .initiator s)⟩
    · exact ⟨rfl, [_, _], rfl⟩
  · rw [startTransaction, arm, if_neg hlock]
    exact ⟨rfl, [_], rfl⟩

/-- Settles O42: submit arms with its two frames put under. -/
theorem submitArmsThenWaits : Obligations.SubmitArmsThenWaits := by
  intro s msgs h hconf hfail hclaim hl
  match msgs, hl with
  | some (m :: rest), hl =>
    have hsubmit : exec (.submit (some (m :: rest))) s
        = conclude s (startTransaction .submission (some (m :: rest)) (push .launch (push .report s))) := by
      simp [exec, execSubmit, hconf, hfail, hclaim, validateFails_eq, hl]
    have harm := exec_arm_trusted (s := push .launch (push .report s)) h hfail hclaim hl
    rw [conclude_trusted h] at hsubmit
    exact ⟨_, hsubmit, harm, startTransaction_pending .submission m rest (push .launch (push .report s))⟩

/-! ### report -/

theorem exec_report (s : State) : exec .report s = .next (report s) := rfl

/-- The answer of report: the messages on success, else the error class (R207). -/
def State.reported (s : State) : Ret := if s.phase = .done ∧ s.err = .none then .result s.msgs .none else .result none s.err

theorem report_ends {s : State} (hphase : s.phase.terminal = true) (hreturned : s.unreturned = false) :
    report s = { s with ret := s.reported, msgs := none, claim := .free } := by
  simp [report, State.reported, hphase, hreturned]

/-- Before the end, and while a submit or an arm has not returned, report answers only (log 15). -/
theorem report_answers {s : State} (h : s.phase.terminal = false ∨ s.unreturned = true) :
    report s = { s with ret := s.reported } := by
  rcases h with h | h <;> simp [report, State.reported, State.returns, h]

theorem unreturned_of_mem {s : State} {f : Frame} (hf : f ∈ s.todo)
    (h : f = .report ∨ ∃ owner l, f = .armStart owner l ∨ f = .armTail owner l) : s.unreturned = true := by
  refine List.any_eq_true.2 ⟨f, hf, ?_⟩
  rcases h with rfl | ⟨owner, l, rfl | rfl⟩ <;> rfl

/-- Settles O52: the answer looks at State and the error latch, the end of the transaction at State and the pending work. -/
theorem reportHandsBackTheResult : Obligations.ReportHandsBackTheResult := by
  intro s
  simp only [exec_report]
  refine ⟨fun hreturned => ⟨fun hdone herr => ?_, fun hfailed => ?_⟩, fun hrunning => ?_, fun ⟨f, hf, hkind⟩ => ?_⟩
  · rw [report_ends (Phase.terminal_iff.2 (.inl hdone)) hreturned, State.reported, if_pos ⟨hdone, herr⟩]
  · have hanswer : ¬(s.phase = .done ∧ s.err = .none) := by
      rcases hfailed with herror | ⟨-, herr⟩
      · simp [herror]
      · simp [herr]
    rw [report_ends (Phase.terminal_iff.2 (hfailed.symm.imp And.left id)) hreturned, State.reported, if_neg hanswer]
  · have hdone : s.phase ≠ .done := fun hdone => by simp [hdone, Phase.terminal] at hrunning
    rw [report_answers (.inl hrunning), State.reported, if_neg fun h => hdone h.1]
  · rw [report_answers (.inr (unreturned_of_mem hf hkind)), State.reported]
    split
    · next hok => rw [hok.2]
    · rfl

end Sys2Proof.Machine
end

section
/-! Whose move it is (44_adapters.md R211; log 3), and the two scheduling adapters (R203 to R206, R215, R216): a later look or pass
of a wait is the one its call makes, taken up at the initiator's turn. -/

namespace Sys2Proof.Machine

/-! ### The turns -/

/-- At its turn the initiator goes on at its next frame. -/
theorem step_initiatorTurn {s : State} {moves : List Move} {f : Frame} {rest : List Frame} (h : InitiatorTurn s moves)
    (hf : s.todo = f :: rest) : step s = conclude s (resumeFrame f { s with schedule := moves, todo := rest }) := by
  rcases h with ⟨hs, rfl⟩ | hs
  · simp [step, hs, idleMove, hf]
  · simp only [step, hs, resumeInitiator, hf]

/-- A frame that stays is put back where it was. -/
theorem push_unpushed {s : State} {f : Frame} {rest : List Frame} (hf : s.todo = f :: rest) (moves : List Move) :
    push f { s with schedule := moves, todo := rest } = { s with schedule := moves } := by
  simp [push, hf]

/-! ### irq_entry -/

/-- Settles O45: with the lock free irq_entry is one step, or one STATUS read. -/
theorem irqEntryTestsItsFlag : Obligations.IrqEntryTestsItsFlag := by
  intro s h
  have hentry : exec .irqEntry s = .next (irqEntry s) := conclude_trusted h _
  refine ⟨fun hlock hflag => ?_, fun hlock hflag => ?_, fun hlock => ?_⟩
  · obtain ⟨ev, hread, hrun⟩ := statusRead_run h
    have hnotMine : irqEntry s = { (getreg .cmd s).2 with irqRet := some .notMine } :=
      (if_pos hlock).trans ((irqLocked_eq hlock).trans (if_neg (ne_true_of_eq_false hflag)))
    rw [hnotMine] at hentry
    exact ⟨_, ev, hentry, hread, hrun.accessed.of_env rfl, rfl⟩
  · have hhandled : irqEntry s = { (seqStep s).2 with irqRet := some .handled } :=
      (if_pos hlock).trans ((irqLocked_eq hlock).trans (if_pos hflag))
    have hret : (seqStep s).2.ret = s.ret := by rw [seqStep_frame s]
    refine ⟨_, exec_step h, ?_⟩
    rw [hentry, hhandled, ← hret]
    rfl
  · rw [hentry, irqEntry, if_neg hlock]

/-! ### wait_irq -/

/-- One look of the suspended initiator (R204). -/
theorem suspendedLook_spec {s : State} {t0 : Nat} (ht0 : s.t0Irq = some t0) :
    ∃ t, suspendedLook s = t ∧ AccessedInTime s t []
      ∧ t = if s.phase.terminal = true then { s with t0Irq := none, ret := .nothing, env := t.env }
            else if s.params.tIrqWait ≤ t.env.now - t0
            then { s with todo := .abort :: s.todo, t0Irq := none, env := t.env }
            else { s with todo := .suspended :: s.todo, env := t.env } := by
  by_cases hphase : s.phase.terminal = true
  · refine ⟨_, if_pos hphase, (Accessed.refl s).inTime, ?_⟩
    rw [if_pos hphase]
  · have hlook : suspendedLook s = if s.params.tIrqWait ≤ (readClock s).2.env.now - t0
        then push .abort { (readClock s).2 with t0Irq := none } else push .suspended (readClock s).2 := by
      rw [suspendedLook, if_neg hphase]
      dsimp only
      rw [ht0, Option.getD_some, readClock_now]
    have hclock := readClock_accessed s
    rw [hlook]
    by_cases hbound : s.params.tIrqWait ≤ (readClock s).2.env.now - t0
    · refine ⟨_, if_pos hbound, hclock, ?_⟩
      rw [if_neg hphase]
      exact (if_pos hbound).symm
    · refine ⟨_, if_neg hbound, hclock, ?_⟩
      rw [if_neg hphase]
      exact (if_neg hbound).symm

/-- Settles O47: the call reads the clock for its origin and takes a look, and every later turn takes a look. -/
theorem waitIrqLooksAtStateThenTime : Obligations.WaitIrqLooksAtStateThenTime := by
  refine ⟨fun s h => ?_, fun s moves rest t0 h hturn hf ht0 => ?_⟩
  · let u : State := { (readClock s).2 with t0Irq := some (readClock s).1 }
    have hclock : AccessedInTime s u [] := readClock_accessed s
    have hlater := (readClock_shape s).2
    obtain ⟨t, hlook, haccessed, hstate⟩ := suspendedLook_spec (s := u) rfl
    have hnow : (readClock s).1 ≤ t.env.now := (readClock_now s).symm.le.trans haccessed.1
    exact ⟨t, (readClock s).1, (conclude_trusted h _).trans (congrArg _ hlook), hlater, hnow, hclock.trans haccessed, hstate⟩
  · obtain ⟨t, hlook, haccessed, hstate⟩ := suspendedLook_spec (s := { s with schedule := moves, todo := rest }) ht0
    refine ⟨t, ?_, haccessed, ?_⟩
    · rw [step_initiatorTurn hturn hf, conclude_trusted h]
      exact congrArg _ hlook
    · rw [← hf] at hstate
      exact hstate

/-! ### poll_wait -/

/-- What a pass of poll_wait reads decides how it goes on, whoever gets its answer (R206). -/
theorem pollPass_spec (mask : Byte) (bound : Nat) {s : State} (h : s.env.level = .oracle) {t0 : Nat}
    (ht0 : s.t0Poll = some t0) :
    ∃ u ev v, ev.readOf s .cmd v ∧ AccessedInTime s u [ev] ∧ u = { s with env := u.env }
      ∧ ∀ k, pollPass mask bound k s = if v &&& mask = 0 then waitEnds true k u
          else if bound < u.env.now - t0 then waitEnds false k u
          else push (.pollWaiting mask bound k) u := by
  obtain ⟨ev, hread, haccessed⟩ := getreg_accessed h .cmd
  by_cases hclear : (getreg .cmd s).1 &&& mask = 0
  · refine ⟨(getreg .cmd s).2, ev, _, hread, haccessed.inTime, rfl, fun k => ?_⟩
    rw [if_pos hclear]
    simp [pollPass, isSet, hclear]
  · have hclock := haccessed.inTime.trans (readClock_accessed (getreg .cmd s).2)
    refine ⟨(readClock (getreg .cmd s).2).2, ev, _, hread, hclock, rfl, fun k => ?_⟩
    have hset : isSet (getreg .cmd s).1 mask = true := by simpa [isSet] using hclear
    rw [if_neg hclear, readClock_now]
    simp [pollPass, hset, ht0]

/-- A pass of a poll_wait that was called directly (R206). -/
theorem pollPass_alone (mask : Byte) (bound : Nat) {s : State} (h : s.env.level = .oracle) {t0 : Nat}
    (ht0 : s.t0Poll = some t0) :
    ∃ t ev v, pollPass mask bound .alone s = t ∧ ev.readOf s .cmd v ∧ AccessedInTime s t [ev]
      ∧ t = if v &&& mask = 0 then { s with t0Poll := none, ret := .waited true, env := t.env }
            else if bound < t.env.now - t0 then { s with t0Poll := none, ret := .waited false, env := t.env }
            else { s with todo := .pollWaiting mask bound .alone :: s.todo, env := t.env } := by
  obtain ⟨u, ev, v, hread, haccessed, hu, hpass⟩ := pollPass_spec mask bound h ht0
  rw [hpass .alone]
  by_cases hclear : v &&& mask = 0
  · refine ⟨_, ev, v, if_pos hclear, hread, haccessed, ?_⟩
    rw [if_pos hclear, hu]
    rfl
  · rw [if_neg hclear]
    by_cases hbound : bound < u.env.now - t0
    · refine ⟨_, ev, v, if_pos hbound, hread, haccessed, ?_⟩
      rw [if_neg hclear, hu]
      exact (if_pos hbound).symm
    · refine ⟨_, ev, v, if_neg hbound, hread, haccessed, ?_⟩
      rw [if_neg hclear, hu]
      exact (if_neg hbound).symm

/-- Settles O48: the call reads the clock for its origin and makes a pass, and every later turn makes a pass. -/
theorem pollWaitReadsStatusFirst : Obligations.PollWaitReadsStatusFirst := by
  refine ⟨fun s mask bound h => ?_, fun s moves mask bound rest t0 h hturn hf ht0 => ?_⟩
  · let u : State := { (readClock s).2 with t0Poll := some (readClock s).1 }
    have hclock : AccessedInTime s u [] := readClock_accessed s
    have hlater := (readClock_shape s).2
    obtain ⟨t, ev, v, hpass, hread, haccessed, hstate⟩ := pollPass_alone mask bound (s := u) (hclock.level.trans h) rfl
    have hnow : (readClock s).1 ≤ t.env.now := (readClock_now s).symm.le.trans haccessed.1
    exact ⟨t, (readClock s).1, ev, v, (conclude_trusted h _).trans (congrArg _ hpass), hread, hlater, hnow,
      hclock.trans haccessed, hstate⟩
  · obtain ⟨t, ev, v, hpass, hread, haccessed, hstate⟩ :=
      pollPass_alone mask bound (s := { s with schedule := moves, todo := rest }) h ht0
    refine ⟨t, ev, v, ?_, hread, haccessed, ?_⟩
    · rw [step_initiatorTurn hturn hf, conclude_trusted h]
      exact congrArg _ hpass
    · rw [← hf] at hstate
      exact hstate

/-! ### poll_loop -/

/-- poll_loop's locked step in terms of the call of step: it ends the loop if it found State terminal (R205, R215). -/
theorem pollStep_of_step {s u : State} (h : s.env.level = .oracle) (hlock : s.lock = .free) (hu : exec .step s = .next u) :
    pollStep s = if s.phase.terminal = true then { u with ret := .nothing }
      else { u with todo := .pollTop :: s.todo, ret := s.ret } := by
  rw [exec_step h, Host.Outcome.next.injEq] at hu
  subst hu
  have hframe := seqStep_frame s
  rw [pollStep_eq hlock]
  by_cases hphase : s.phase.terminal = true
  · rw [if_pos hphase, if_pos (by rw [seqStep_terminal hphase])]
    rfl
  · have hrunning := Bool.eq_false_iff.2 hphase
    rw [if_neg hphase, if_neg (by simp [seqStep_running hrunning])]
    rw [hframe]
    rfl

theorem exec_step_returns {s : State} (h : s.env.level = .oracle) (r : Ret) : exec .step (s.returns r) = exec .step s := by
  rw [exec_step h, exec_step (s := s.returns r) h, seqStep_returns]
  rfl

/-- poll_loop's pass goes as poll_wait's own pass `w` does: it stays in the wait, or the wait has expired, or it goes on to its
locked step (R205). -/
theorem pollPass_loop (mask : Byte) (bound : Nat) (terminal : Bool) {s : State} (h : s.env.level = .oracle) {t0 : Nat}
    (ht0 : s.t0Poll = some t0) {w : State} (hw : pollPass mask bound .alone s = w) :
    ∃ t, pollPass mask bound (.loop terminal) s = t
      ∧ if w.todo ≠ s.todo then t = { w with todo := .pollWaiting mask bound (.loop terminal) :: s.todo }
        else if w.ret ≠ .waited true then
          t = { w with todo := (if terminal then .terminalExpired else .abort) :: s.todo, ret := s.ret }
        else if s.lock ≠ .free then t = { w with todo := .pollStep :: s.todo, ret := s.ret }
        else ∃ u, exec .step w = .next u
          ∧ t = if s.phase.terminal = true then { u with ret := .nothing }
                else { u with todo := .pollTop :: s.todo, ret := s.ret } := by
  obtain ⟨u, ev, v, -, haccessed, hu, hpass⟩ := pollPass_spec mask bound h ht0
  have hlevel : u.env.level = .oracle := haccessed.level.trans h
  rw [hpass] at hw
  rw [hpass]
  generalize u.env = e at hu hlevel hw
  subst hu
  by_cases hclear : v &&& mask = 0
  · let ended : State := { s with t0Poll := none, env := e }
    rw [if_pos hclear] at hw ⊢
    have hanswered : ended.returns (.waited true) = w := hw
    have htodo : w.todo = s.todo := by rw [← hanswered]; rfl
    have hret : w.ret = .waited true := by rw [← hanswered]; rfl
    refine ⟨_, rfl, ?_⟩
    rw [if_neg (not_not.2 htodo), if_neg (not_not.2 hret), ← hanswered]
    by_cases hlock : s.lock = .free
    · have hstep := exec_step (s := ended) hlevel
      rw [if_neg (not_not.2 hlock)]
      exact ⟨_, (exec_step_returns hlevel _).trans hstep, pollStep_of_step hlevel hlock hstep⟩
    · rw [if_pos hlock]
      exact if_neg hlock
  · rw [if_neg hclear] at hw ⊢
    by_cases hbound : bound < e.now - t0
    · rw [if_pos hbound] at hw ⊢
      have htodo : w.todo = s.todo := by rw [← hw]; rfl
      have hret : w.ret ≠ .waited true := by rw [← hw]; nofun
      refine ⟨_, rfl, ?_⟩
      rw [if_neg (not_not.2 htodo), if_pos hret, ← hw]
      cases terminal <;> rfl
    · rw [if_neg hbound] at hw ⊢
      have htodo : w.todo ≠ s.todo := by rw [← hw]; simp
      refine ⟨_, rfl, ?_⟩
      rw [if_pos htodo, ← hw]
      rfl

/-- Settles O49: poll_loop's wait is a poll_wait whose answer it takes itself. -/
theorem pollLoopStepsAtABoundary : Obligations.PollLoopStepsAtABoundary := by
  refine ⟨fun s h => ?_, fun s moves mask bound terminal rest t0 h hturn hf ht0 => ?_⟩
  · let u : State := { (readClock s).2 with t0Poll := some (readClock s).1 }
    have hlevel : u.env.level = .oracle := (readClock_accessed s).level.trans h
    obtain ⟨t, hpass, hcases⟩ := pollPass_loop (s.params.pollMask s.phase.terminal) s.params.tPollWait s.phase.terminal
      (s := u) hlevel rfl rfl
    exact ⟨_, t, conclude_trusted h _, (conclude_trusted h _).trans (congrArg _ hpass), hcases⟩
  · let u : State := { s with schedule := moves, todo := rest }
    obtain ⟨t, hpass, hcases⟩ := pollPass_loop mask bound terminal (s := u) h ht0 rfl
    refine ⟨pollPass mask bound .alone u, t, ?_, ?_, hcases⟩
    · exact (step_initiatorTurn (s := { s with todo := .pollWaiting mask bound .alone :: rest }) hturn rfl).trans
        (conclude_trusted h _)
    · rw [step_initiatorTurn hturn hf, conclude_trusted h]
      exact congrArg _ hpass

/-! ### The expiry of a polling wait with State terminal -/

theorem terminalWaitExpired_free {s : State} (hlock : s.lock = .free) :
    terminalWaitExpired s = (expireLocked s).returns .nothing := by
  have hexpire : expireLocked (acquire .initiator s) = acquire .initiator (expireLocked s) := by
    unfold expireLocked
    rw [show (acquire .initiator s).err = s.err from rfl]
    split <;> rfl
  have hfree : (expireLocked s).lock = .free := by
    unfold expireLocked
    split <;> exact hlock
  rw [terminalWaitExpired, if_pos hlock, hexpire, release_acquire hfree]

/-- Settles O51: with the lock free the expiry sets an error class that is not yet latched; else it keeps its frame. -/
theorem terminalWaitExpiryKeepsTheFirstError : Obligations.TerminalWaitExpiryKeepsTheFirstError := by
  intro s moves rest h hturn hf
  rw [step_initiatorTurn hturn hf, conclude_trusted h]
  let u : State := { s with schedule := moves, todo := rest }
  refine ⟨fun hlock herr => ?_, fun hlock herr => ?_, fun hlock => ?_⟩
  · have hexpire : expireLocked u = { u with phase := .error, err := .timeout } := if_pos herr
    exact congrArg _ ((terminalWaitExpired_free (s := u) hlock).trans (congrArg (State.returns · .nothing) hexpire))
  · have hexpire : expireLocked u = u := if_neg herr
    exact congrArg _ ((terminalWaitExpired_free (s := u) hlock).trans (congrArg (State.returns · .nothing) hexpire))
  · rw [resumeFrame, terminalWaitExpired, if_neg hlock, push_unpushed hf]

end Sys2Proof.Machine
end

section
/-! The pending-event flag of the reference engine through a step (42_commands.md R152, 44_adapters.md R212): the last access of
every branch is a command, and an enabled engine that takes a command lowers the flag. -/

namespace Sys2Proof.Machine

/-- The reference engine, enabled and with no move of the environment to come, under legal parameters. -/
structure Listening (s : State) : Prop where
  level : s.env.level = .reference
  moves : s.env.moves = []
  legal : s.params.legal = true
  enabled : isSet s.env.eng.ctr s.params.ctrlEn = true

/-- The engine has refused the run, or the flag is down. -/
def FlagDown (s : State) : Prop := s.env.refusal = none → s.env.eng.ifl = false

namespace Listening

variable {s t : State}

theorem congr (h : Listening s) (hp : t.params = s.params) (hlevel : t.env.level = s.env.level)
    (hmoves : t.env.moves = s.env.moves) (hctr : t.env.eng.ctr = s.env.eng.ctr) : Listening t :=
  ⟨hlevel.trans h.level, hmoves.trans h.moves, hp ▸ h.legal, by rw [hctr, hp]; exact h.enabled⟩

theorem getreg (h : Listening s) (id : RegId) : Listening (Machine.getreg id s).2 := by
  obtain ⟨-, henv⟩ := ioRead_reference h.level s.params s.dev id
  refine h.congr rfl ?_ ?_ ?_ <;>
    · simp only [Machine.getreg, Env.read, Env.record, advance_of_still h.moves]
      rw [henv]

theorem setData (h : Listening s) (v : Byte) : Listening (Machine.setreg .data v s) := by
  refine h.congr rfl ?_ ?_ ?_ <;> simp [Machine.setreg, write_of_still h.moves, Env.store, Env.record]

theorem readBuf (h : Listening s) (m : Message) (i : Nat) : Listening (Machine.readBuf m i s).2 := by
  rw [readBuf_shape]
  exact h.congr rfl rfl rfl rfl

/-- A command that is not refused carries the acknowledge-clear (R152). -/
theorem sendCmd (h : Listening s) (c : Command) : FlagDown (Machine.sendCmd c s) := by
  have hc : s.params.commandOf (s.params.cmdByte c) = some c := (Params.commandOf_eq_some_iff h.legal _ c).2 rfl
  let e := s.env.record (wEvent s .cmd (s.params.cmdByte c))
  have henv : (Machine.sendCmd c s).env = e.store s.params .cmd (s.params.cmdByte c) :=
    write_of_still h.moves s.params s.dev .cmd _
  rw [FlagDown, henv]
  by_cases hflight : c ≠ .iack ∧ e.eng.inflight ≠ none
  · rw [store_cmd_inFlight (e := e) h.level h.enabled hc hflight]
    intro hrefusal
    simp only [Env.refuse] at hrefusal
    split at hrefusal <;> cases hrefusal
  · rw [store_cmd_accepted (e := e) h.level h.enabled hc hflight, accept_eq]
    exact fun _ => rfl

/-! ### The branches of a step -/

theorem fail (h : Listening s) (e : Err) : FlagDown (Machine.fail e s) :=
  sendCmd (s := { s with phase := .error, err := e }) (h.congr rfl rfl rfl rfl) .stop

theorem issue (h : Listening s) (m : Message) : FlagDown (Machine.issue m s) := by
  unfold Machine.issue
  split
  · rw [issueRead_eq]
    exact h.sendCmd _
  · have hwritten := (h.readBuf m s.position).setData (Machine.readBuf m s.position s).1
    exact sendCmd (hwritten.congr rfl rfl rfl rfl) .write

theorem nextMessage (h : Listening s) : FlagDown (Machine.nextMessage s) := by
  unfold Machine.nextMessage
  split
  · exact sendCmd (s := { s with phase := .done }) (h.congr rfl rfl rfl rfl) .stop
  · next m _ =>
    split
    · exact issue (s := { s with phase := m.dirPhase }) (h.congr rfl rfl rfl rfl) m
    · have hstart : Listening { s with phase := .start } := h.congr rfl rfl rfl rfl
      exact (hstart.setData (addrByte m)).sendCmd .start

theorem stepTail (h : Listening s) {m : Message} (hc : s.current = some m) : FlagDown (Machine.stepTail s) := by
  by_cases hpos : s.position = m.len
  · rw [stepTail_atEnd hc hpos]
    exact nextMessage (h.congr rfl rfl rfl rfl)
  · rw [stepTail_within hc hpos]
    exact h.issue m

theorem acknowledge (h : Listening s) {m : Message} (hc : s.current = some m) (stat : Byte) :
    FlagDown (Machine.acknowledge m stat s) := by
  unfold Machine.acknowledge
  split
  · exact h.fail .nack
  · exact stepTail (s := { s with phase := m.dirPhase }) (h.congr rfl rfl rfl rfl) hc

theorem receive (h : Listening s) {m : Message} (hc : s.current = some m) (b : Byte) : FlagDown (Machine.receive m b s) := by
  let stored : State := { s.modifyCurrent (·.storeByte s.position b) with position := s.position + 1 }
  have hstored : Listening stored := h.congr rfl rfl rfl rfl
  have hcurrent : stored.current = some (m.storeByte s.position b) := modifyCurrent_current hc _
  unfold Machine.receive
  dsimp only
  split
  · split
    · exact hstored.fail .blockLength
    · exact stepTail (hstored.congr rfl rfl rfl rfl) (modifyCurrent_current hcurrent _)
  · exact hstored.stepTail hcurrent

theorem event (h : Listening s) (stat : Byte) : FlagDown (Machine.event stat s) := by
  unfold Machine.event
  split
  · exact h.fail .arbitration
  · split
    · exact h.fail .parameter
    · next m hc =>
      split
      · exact h.fail .parameter
      · split
        · exact (h.getreg .data).receive hc _
        · exact h.acknowledge hc stat

/-- Every branch of a step ends in a command. -/
theorem seqStep (h : Listening s) : FlagDown (Machine.seqStep s).2 := by
  unfold Machine.seqStep process
  split
  · exact (h.getreg .cmd).sendCmd .iack
  · exact (h.getreg .cmd).event _

/-- A STATUS read shows the flag as it stands (R151). -/
theorem pending_statusRead (h : Listening s) : s.params.pending (statusRead s) = s.env.eng.ifl := by
  obtain ⟨hstatus, -, -⟩ := read_reference h.level s.params s.dev .cmd
  rw [advance_of_still h.moves] at hstatus
  have hbyte : statusRead s = s.env.eng.status s.params := hstatus
  obtain ⟨-, -, -, -, hflag⟩ := statusByteHasItsBits.1 s.params s.env.eng h.legal
  rw [hbyte, hflag]

end Listening

/-- Settles O46: the flag is up, so irq_entry is a step, and the step's command lowers it. -/
theorem handledMeansTheFlagIsDown : Obligations.HandledMeansTheFlagIsDown := by
  intro s t hlevel hmoves hlegal hlock hen hflag ht
  have h : Listening s := ⟨hlevel, hmoves, hlegal, hen⟩
  obtain ⟨rfl, hlost | haccepted⟩ := conclude_next ht
  · rw [hlevel] at hlost
    cases hlost
  · have hhandled : irqEntry s = { (seqStep s).2 with irqRet := some .handled } :=
      (if_pos hlock).trans ((irqLocked_eq hlock).trans (if_pos (h.pending_statusRead.trans hflag)))
    rw [hhandled] at haccepted ⊢
    exact ⟨rfl, h.seqStep haccepted⟩

end Sys2Proof.Machine
end

section
/-! A step without a call (44_adapters.md R200, R202, R205, R211; log 3): each kind of pending work, the blocked interrupt context, a
delivery, a move of the environment. Each goes as the call of its operation does, on the state its move leaves. -/

namespace Sys2Proof.Machine

/-! ### The initiator's frames -/

section

variable {s : State} {moves : List Move} {rest : List Frame}

theorem step_launch (h : InitiatorTurn s moves) (hf : s.todo = .launch :: rest) :
    (s.mode = .interrupt → step s = exec .waitIrq { s with schedule := moves, todo := rest })
      ∧ (s.mode = .poll → step s = exec .pollLoop { s with schedule := moves, todo := rest }) := by
  rw [step_initiatorTurn h hf, resumeFrame, launch]
  exact ⟨fun hmode => by rw [hmode]; rfl, fun hmode => by rw [hmode]; rfl⟩

theorem step_report (h : InitiatorTurn s moves) (hf : s.todo = .report :: rest) (hlevel : s.env.level = .oracle) :
    step s = exec .report { s with schedule := moves, todo := rest } := by
  rw [step_initiatorTurn h hf, conclude_trusted hlevel]
  rfl

/-- A pending arm goes on as the call that left it, which had claimed the transaction (R202; log 12). -/
theorem step_armStart {owner : Claim} {l : MsgList} (h : InitiatorTurn s moves) (hf : s.todo = .armStart owner l :: rest)
    (hclaim : s.claim = owner) : step s
      = conclude s (startTransaction owner l { s with schedule := moves, todo := rest, claim := .free }) := by
  rw [step_initiatorTurn h hf, startTransaction, ← hclaim]
  rfl

/-- It goes on whether or not a configure has failed since (log 14). -/
theorem step_armStart_failed {owner : Claim} {l : MsgList} (h : InitiatorTurn s moves)
    (hf : s.todo = .armStart owner l :: rest) (hclaim : s.claim = owner) (hlevel : s.env.level = .oracle) :
    step s = .next { startTransaction owner l
      { s with schedule := moves, todo := rest, claim := .free, configureFailed := false } with
        configureFailed := s.configureFailed } := by
  rw [step_armStart h hf hclaim, conclude_trusted hlevel, startTransaction, startTransaction, ← arm_configureFailed]

theorem step_submission {l : MsgList} (h : InitiatorTurn s moves) (hf : s.todo = .armStart .submission l :: rest)
    (hclaim : s.claim = .submission) (hl : listLegal l = true) :
    (s.configureFailed = false → step s = exec (.arm l) { s with schedule := moves, todo := rest, claim := .free })
      ∧ (s.env.level = .oracle →
        ∃ t, exec (.arm l) { s with schedule := moves, todo := rest, claim := .free, configureFailed := false } = .next t
          ∧ step s = .next { t with configureFailed := s.configureFailed }) := by
  let u : State := { s with schedule := moves, todo := rest, claim := .free }
  refine ⟨fun hfail => ?_, fun hlevel => ⟨_, exec_arm_trusted hlevel rfl rfl hl, step_armStart_failed h hf hclaim hlevel⟩⟩
  exact (step_armStart h hf hclaim).trans (exec_arm_starts (s := u) hfail rfl hl).symm

theorem step_program {m : Message} (h : InitiatorTurn s moves) (hf : s.todo = .armStart .program (some [m]) :: rest)
    (hclaim : s.claim = .program) (hphase : s.phase.terminal = true) (hm : m.legal false = true) :
    (s.configureFailed = false → step s = exec m.instr { s with schedule := moves, todo := rest, claim := .free })
      ∧ (s.env.level = .oracle →
        ∃ t, exec m.instr { s with schedule := moves, todo := rest, claim := .free, configureFailed := false } = .next t
          ∧ step s = .next { t with configureFailed := s.configureFailed }) := by
  let u : State := { s with schedule := moves, todo := rest, claim := .free }
  let v : State := { u with configureFailed := false }
  refine ⟨fun hfail => ?_, fun hlevel => ⟨_, ?_, step_armStart_failed h hf hclaim hlevel⟩⟩
  · exact (step_armStart h hf hclaim).trans (exec_message_arms (s := u) hphase rfl hfail hm).symm
  · exact (exec_message_arms (s := v) hphase rfl rfl hm).trans (conclude_trusted hlevel _)

/-- After recovery arm goes on to its end (R202). -/
theorem step_armTail {owner : Claim} {m : Message} {l : List Message} (h : InitiatorTurn s moves)
    (hf : s.todo = .armTail owner (some (m :: l)) :: rest) (hlevel : s.env.level = .oracle) :
    ∃ t ev ctrl, step s = .next t ∧ ev.readOf s .control ctrl
      ∧ Accessed s t [ev,
          wEvent s .control (if s.mode = .interrupt then ctrl ||| s.params.ctrlIen else ctrl &&& ~~~s.params.ctrlIen),
          wEvent s .data (addrByte m), cEvent s .start]
      ∧ t = { s with schedule := moves, todo := rest, msgs := some (m :: l), cursor := 0, position := 0, phase := .start,
                     err := .none, completion := false, claim := owner, lock := .free, ret := .nothing, env := t.env } := by
  obtain ⟨ev, ctrl, hread, haccessed, hstate⟩ :=
    armTail_starts (s := { s with schedule := moves, todo := rest }) hlevel owner m l
  refine ⟨_, ev, ctrl, ?_, hread, haccessed, hstate⟩
  rw [step_initiatorTurn h hf, conclude_trusted hlevel]
  rfl

/-- poll_loop's step, once the lock is free (R205). -/
theorem step_pollStep (h : InitiatorTurn s moves) (hf : s.todo = .pollStep :: rest) (hlevel : s.env.level = .oracle)
    (hlock : s.lock = .free) :
    ∃ u, exec .step { s with schedule := moves, todo := rest } = .next u
      ∧ step s = .next (if s.phase.terminal = true then { u with ret := .nothing }
          else { u with todo := .pollTop :: rest, ret := s.ret }) := by
  let u : State := { s with schedule := moves, todo := rest }
  have hstep := exec_step (s := u) hlevel
  refine ⟨_, hstep, ?_⟩
  rw [step_initiatorTurn h hf, conclude_trusted hlevel]
  exact congrArg _ (pollStep_of_step (s := u) hlevel hlock hstep)

theorem step_pollStep_held (h : InitiatorTurn s moves) (hf : s.todo = .pollStep :: rest) (hlevel : s.env.level = .oracle)
    (hlock : s.lock ≠ .free) : step s = .next { s with schedule := moves } := by
  rw [step_initiatorTurn h hf, conclude_trusted hlevel, resumeFrame, pollStep, if_neg hlock, push_unpushed hf]

end

/-! ### The other contexts -/

/-- At its turn the blocked interrupt context tries its `acquire lock` again (R203). -/
theorem step_interruptTurn {s : State} {moves : List Move}
    (h : s.schedule = [] ∧ s.todo = [] ∧ moves = [] ∨ s.schedule = .interrupt :: moves) :
    step s = conclude s (resumeIrq { s with schedule := moves }) := by
  rcases h with ⟨hs, htodo, rfl⟩ | hs
  · have hsame : { s with schedule := [] } = s := by rw [← hs]
    rw [hsame]
    simp only [step, hs, idleMove, htodo]
  · simp only [step, hs]

theorem resumeIrq_free {s : State} (hwaiting : s.irqWaiting = true) (hlock : s.lock = .free) :
    resumeIrq s = irqEntry { s with irqWaiting := false } :=
  (if_pos ⟨hwaiting, hlock⟩).trans (if_pos hlock).symm

theorem resumeIrq_nothing {s : State} (h : s.irqWaiting = false ∨ s.lock ≠ .free) : resumeIrq s = s :=
  if_neg fun ⟨hwaiting, hlock⟩ => h.elim (fun hn => by simp [hwaiting] at hn) (absurd hlock)

theorem step_deliver {s : State} {moves : List Move} (h : s.schedule = .deliver :: moves) :
    step s = conclude s (deliver { s with schedule := moves }) := by
  simp only [step, h]

/-- The completion signal is driven by the flag and IEN; of the flag nothing is known at the trusted level (log 23). -/
theorem signal_iff (p : Params) (e : Env) :
    e.signal p = true ↔ isSet e.eng.ctr p.ctrlIen = true ∧ (e.level = .oracle ∨ e.eng.ifl = true) := by
  cases hlevel : e.level <;> simp [Env.signal, hlevel]

theorem step_environment {s : State} {mv : EnvMove} {moves : List Move} (h : s.schedule = .environment mv :: moves) :
    step s = conclude s (environment mv { s with schedule := moves }) := by
  simp only [step, h]

/-- A move of the environment is the engine's and the target's. -/
theorem applyMove_shape (e : Env) (mv : EnvMove) :
    e.applyMove mv = { e with eng := (e.applyMove mv).eng, target := (e.applyMove mv).target } := by
  cases mv <;> simp only [Env.applyMove] <;> (repeat' split) <;> rfl

/-- The moves still to come do not matter to one that is made. -/
theorem applyMove_moves (e : Env) (mv : EnvMove) (batches : List (List EnvMove)) :
    Env.applyMove { e with moves := batches } mv = { e.applyMove mv with moves := batches } := by
  cases mv <;> simp only [Env.applyMove] <;> (repeat' split) <;> rfl

/-- A scheduled move of the environment is the one that the next access would see (R74, 42_commands.md R153, R154). -/
theorem step_environment_reference {s : State} {mv : EnvMove} {moves : List Move} (h : s.schedule = .environment mv :: moves)
    (hlevel : s.env.level = .reference) (hrefusal : s.env.refusal = none) :
    ∃ t u, step s = .next t ∧ t = { s with schedule := moves, env := t.env }
      ∧ t.env = { s.env with eng := t.env.eng, target := t.env.target }
      ∧ exec (.getreg .cmd) { s with env := { s.env with moves := [[mv]] } } = .next u
      ∧ t.env.eng = u.env.eng ∧ t.env.target = u.env.target := by
  let t : State := { s with schedule := moves, env := s.env.applyMove mv }
  have hmoved : environment mv { s with schedule := moves } = t := by simp only [environment, hlevel, t]
  have haccepted : t.env.refusal = none := (applyMove_keeps s.env mv).2.2.2.trans hrefusal
  obtain ⟨u, hexec, heng, htarget⟩ :=
    exec_getreg_after_move (s := { s with env := { s.env with moves := [[mv]] } }) hlevel hrefusal rfl .cmd
  have hmoves := applyMove_moves s.env mv []
  refine ⟨t, u, ?_, rfl, applyMove_shape s.env mv, hexec, (heng.trans (congrArg Env.eng hmoves)).symm,
    (htarget.trans (congrArg Env.target hmoves)).symm⟩
  rw [step_environment h, hmoved]
  exact conclude_accepted (.inr haccepted)

/-- Settles O54: the frames of the initiator, the blocked interrupt context, the delivery, the environment's move. -/
theorem stepGoesOnWithPendingWork : Obligations.StepGoesOnWithPendingWork := by
  refine ⟨fun s moves rest h => ⟨fun hf => (step_launch h hf).1, fun hf => (step_launch h hf).2,
    fun hf => step_initiatorTurn h hf, fun hf => step_initiatorTurn h hf, fun hf hlevel => step_report h hf hlevel,
    fun l hf hclaim hl => step_submission h hf hclaim hl,
    fun m hf hclaim hphase hm => step_program h hf hclaim hphase hm,
    fun owner m l hf hlevel => step_armTail h hf hlevel, fun hf hlevel hlock => step_pollStep h hf hlevel hlock,
    fun hf hlevel hlock => step_pollStep_held h hf hlevel hlock⟩, fun s moves h => ⟨fun hwaiting hlock => ?_,
    fun hn hlevel => ?_⟩, fun s moves hs htodo hlevel => ?_, fun s moves hs => ⟨fun hflag hien => ?_, fun hlevel hien => ?_,
    fun hlevel hrefusal hn => ?_⟩, fun s mv moves hs => ⟨fun hlevel => ?_,
    fun hlevel hrefusal => step_environment_reference hs hlevel hrefusal⟩⟩
  · rw [step_interruptTurn h, resumeIrq_free (s := { s with schedule := moves }) hwaiting hlock]
    rfl
  · rw [step_interruptTurn h, resumeIrq_nothing (s := { s with schedule := moves }) hn, conclude_trusted hlevel]
  · simp [step, hs, resumeInitiator, htodo, hlevel]
  · have hsignal : s.env.signal s.params = true := (signal_iff _ _).2 ⟨hien, hflag⟩
    rw [step_deliver hs, deliver, if_pos hsignal]
    rfl
  · have hsignal : ¬s.env.signal s.params = true := by simp [signal_iff, hien]
    rw [step_deliver hs, deliver, if_neg hsignal, conclude_trusted hlevel]
  · have hsignal : ¬s.env.signal s.params = true := by
      rw [signal_iff]
      rcases hn with hn | hn <;> simp [hn, hlevel]
    rw [step_deliver hs, deliver, if_neg hsignal]
    exact conclude_accepted (.inr hrefusal)
  · rw [step_environment hs, conclude_trusted hlevel, environment]
    simp only [hlevel]

end Sys2Proof.Machine
end

section
/-! Bus recovery at the trusted level (45_recovery.md R230 to R236): MASK and FORCE are accesses made in one run, and the wait has
one rule for its passes, the first of them in the call and every later one at the initiator's turn. -/

namespace Sys2Proof.Machine

/-- Settles O43: recover returns after CHECK. -/
theorem recoverWritesNothingWhenNotLost : Obligations.RecoverWritesNothingWhenNotLost := by
  intro s h hal
  obtain ⟨ev, hread, hrun⟩ := statusRead_run h
  have hexec := exec_recover h
  rw [recover_notLost hal] at hexec
  exact ⟨_, ev, hexec, hread, hrun.accessed.of_env rfl, rfl⟩

/-! ### MASK and FORCE -/

/-- The accesses of MASK: in interrupt mode IEN is cleared by read-modify-write, in poll mode nothing is touched (R233). -/
def MaskAccesses (s : State) (mask : List Event) : Prop :=
  (s.mode = .poll → mask = [])
    ∧ (s.mode = .interrupt → ∃ ev ctrl, ev.readOf s .control ctrl
        ∧ mask = [ev, wEvent s .control (ctrl &&& ~~~s.params.ctrlIen)])

theorem recoverMask_run {s t : State} {evs : List Event} (h : TrustedRun s t evs) (hmode : t.mode = s.mode) :
    ∃ mask, MaskAccesses s mask ∧ TrustedRun s (recoverMask t) (evs ++ mask) := by
  unfold MaskAccesses recoverMask
  rw [hmode]
  cases s.mode with
  | poll => exact ⟨[], by simp, (List.append_nil evs).symm ▸ h⟩
  | interrupt =>
    obtain ⟨ev, hread, hcontrol⟩ := h.getreg .control
    have hrun := hcontrol.setreg .control (t.params.masked (getreg .control t).1)
    rw [List.append_assoc, h.params] at hrun
    rw [h.params]
    exact ⟨_, ⟨by simp, fun _ => ⟨ev, _, hread, rfl⟩⟩, hrun⟩

/-- The block as the wait begins: STATUS read, IEN masked, the forced command written, the origin taken (R233 to R235). -/
def forced (s : State) : State :=
  let c := readClock (sendCmd .recover (recoverMask (getreg .cmd s).2))
  { c.2 with t0Recovery := some c.1 }

/-- With arbitration lost the call of recover ends in the first pass of the wait. -/
theorem exec_recover_lost {s : State} (h : s.env.level = .oracle) (hal : s.params.al (statusRead s) = true) :
    exec .recover s = .next (resumeRecover (forced s)) := by
  have hlost : recover s = recoverPass (forced s) := if_pos hal
  rw [exec_recover h, hlost]
  rfl

theorem forced_spec {s : State} (h : s.env.level = .oracle) :
    ∃ e1 mask t0 e, forced s = { s with t0Recovery := some t0, env := e }
      ∧ e1.readOf s .cmd (statusRead s) ∧ MaskAccesses s mask ∧ s.env.now ≤ t0 ∧ t0 = e.now
      ∧ AccessedInTime s { s with t0Recovery := some t0, env := e } (e1 :: mask ++ [cEvent s .recover]) := by
  obtain ⟨e1, hread, hcheck⟩ := statusRead_run h
  obtain ⟨mask, hmask, hmasked⟩ := recoverMask_run hcheck rfl
  obtain ⟨e, he⟩ := recoverMask_eq (getreg .cmd s).2
  rw [he] at hmasked
  let u : State := sendCmd .recover { (getreg .cmd s).2 with env := e }
  have haccessed : AccessedInTime s u (e1 :: mask ++ [cEvent s .recover]) := (hmasked.sendCmd .recover).accessed.inTime
  have hclock : AccessedInTime s (readClock u).2 (e1 :: mask ++ [cEvent s .recover]) := by
    simpa using haccessed.trans (readClock_accessed u)
  have hforced : forced s = { s with t0Recovery := some (readClock u).1, env := (readClock u).2.env } := by
    unfold forced
    rw [he]
    rfl
  have hnow := readClock_now u
  exact ⟨e1, mask, _, _, hforced, hread, hmask, hnow ▸ hclock.1, hnow.symm, hclock⟩

/-! ### WAIT and CLEAR -/

/-- A pass of the wait: STATUS read; the wait stays open with BUSY set and the bound not exceeded, else acknowledge-clear ends it
(R235, R236). -/
theorem resumeRecover_spec {s : State} (h : s.env.level = .oracle) {t0 : Nat} (ht0 : s.t0Recovery = some t0) :
    ∃ t ev v, resumeRecover s = t ∧ ev.readOf s .cmd v
      ∧ if isSet v s.params.statBusy = true ∧ t.env.now - t0 ≤ s.params.tRecoveryWait
        then AccessedInTime s t [ev] ∧ t = { s with todo := .recoverWait :: s.todo, env := t.env }
        else AccessedInTime s t [ev, cEvent s .iack] ∧ t = { s with t0Recovery := none, ret := .nothing, env := t.env } := by
  obtain ⟨ev, hread, haccessed⟩ := getreg_accessed h .cmd
  let g : State := (getreg .cmd s).2
  by_cases hbusy : isSet (getreg .cmd s).1 s.params.statBusy = true
  · let c : State := (readClock g).2
    have hclock : AccessedInTime s c [ev] := haccessed.inTime.trans (readClock_accessed g)
    have hpass : recoverPass s
        = if s.params.tRecoveryWait < c.env.now - t0 then (true, recoverClear c) else (false, c) := by
      simp only [recoverPass, if_pos hbusy, ht0, Option.getD_some, c, g, readClock_now]
    by_cases hbound : s.params.tRecoveryWait < c.env.now - t0
    · rw [if_pos hbound] at hpass
      have hclear := hclock.trans
        (sendCmd_accessed (s := { c with t0Recovery := none }) (hclock.level.trans h) .iack).inTime
      have hnow : ((recoverClear c).returns .nothing).env.now = c.env.now := sendCmd_now .iack _
      refine ⟨(recoverClear c).returns .nothing, ev, _, ?_, hread, ?_⟩
      · rw [resumeRecover, hpass]; rfl
      · rw [hnow, if_neg fun hopen => hopen.2.not_gt hbound]
        exact ⟨hclear, rfl⟩
    · rw [if_neg hbound] at hpass
      refine ⟨push .recoverWait c, ev, _, ?_, hread, ?_⟩
      · rw [resumeRecover, hpass]; rfl
      · rw [if_pos ⟨hbusy, not_lt.1 hbound⟩]
        exact ⟨hclock, rfl⟩
  · have hpass : recoverPass s = (true, recoverClear g) := if_neg hbusy
    have hclear := haccessed.trans
      (sendCmd_accessed (s := { g with t0Recovery := none }) (haccessed.level.trans h) .iack)
    refine ⟨(recoverClear g).returns .nothing, ev, _, ?_, hread, ?_⟩
    · rw [resumeRecover, hpass]; rfl
    · rw [if_neg fun hopen => hbusy hopen.1]
      exact ⟨hclear.inTime, rfl⟩

/-- Settles O44: the call makes its first pass after MASK and FORCE, and every later turn of the wait makes another. -/
theorem recoverForcesAndWaits : Obligations.RecoverForcesAndWaits := by
  refine ⟨fun s h hal => ?_, fun s moves rest t0 h hturn hf ht0 => ?_⟩
  · obtain ⟨e1, mask, t0, e, hforced, hread, ⟨hpoll, hinterrupt⟩, hlater, horigin, haccessed⟩ := forced_spec h
    have hexec := exec_recover_lost h hal
    obtain ⟨t, e2, v, hpass, hread2, hend⟩ := resumeRecover_spec (haccessed.level.trans h) rfl
    rw [hforced, hpass] at hexec
    refine ⟨t, e1, mask, e2, v, t0, hexec, hread, hread2, hpoll, hinterrupt, hlater, ?_, ?_⟩
    · rw [horigin]
      split at hend <;> exact hend.1.1
    · split at hend
      · next hopen =>
        obtain ⟨hwait, hstate⟩ := hend
        have hrun := haccessed.trans hwait
        rw [List.append_assoc] at hrun
        rw [if_pos hopen]
        exact ⟨hrun, hstate⟩
      · next hover =>
        obtain ⟨hclear, hstate⟩ := hend
        have hrun := haccessed.trans hclear
        rw [List.append_assoc] at hrun
        rw [if_neg hover]
        exact ⟨hrun, hstate⟩
  · obtain ⟨t, ev, v, hpass, hread, hend⟩ := resumeRecover_spec (s := { s with schedule := moves, todo := rest }) h ht0
    refine ⟨t, ev, v, ?_, hread, ?_⟩
    · rw [step_initiatorTurn hturn hf, conclude_trusted h]
      exact congrArg _ hpass
    · rw [← hf] at hend
      exact hend

end Sys2Proof.Machine
end

section
/-! The Timeout Watchdog called by a host (46_watchdog.md R244): what it does with the lock free, and with the lock held. -/

namespace Sys2Proof.Machine

theorem abortLocked_running {s : State} (hrunning : s.phase.terminal = false) :
    abortLocked s = failSilently .timeout s := if_neg (Bool.eq_false_iff.1 hrunning)

theorem abortLocked_terminal {s : State} (hterminal : s.phase.terminal = true) : abortLocked s = s := if_pos hterminal

theorem abortLocked_acquire (who : Lock) (s : State) :
    abortLocked (acquire who s) = acquire who (abortLocked s) := by
  unfold abortLocked
  rw [acquire_phase]
  split <;> rfl

theorem abortLocked_lock (s : State) : (abortLocked s).lock = s.lock := by
  unfold abortLocked
  split <;> rfl

/-- The lock is free again after the call, so taking and releasing it leaves only what the abort does under it. -/
theorem watchdogAbort_free {s : State} (hlock : s.lock = .free) :
    watchdogAbort s = (abortLocked s).returns .nothing := by
  rw [watchdogAbort, if_pos hlock, abortLocked_acquire, release_acquire ((abortLocked_lock s).trans hlock)]

theorem watchdogAbort_held {s : State} (hlock : s.lock ≠ .free) : watchdogAbort s = push .abort s := if_neg hlock

theorem failSilently_accessed {s : State} (h : s.env.level = .oracle) (e : Err) :
    Accessed s (failSilently e s) [cEvent s .stop] :=
  sendCmd_accessed (s := { s with phase := .error, err := e }) h .stop

/-- Settles O50: with the lock free the call is the abort's test of State, and with the lock held it leaves its frame. -/
theorem watchdogAbortsOnlyARunningTransaction : Obligations.WatchdogAbortsOnlyARunningTransaction := by
  intro s h
  have hexec : exec .watchdogAbort s = .next (watchdogAbort s) := conclude_trusted h _
  rw [hexec]
  refine ⟨fun hlock hrunning => ?_, fun hlock hterminal => ?_, fun hlock => ?_⟩
  · rw [watchdogAbort_free hlock, abortLocked_running hrunning]
    exact ⟨_, rfl, failSilently_accessed h .timeout, rfl⟩
  · rw [watchdogAbort_free hlock, abortLocked_terminal hterminal]
    rfl
  · rw [watchdogAbort_held hlock]
    rfl

end Sys2Proof.Machine
end
